-- ==== Sys2Proof/Word.lean ====
section
/-! DEFINITION. Words of the block and the fixed geometry of its grids (spec/00_scope.md R9, R10, R14; spec/10_state.md R22).
Only what the spec treats as bits is a bit vector: register words, host offsets, device bytes and words, binary64 patterns. -/

namespace Sys2Proof

/-- `u8`: one byte of a device-bus transaction or of the calibration image (R14). -/
abbrev Byte := BitVec 8

/-- `u16`: one word of a raw frame; also the pattern of an `s16` integer grid element (R14, R10 `INT_ELEM_BITS`). -/
abbrev HalfWord := BitVec 16

/-- A host register word (R10 `HOST_DATA_BITS` = 32). -/
abbrev Word := BitVec 32

/-- The bit pattern of an IEEE 754 binary64 value (R10 `FLT_ELEM_BITS` = 64, R14 `f64`). -/
abbrev F64 := BitVec 64

/-- A byte offset in the host register space (R10 `HOST_ADDR_BITS` = 10). -/
abbrev HostAddr := BitVec 10

/-- A 7-bit device-bus address (R16). -/
abbrev BusAddr := BitVec 7

/-- A grid index, or a device pixel index: 0..63 (R9 `N_PIX` = 64). -/
abbrev Pixel := Fin 64

/-- A 4×16 grid in host raster order (R9, R36). -/
abbrev Grid (α : Type) := Vector α 64

/-- The grid whose element `k` is `f k`. -/
def tabulate {α : Type} (f : Pixel → α) : Grid α := Vector.ofFn f

/-- The element of a grid that a 6-bit index field of an encoding selects (R103). -/
def gridAt {α : Type} (g : Grid α) (k : BitVec 6) : α := g[k.toNat]'k.isLt

end Sys2Proof
end

