-- ==== Sys2Proof/Machine/Float.lean ====
section
/-! DEFINITION. The block's arithmetic: IEEE 754 binary64, round to nearest, ties to even (spec/00_scope.md R17; spec/45_compensation.md R240,
R252, R257). Every operation unpacks its operands to exact integers, computes exactly, and rounds once at the end. -/

namespace Sys2Proof.Machine

/-- What a binary64 pattern stands for. `fin neg m e` is the value `± m · 2^e`. -/
inductive FpValue where
  | nan
  | inf (neg : Bool)
  | fin (neg : Bool) (m : Nat) (e : Int)
  deriving DecidableEq, Repr

/-- The sign bit of a binary64 pattern. -/
def Fp.signBit (x : F64) : Bool := x.getLsbD 63

/-- The 63 bits below the sign: biased exponent and fraction, which order the magnitudes. -/
def Fp.magnitude (x : F64) : Nat := x.toNat % 2 ^ 63

/-- The magnitude bits of the infinities: biased exponent 2047, fraction 0. -/
def Fp.infMagnitude : Nat := 2047 * 2 ^ 52

/-- The pattern with a given sign and given magnitude bits. -/
def Fp.pack (neg : Bool) (mag : Nat) : F64 :=
  BitVec.ofNat 64 ((if neg then 2 ^ 63 else 0) + mag)

/-- The NaN an operation answers. Which NaN pattern it is cannot be seen: no NaN reaches a grid (R255). DESIGN CHOICE, log entry 12. -/
def Fp.nan : F64 := Fp.pack false (Fp.infMagnitude + 2 ^ 51)

/-- `±inf`. -/
def Fp.infinity (neg : Bool) : F64 := Fp.pack neg Fp.infMagnitude

/-- `±0.0`. -/
def Fp.zero (neg : Bool) : F64 := Fp.pack neg 0

/-- The value of a pattern: IEEE 754 binary64 with subnormals (R14 `f64`). -/
def Fp.unpack (x : F64) : FpValue :=
  let be : Nat := Fp.magnitude x / 2 ^ 52
  let frac : Nat := Fp.magnitude x % 2 ^ 52
  if be = 2047 then (if frac = 0 then .inf (Fp.signBit x) else .nan)
  else if be = 0 then .fin (Fp.signBit x) frac (-1074)
  else .fin (Fp.signBit x) (2 ^ 52 + frac) ((be : Int) - 1075)

def Fp.isNaN (x : F64) : Bool := decide (Fp.infMagnitude < Fp.magnitude x)

def Fp.isInf (x : F64) : Bool := decide (Fp.magnitude x = Fp.infMagnitude)

/-- Neither a NaN nor an infinity. -/
def Fp.isFinite (x : F64) : Bool := decide (Fp.magnitude x < Fp.infMagnitude)

/-- `m / 2^k` rounded to the nearest integer, an exact half to the even neighbour (R17, R252). -/
def Fp.halfEven (m k : Nat) : Nat :=
  let q := m / 2 ^ k
  let r := m % 2 ^ k
  if 2 ^ k < 2 * r ∨ (2 * r = 2 ^ k ∧ q % 2 = 1) then q + 1 else q

/-- The exponent of the unit in the last place of `m · 2^e` in binary64: 52 below the leading bit, but never below `-1074`. -/
def Fp.ulpExp (m : Nat) (e : Int) : Int := max (e + m.log2 - 52) (-1074)

/-- `± m · 2^e` rounded to binary64, nearest, ties to even (R17). The magnitude bits are `(q + 1074) · 2^52` plus the rounded significand: a carry
out of the significand lands in the exponent field, and a subnormal has `q = -1074`. Magnitudes past the largest finite one give infinity. -/
def Fp.round (neg : Bool) (m : Nat) (e : Int) : F64 :=
  if m = 0 then Fp.zero neg
  else
    let q := Fp.ulpExp m e
    let sig := if q ≤ e then m * 2 ^ (e - q).toNat else Fp.halfEven m (q - e).toNat
    let mag := (q + 1074).toNat * 2 ^ 52 + sig
    Fp.pack neg (min mag Fp.infMagnitude)

/-- `± m` as an integer. -/
def Fp.signed (neg : Bool) (m : Nat) : Int := if neg then -(m : Int) else m

/-- `neg.`: sign negation (R17). -/
def Fp.neg (x : F64) : F64 := x ^^^ (1#64 <<< 63)

/-- `+.` (R17). An exact sum of zero is `+0.0`, but `-0.0` when both operands are negative (IEEE 754, round to nearest). -/
def Fp.add (x y : F64) : F64 :=
  match Fp.unpack x, Fp.unpack y with
  | .nan, _ => Fp.nan
  | _, .nan => Fp.nan
  | .inf a, .inf b => if a = b then Fp.infinity a else Fp.nan
  | .inf a, .fin _ _ _ => Fp.infinity a
  | .fin _ _ _, .inf b => Fp.infinity b
  | .fin a m d, .fin b n e =>
    let low := min d e
    let sum := Fp.signed a (m * 2 ^ (d - low).toNat) + Fp.signed b (n * 2 ^ (e - low).toNat)
    if sum = 0 then Fp.zero (a && b) else Fp.round (decide (sum < 0)) sum.natAbs low

/-- `-.` (R17). -/
def Fp.sub (x y : F64) : F64 := Fp.add x (Fp.neg y)

/-- `*.` (R17). -/
def Fp.mul (x y : F64) : F64 :=
  match Fp.unpack x, Fp.unpack y with
  | .nan, _ => Fp.nan
  | _, .nan => Fp.nan
  | .inf a, .inf b => Fp.infinity (a ^^ b)
  | .inf a, .fin b n _ => if n = 0 then Fp.nan else Fp.infinity (a ^^ b)
  | .fin a m _, .inf b => if m = 0 then Fp.nan else Fp.infinity (a ^^ b)
  | .fin a m d, .fin b n e => Fp.round (a ^^ b) (m * n) (d + e)

/-- How many bits a quotient or a root is computed to, past what rounding needs. -/
def Fp.guardBits : Nat := 116

/-- `2·q`, plus one when something is left over: an exact value strictly between `q` and `q + 1` stands as `q + 1/2`. -/
def Fp.sticky (q : Nat) (exact : Bool) : Nat := 2 * q + (if exact then 0 else 1)

/-- `/.` (R17). A finite nonzero value over zero is an infinity; zero over zero is a NaN. -/
def Fp.div (x y : F64) : F64 :=
  match Fp.unpack x, Fp.unpack y with
  | .nan, _ => Fp.nan
  | _, .nan => Fp.nan
  | .inf _, .inf _ => Fp.nan
  | .inf a, .fin b _ _ => Fp.infinity (a ^^ b)
  | .fin a _ _, .inf b => Fp.zero (a ^^ b)
  | .fin a m d, .fin b n e =>
    if n = 0 then (if m = 0 then Fp.nan else Fp.infinity (a ^^ b))
    else
      let top := m * 2 ^ Fp.guardBits
      Fp.round (a ^^ b) (Fp.sticky (top / n) (decide (top % n = 0))) (d - e - Fp.guardBits - 1)

/-- The digits of an integer square root from bit `k - 1` down, `r` being the digits found so far. -/
def Fp.isqrtFrom (n : Nat) : Nat → Nat → Nat
  | 0, r => r
  | k + 1, r => Fp.isqrtFrom n k (if (r + 2 ^ k) * (r + 2 ^ k) ≤ n then r + 2 ^ k else r)

/-- The integer square root of `n < 2^172`. -/
def Fp.isqrt (n : Nat) : Nat := Fp.isqrtFrom n 86 0

/-- `sqrt.`: the correctly rounded square root (R17). `sqrt.(-0.0) = -0.0`; a negative operand gives a NaN. -/
def Fp.sqrt (x : F64) : F64 :=
  match Fp.unpack x with
  | .nan => Fp.nan
  | .inf a => if a then Fp.nan else Fp.infinity false
  | .fin a m e =>
    if m = 0 then Fp.zero a
    else if a then Fp.nan
    else
      let shift := if e % 2 = 0 then Fp.guardBits else Fp.guardBits + 1
      let n := m * 2 ^ shift
      let r := Fp.isqrt n
      Fp.round false (Fp.sticky r (decide (r * r = n))) ((e - shift) / 2 - 1)

/-- `root4.(x) = sqrt.(sqrt.(x))`: two correctly rounded square roots, not a power (R17, R240). -/
def Fp.root4 (x : F64) : F64 := Fp.sqrt (Fp.sqrt x)

/-- The place of a pattern in the order of values: both zeros at 0. -/
def Fp.key (x : F64) : Int := Fp.signed (Fp.signBit x) (Fp.magnitude x)

/-- `<` on binary64: false when an operand is a NaN, and `-0.0 < 0.0` is false (R213, R240). -/
def Fp.lt (x y : F64) : Bool := !Fp.isNaN x && !Fp.isNaN y && decide (Fp.key x < Fp.key y)

/-- `==` on binary64: false when an operand is a NaN; the two zeros are equal. -/
def Fp.eq (x y : F64) : Bool := !Fp.isNaN x && !Fp.isNaN y && decide (Fp.key x = Fp.key y)

/-- `f64(n)`: the binary64 value of an integer, exact for `|n| < 2^53` (R17). -/
def Fp.ofInt (n : Int) : F64 := Fp.round (decide (n < 0)) n.natAbs 0

/-- `pow2(k)`: the exact value `2^k` (R17). The spec takes it for `k ≤ 255`. -/
def Fp.pow2 (k : Nat) : F64 := Fp.round false 1 k

/-- `round_ties_even`: the nearest integer, an exact half to the even neighbour (R252). It is applied to finite values only (R255); of a NaN or an
infinity it answers 0, which no rule reads. -/
def Fp.roundTiesEven (x : F64) : Int :=
  match Fp.unpack x with
  | .fin a m e => Fp.signed a (if 0 ≤ e then m * 2 ^ e.toNat else Fp.halfEven m (-e).toNat)
  | _ => 0

end Sys2Proof.Machine
end

