-- ==== Sys2Proof/Syntax.lean ====
section
/-! DEFINITION. The two instruction sets of the block as syntax: host operations and device-bus transactions (spec/30_encoding.md; one constructor
of `Instr` per row of spec/opcode_table.json), the frames of the device bus, and the host programs of R104 and R105. -/

namespace Sys2Proof

/-- One row of spec/opcode_table.json each. The first four are command words (format CW), the next thirteen host accesses (format HA), the last
three device-bus transactions (formats BW and BR). -/
inductive Instr where
  /-- NOP (R267) -/
  | nop
  /-- INIT (R171) -/
  | init
  /-- READ (R262) -/
  | read
  /-- ILLEGAL_CMD (R268): any command word that is none of the three above -/
  | illegalCmd (rsv : BitVec 24) (opcode : BitVec 8)
  /-- WR_CONFIG (R155) -/
  | wrConfig (data : Word)
  /-- RD_CONFIG (R156) -/
  | rdConfig
  /-- WR_CMD (R260) -/
  | wrCmd (data : Word)
  /-- RD_CMD (R275) -/
  | rdCmd
  /-- WR_STATUS (R275) -/
  | wrStatus (data : Word)
  /-- RD_STATUS (R274) -/
  | rdStatus
  /-- RD_INT (R272) -/
  | rdInt (k : BitVec 6)
  /-- RD_FLO (R273) -/
  | rdFlo (k : BitVec 6)
  /-- RD_FHI (R273) -/
  | rdFhi (k : BitVec 6)
  /-- WR_INT (R275) -/
  | wrInt (k : BitVec 6) (data : Word)
  /-- WR_FLT (R275): `high` selects the word at 0x204 + 8k -/
  | wrFlt (k : BitVec 6) (high : Bool) (data : Word)
  /-- RD_RSV (R275) -/
  | rdRsv (addr : HostAddr)
  /-- WR_RSV (R275) -/
  | wrRsv (addr : HostAddr) (data : Word)
  /-- CFG_WRITE (R97, R157): `low` is the rate byte, `high` is `CFG_MSB`; the check bytes follow from them -/
  | cfgWrite (low high : Byte)
  /-- EE_READ (R99, R121) -/
  | eeRead (off : Byte)
  /-- RAM_READ_FRAME (R100, R191) -/
  | ramReadFrame
  deriving DecidableEq, Repr

/-- A device-bus transaction as ENGINE emits it (R16, R96, R98). -/
inductive BusFrame where
  /-- format BW, `TxWrite(dev, bytes)` -/
  | write (dev : BusAddr) (bytes : List Byte)
  /-- format BR, `TxRead(dev, cmd, n)` -/
  | read (dev : BusAddr) (cmd : List Byte) (n : Nat)
  deriving DecidableEq, Repr

/-- What the DEVICE oracle answers to one whole transaction (R5, R16): success, with the bytes of a read (a list of any length; those of a write are
not looked at), or failure. -/
inductive DevAnswer where
  | ok (bytes : List Byte)
  | fail
  deriving DecidableEq, Repr, Inhabited

/-- An encoded operation in one of the five formats of spec/30_encoding.md (R90, R92, R96, R98; CF is the data of an HA write, R95). -/
inductive Code where
  | cw (word : Word)
  | ha (rec : BitVec 43)
  | bus (frame : BusFrame)
  deriving DecidableEq, Repr

/-- An agent's turn, or the platform's reset signal (R5, R74, R320). -/
inductive Turn where
  | host
  | engine
  | reset
  deriving DecidableEq, Repr, Inhabited

/-- The widths of access that are not admitted: 8, 16 and 64 bits (R65). -/
inductive BadWidth where
  | w8
  | w16
  | w64
  deriving DecidableEq, Repr

/-- One line of a HOST program once labels and pseudo-instructions are expanded (R104, R105). -/
inductive HostLine where
  /-- an access record, format HA (R90) -/
  | access (rec : BitVec 43)
  /-- a command word, format CW, to be written to CMD: `nop`, `init`, `read` (R92, R105) -/
  | command (word : Word)
  /-- `bnz`: read the register at `addr`; go to line `target` when `(value AND mask) ≠ 0` (R104) -/
  | branch (addr : HostAddr) (mask : Word) (target : Nat)
  /-- an access of another width than 32 bits (R65) -/
  | sized (width : BadWidth) (write : Bool) (addr : HostAddr)
  deriving DecidableEq, Repr

/-- A register operand of a HOST program (R104). -/
inductive HostReg where
  | config
  | cmd
  | status
  | int (k : Pixel)
  | flo (k : Pixel)
  | fhi (k : Pixel)
  | offset (addr : HostAddr)
  deriving DecidableEq, Repr

/-- A source line of a HOST program: operations, labels and pseudo-instructions (R104, R105). A label is a number. -/
inductive AsmLine where
  | wr (reg : HostReg) (imm : Word)
  | rd (reg : HostReg)
  | label (name : Nat)
  | bnz (reg : HostReg) (mask : Word) (name : Nat)
  | nop
  | init
  | read
  | rate (n : Word)
  | wait
  | grid (k : Pixel)
  deriving DecidableEq, Repr

/-- A `dev` line of a test program: the oracle's choice for the next transaction (R104). -/
inductive DevLine where
  | ok
  | fail
  | bytes (bs : List Byte)
  | short (m : Nat)
  deriving DecidableEq, Repr

end Sys2Proof
end

