-- ==== Sys2Proof/Config.lean ====
section
/-! DEFINITION. What an implementation or a platform fixes (spec/00_scope.md R9 to R13; spec/92_eei_decisions.md, open parameters), and the free
values: opaque constants with no body, which stand for whatever the spec leaves open. -/

namespace Sys2Proof

/-- `PROFILE` (R11, R13): the calibration decode and compensation formula. The spec defines one; R259 says what any other must keep. -/
inductive ProfileId where
  | mlx90621
  | other (id : Nat)
  deriving DecidableEq, Repr

/-- The open parameters that a rule of the block reads (R11). They are fixed for a machine: no step changes them. -/
structure Params where
  /-- `CAL_BYTES` -/
  calBytes : Nat
  /-- `CAL_CHUNK` -/
  calChunk : Nat
  /-- `DEV_RAM` -/
  devRam : BusAddr
  /-- `DEV_EE` -/
  devEe : BusAddr
  /-- `CFG_MSB` -/
  cfgMsb : Byte
  /-- `FRAME_WORDS` -/
  frameWords : Nat
  /-- `PROFILE` -/
  profile : ProfileId
  deriving DecidableEq, Repr

/-- The defaults of R11. -/
def Params.default : Params where
  calBytes := 256
  calChunk := 256
  devRam := 0x60#7
  devEe := 0x50#7
  cfgMsb := 0x46#8
  frameWords := 66
  profile := .mlx90621

/-- `NCHUNK = CAL_BYTES / CAL_CHUNK` (R120). -/
def Params.nChunk (p : Params) : Nat := p.calBytes / p.calChunk

/-- The constraints R11 puts on the parameters. `FRAME_WORDS` is 66 under the default profile; the top level of `compensate`, which holds for every
profile, reads words up to 65 (R211), and the frame command gives the count one byte (R100): log entry 11. -/
def Params.wf (p : Params) : Bool :=
  decide (0xE7 < p.calBytes) && decide (1 ≤ p.calChunk) && decide (p.calChunk ≤ 256) && decide (p.calBytes % p.calChunk = 0) &&
    decide (66 ≤ p.frameWords) && decide (p.frameWords ≤ 255) && (p.profile != .mlx90621 || p.frameWords == 66)

/-- `N_RATES`: selectors 0 to 10 are supported (R10). -/
def Config.nRates : Nat := 11

/-- `RESET_RATE_SEL` (R10). -/
def Config.resetRateSel : BitVec 4 := 1#4

/-- `T_MIN`, the documented minimum: binary64 nearest to -273.2 (R10, R246). -/
def Config.tMin : F64 := 0xC071133333333333#64

/-- `T_MAX`: binary64 nearest to 3276.7 (R10, R246). -/
def Config.tMax : F64 := 0x40A9996666666666#64

/-- `ADC_RES`, the resolution code the block programs (R12). -/
def Config.adcRes : Nat := 3

/-- `HOST_BASE`: the platform's choice; no rule of the block reads it (R61; log entry 15). -/
opaque Config.hostBase : Nat

/-- FREE VALUE (R5, R68, R71; log entry 6): what the DEVICE answers to a transaction when the state scripts no answer; the first argument counts the draws. -/
opaque Config.deviceAnswer : Nat → BusFrame → DevAnswer

/-- FREE VALUE (R74; log entry 7): which turn comes next when the state scripts none. Fairness (R341) is a property of runs, `State.fairToEngine`. -/
opaque Config.schedule : Nat → Turn

/-- FREE VALUE (R194; log entry 3): word `t` of the raw frame buffer after a failed frame read; the first argument counts the draws. -/
opaque Config.rawWord : Nat → Nat → HalfWord

/-- FREE VALUE (R34; log entry 4): byte `a` of the staging buffer once an INIT has ended; the first argument counts the draws. -/
opaque Config.stageByte : Nat → Nat → Byte

/-- FREE VALUE (R104; log entry 20): byte `t` of the reply a test program writes as `dev short(<m>)`, whose bytes it does not give. -/
opaque Config.shortByte : Nat → Nat → Byte

/-- FREE VALUE (R259; log entry 16): `decode_cal` of a profile other than the default, as a record of binary64 constants. -/
opaque Config.otherDecodeCal : Nat → List Byte → List F64

/-- FREE VALUE (R259; log entry 16): `ambient` of a profile other than the default, `none` being Domain. -/
opaque Config.otherAmbient : Nat → F64 → List F64 → Option F64

/-- FREE VALUE (R259; log entry 16): `object` of a profile other than the default (pixel, VIR, VCP, Ta, constants), `none` being Domain. -/
opaque Config.otherObject : Nat → Pixel → F64 → F64 → F64 → List F64 → Option F64

end Sys2Proof
end

