-- ==== Sys2Proof/Machine/Operands.lean ====
section
/-! DEFINITION. Operand assembly, field by field (spec/30_encoding.md R103; spec/00_scope.md R14; spec/42_configuration.md R151), and the host
offsets of the grid words (spec/10_state.md R22). -/

namespace Sys2Proof.Machine

/-- `le16(b0, b1)`: two bytes, least significant first (R14, R67). -/
def le16 (b0 b1 : Byte) : HalfWord := b1 ++ b0

/-- `sext_16` (R14). -/
def sext16 (h : HalfWord) : Int := h.toInt

/-- `zext_16` (R14). -/
def zext16 (h : HalfWord) : Int := h.toNat

/-- `sext_8` (R14). -/
def sext8 (b : Byte) : Int := b.toInt

/-- The check byte of a configuration byte: `(x − 0x55) mod 256` (R97, R103). -/
def checkByte (x : Byte) : Byte := x - 0x55#8

/-- A selector of the supported set (R151). -/
def rateSupported (s : BitVec 4) : Bool := decide (s.toNat < Config.nRates)

/-- `rate_byte(s)`: `0x30 | (15 − s)` for a supported selector, none otherwise (R151). -/
def rateByte (s : BitVec 4) : Option Byte :=
  if rateSupported s then some (0x3#4 ++ (15#4 - s)) else none

/-- The bytes that `rate_byte` gives to some supported selector: 0x35 to 0x3F (R151). -/
def isRateByte (b : Byte) : Bool := decide (0x35 ≤ b.toNat) && decide (b.toNat ≤ 0x3F)

/-- The register-space offset sent for calibration chunk `j`: `j * CAL_CHUNK` as a byte (R99, R121). -/
def eeOffset (p : Params) (j : Nat) : Byte := BitVec.ofNat 8 (j * p.calChunk)

/-- Offset of CONFIG (R22). -/
def addrConfig : HostAddr := 0x000#10

/-- Offset of CMD (R22). -/
def addrCmd : HostAddr := 0x004#10

/-- Offset of STATUS (R22). -/
def addrStatus : HostAddr := 0x008#10

/-- Offset of INT_GRID[k]: `0x100 + 4·k` (R22), that is 0b01kkkkkk00. -/
def addrInt (k : BitVec 6) : HostAddr := 0b01#2 ++ k ++ 0b00#2

/-- Offset of FLT_GRID_LO[k], `0x200 + 8·k`, or of FLT_GRID_HI[k], `0x204 + 8·k` (R22), that is 0b1kkkkkkx00. -/
def addrFlt (k : BitVec 6) (high : Bool) : HostAddr := 0b1#1 ++ k ++ BitVec.ofBool high ++ 0b00#2

/-- `k` of an INT_GRID offset: ADDR[7:2] (R103). -/
def intIndex (a : HostAddr) : BitVec 6 := a.extractLsb' 2 6

/-- `k` of a FLT_GRID offset: ADDR[8:3] (R103). -/
def fltIndex (a : HostAddr) : BitVec 6 := a.extractLsb' 3 6

/-- `ADDR mod 8 = 4`: the word that holds bits [63:32] (R103). -/
def fltHigh (a : HostAddr) : Bool := a.getLsbD 2

/-- `a mod 4 = 0` (R65, R91). -/
def aligned (a : HostAddr) : Bool := a.extractLsb' 0 2 == 0#2

end Sys2Proof.Machine
end

