-- ==== Sys2Proof/Machine/Calibration.lean ====
section
/-! DEFINITION. The calibration store readout: the bytes of a chunk into the staging buffer, and the decode of an image into binary64 constants under
the default profile (spec/41_calibration_store.md R120 to R140). -/

namespace Sys2Proof.Machine

/-- The constants that `decode_cal` gives under the profile MLX90621 (R126). -/
structure CalConsts where
  vth : F64
  kt1 : F64
  kt2 : F64
  a : Pixel → F64
  b : Pixel → F64
  alpha : Pixel → F64
  acp : F64
  bcp : F64
  alphaCp : F64
  tgc : F64
  eps : F64
  ksta : F64
  ks4 : F64

/-- `E[a]`. An image has `CAL_BYTES` bytes and the decode reads offsets below that (R11, R127), so the value past the end is never read. -/
def calByte (image : List Byte) (a : Nat) : Byte := image.getD a 0#8

/-- `u8` at an offset (R127). -/
def calU8 (image : List Byte) (a : Nat) : Int := (calByte image a).toNat

/-- `s8` at an offset (R127). -/
def calS8 (image : List Byte) (a : Nat) : Int := sext8 (calByte image a)

/-- `u16` at two consecutive offsets, low byte first (R67, R127). -/
def calU16 (image : List Byte) (a : Nat) : Int := zext16 (le16 (calByte image a) (calByte image (a + 1)))

/-- `s16` at two consecutive offsets, low byte first (R67, R127). -/
def calS16 (image : List Byte) (a : Nat) : Int := sext16 (le16 (calByte image a) (calByte image (a + 1)))

/-- The `u4` in bits [3:0] of the byte at an offset (R127). -/
def calLow4 (image : List Byte) (a : Nat) : Nat := (calByte image a).toNat % 16

/-- The `u4` in bits [7:4] of the byte at an offset (R127). -/
def calHigh4 (image : List Byte) (a : Nat) : Nat := (calByte image a).toNat / 16

/-- `RES_DIV = pow2(3 − ADC_RES)`, which is 1.0 (R12, R128). -/
def resDiv : F64 := Fp.pow2 (3 - Config.adcRes)

/-- `f64(n) /. pow2(k)`. -/
def scaled (n : Int) (k : Nat) : F64 := Fp.div (Fp.ofInt n) (Fp.pow2 k)

/-- `decode_cal` under the profile MLX90621 (R126, R129 to R138). -/
def decodeCal (image : List Byte) : CalConsts where
  vth := Fp.div (Fp.ofInt (calS16 image 0xDA)) resDiv
  kt1 := Fp.div (scaled (calS16 image 0xDC) (calHigh4 image 0xD2)) resDiv
  kt2 := Fp.div (scaled (calS16 image 0xDE) (calLow4 image 0xD2 + 10)) resDiv
  a := fun i => Fp.div (Fp.ofInt (calS16 image 0xD0 + calU8 image (0x00 + i.val) * 2 ^ calHigh4 image 0xD9)) resDiv
  b := fun i => Fp.div (scaled (calS8 image (0x40 + i.val)) (calLow4 image 0xD9)) resDiv
  alpha := fun i =>
    Fp.div (Fp.add (scaled (calU16 image 0xE0) (calByte image 0xE2).toNat) (scaled (calU8 image (0x80 + i.val)) (calByte image 0xE3).toNat)) resDiv
  acp := Fp.div (Fp.ofInt (calS16 image 0xD3)) resDiv
  bcp := Fp.div (scaled (calS8 image 0xD5) (calLow4 image 0xD9)) resDiv
  alphaCp := Fp.div (scaled (calU16 image 0xD6) (calByte image 0xE2).toNat) resDiv
  tgc := Fp.div (Fp.ofInt (calS8 image 0xD8)) (Fp.ofInt 32)
  eps := Fp.div (Fp.ofInt (calU16 image 0xE4)) (Fp.ofInt 32768)
  ksta := scaled (calS16 image 0xE6) 20
  ks4 := scaled (calS8 image 0xC4) (calLow4 image 0xC0 + 8)

end Sys2Proof.Machine
end

