-- ==== Sys2Proof/Machine/Compensation.lean ====
section
/-! DEFINITION. The compensation engine: ambient temperature, object temperature of one pixel, clamping, layout and the two representations
(spec/45_compensation.md R210 to R259). `none` is the value Domain. Expressions are evaluated in the order the spec writes them (R17, R257). -/

namespace Sys2Proof.Machine

/-- `1.0` -/
def Fp.one : F64 := Fp.ofInt 1

/-- `25.0`: the reference ambient of the profile's constants (R216). -/
def Fp.refAmbient : F64 := Fp.ofInt 25

/-- `273.15`: the binary64 value nearest to it (R222). -/
def Fp.kelvin : F64 := 0x4071126666666666#64

/-- `0.0` -/
def Fp.posZero : F64 := Fp.zero false

/-- `x is NaN or x < 0.0 or x == +inf`: no radicand (R235, R238). -/
def Fp.badRadicand (x : F64) : Bool := Fp.isNaN x || Fp.lt x Fp.posZero || Fp.isInf x

/-- `ambient(PTAT, K)` under the profile MLX90621 (R213). -/
def ambient (ptat : F64) (k : CalConsts) : Option F64 :=
  if Fp.eq k.kt2 Fp.posZero then none
  else
    let t1 := Fp.mul k.kt1 k.kt1
    let t2 := Fp.mul (Fp.ofInt 4) k.kt2
    let t3 := Fp.sub k.vth ptat
    let disc := Fp.sub t1 (Fp.mul t2 t3)
    if Fp.isNaN disc || Fp.lt disc Fp.posZero then none
    else
      let num := Fp.add (Fp.neg k.kt1) (Fp.sqrt disc)
      let ta := Fp.add (Fp.div num (Fp.mul (Fp.ofInt 2) k.kt2)) Fp.refAmbient
      if Fp.isNaN ta || Fp.isInf ta then none else some ta

/-- Offset removal of the compensation pixel (R217). -/
def vcpOff (vcp dT : F64) (k : CalConsts) : F64 := Fp.sub vcp (Fp.add k.acp (Fp.mul k.bcp dT))

/-- Offset removal of a pixel (R218). -/
def virOff (p : Pixel) (vir dT : F64) (k : CalConsts) : F64 := Fp.sub vir (Fp.add (k.a p) (Fp.mul (k.b p) dT))

/-- Thermal-gradient compensation (R219). -/
def virTgc (off cpOff : F64) (k : CalConsts) : F64 := Fp.sub off (Fp.mul k.tgc cpOff)

/-- Compensated sensitivity (R221). -/
def alphaComp (p : Pixel) (dT : F64) (k : CalConsts) : F64 :=
  Fp.mul (Fp.add Fp.one (Fp.mul k.ksta dT)) (Fp.sub (k.alpha p) (Fp.mul k.tgc k.alphaCp))

/-- Ambient in kelvin, to the fourth power (R222). -/
def taK4 (ta : F64) : F64 :=
  let taK := Fp.add ta Fp.kelvin
  let taK2 := Fp.mul taK taK
  Fp.mul taK2 taK2

/-- The Ks4 term: skipped when KS4 is zero (R236), Domain on a bad radicand (R235). -/
def ks4Term (alphaC virComp ta4 : F64) (k : CalConsts) : Option F64 :=
  if Fp.eq k.ks4 Fp.posZero then some Fp.posZero
  else
    let a2 := Fp.mul alphaC alphaC
    let a3 := Fp.mul a2 alphaC
    let a4 := Fp.mul a2 a2
    let rad := Fp.add (Fp.mul a3 virComp) (Fp.mul a4 ta4)
    if Fp.badRadicand rad then none else some (Fp.mul k.ks4 (Fp.root4 rad))

/-- The denominator of the object formula (R237). -/
def denominator (alphaC sx : F64) (k : CalConsts) : Option F64 :=
  let d := Fp.add (Fp.mul alphaC (Fp.sub Fp.one (Fp.mul k.ks4 Fp.kelvin))) sx
  if Fp.isNaN d || Fp.eq d Fp.posZero || Fp.isInf d then none else some d

/-- The object temperature from its three ingredients (R238). -/
def objectFrom (virComp denom ta4 : F64) : Option F64 :=
  let rad := Fp.add (Fp.div virComp denom) ta4
  if Fp.badRadicand rad then none
  else
    let tObj := Fp.sub (Fp.root4 rad) Fp.kelvin
    if Fp.isNaN tObj || Fp.isInf tObj then none else some tObj

/-- `object(p, VIR, VCP, Ta, K)` under the profile MLX90621 (R216 to R238). -/
def object (p : Pixel) (vir vcp ta : F64) (k : CalConsts) : Option F64 :=
  let dT := Fp.sub ta Fp.refAmbient
  let tgc := virTgc (virOff p vir dT k) (vcpOff vcp dT k) k
  if Fp.eq k.eps Fp.posZero then none
  else
    let virComp := Fp.div tgc k.eps
    let alphaC := alphaComp p dT k
    let ta4 := taK4 ta
    match ks4Term alphaC virComp ta4 k with
    | none => none
    | some sx =>
      match denominator alphaC sx k with
      | none => none
      | some denom => objectFrom virComp denom ta4

/-- The three device-specific functions that `PROFILE` names (R13). -/
structure Profile where
  Consts : Type
  decodeCal : List Byte → Consts
  ambient : F64 → Consts → Option F64
  object : Pixel → F64 → F64 → F64 → Consts → Option F64

/-- The default profile (R13). -/
def Profile.mlx90621 : Profile where
  Consts := CalConsts
  decodeCal := Sys2Proof.Machine.decodeCal
  ambient := Sys2Proof.Machine.ambient
  object := Sys2Proof.Machine.object

/-- "must give Domain rather than NaN" (R259); an infinity is a non-finite intermediate, so Domain as well (R19; log entry 16). -/
def finiteOrDomain (r : Option F64) : Option F64 := r.filter Fp.isFinite

/-- A profile the spec does not define: its functions are free, within what R259 asks of them. -/
def Profile.other (id : Nat) : Profile where
  Consts := List F64
  decodeCal := Config.otherDecodeCal id
  ambient := fun ptat k => finiteOrDomain (Config.otherAmbient id ptat k)
  object := fun p vir vcp ta k => finiteOrDomain (Config.otherObject id p vir vcp ta k)

/-- The functions of a profile. -/
def profileOf : ProfileId → Profile
  | .mlx90621 => Profile.mlx90621
  | .other id => Profile.other id

/-- `clamp(r)` (R246). -/
def clamp : Option F64 → F64
  | none => Config.tMin
  | some r => if Fp.lt r Config.tMin then Config.tMin else if Fp.lt Config.tMax r then Config.tMax else r

/-- `round_ties_even(v *. 10.0)` as an s16 pattern (R252). -/
def toFixed (v : F64) : HalfWord := BitVec.ofInt 16 (Fp.roundTiesEven (Fp.mul v (Fp.ofInt 10)))

/-- Host raster index of a device pixel (R198, R250). -/
def rasterIndex (p : Pixel) : Pixel := ⟨p.val % 4 * 16 + p.val / 4, by omega⟩

/-- Device pixel of a host raster index (R250). -/
def devicePixel (k : Pixel) : Pixel := ⟨k.val % 16 * 4 + k.val / 16, by omega⟩

/-- `W[t]`. A raw frame has `FRAME_WORDS ≥ 66` words (R11, R191), so the value past the end is never read. -/
def rawWord (w : List HalfWord) (t : Nat) : HalfWord := w.getD t 0#16

/-- `VIR_RAW[p]`, signed (R196). -/
def virRaw (w : List HalfWord) (p : Pixel) : F64 := Fp.ofInt (sext16 (rawWord w p.val))

/-- `PTAT`, unsigned (R196). -/
def ptatRaw (w : List HalfWord) : F64 := Fp.ofInt (zext16 (rawWord w 64))

/-- `VCP_RAW`, signed (R196). -/
def vcpRaw (w : List HalfWord) : F64 := Fp.ofInt (sext16 (rawWord w 65))

/-- The value of one device pixel, one lane of `compensate` (R211, R214, R256). -/
def lane (P : Profile) (ta : Option F64) (w : List HalfWord) (k : P.Consts) (p : Pixel) : F64 :=
  match ta with
  | none => Config.tMin
  | some t => clamp (P.object p (virRaw w p) (vcpRaw w) t k)

/-- The float grid of `compensate` (R211, R250, R253). -/
def floatGrid (P : Profile) (w : List HalfWord) (image : List Byte) : Grid F64 :=
  let k := P.decodeCal image
  let ta := P.ambient (ptatRaw w) k
  tabulate (fun idx => lane P ta w k (devicePixel idx))

/-- `compensate(W, E) -> (GI', GF')` (R210, R211). -/
def compensate (P : Profile) (w : List HalfWord) (image : List Byte) : Grid HalfWord × Grid F64 :=
  let gf := floatGrid P w image
  (tabulate (fun idx => toFixed gf[idx]), gf)

end Sys2Proof.Machine
end

