-- ==== Sys2Proof/WellFormed.lean ====
section
/-! DEFINITION. Which terms of `Instr` an encoding stands for (spec/30_encoding.md R90 to R102). -/

namespace Sys2Proof

/-- An offset of the reserved words 0x00C to 0x0FC (R22), aligned (R65). -/
def reservedOffset (a : HostAddr) : Bool :=
  Machine.aligned a && decide (0x00C ≤ a.toNat) && decide (a.toNat ≤ 0x0FC)

/-- The command word of RSV and OPCODE (R92). -/
def commandWord (rsv : BitVec 24) (opcode : BitVec 8) : Word := rsv ++ opcode

/-- A command word that is NOP, INIT or READ (R93). -/
def legalCommand (w : Word) : Bool := w == 0#32 || w == 1#32 || w == 2#32

/-- The checks on an instruction: an illegal command's word is none of the legal ones (R268), a reserved access names a reserved offset (R275), a
configuration write carries a rate byte and `CFG_MSB` with check bytes that follow from them (R97), and a calibration read starts at a chunk (R99). -/
def Instr.wf (p : Params) : Instr → Bool
  | .nop => true
  | .init => true
  | .read => true
  | .illegalCmd rsv opcode => !legalCommand (commandWord rsv opcode)
  | .wrConfig _ => true
  | .rdConfig => true
  | .wrCmd _ => true
  | .rdCmd => true
  | .wrStatus _ => true
  | .rdStatus => true
  | .rdInt _ => true
  | .rdFlo _ => true
  | .rdFhi _ => true
  | .wrInt _ _ => true
  | .wrFlt _ _ _ => true
  | .rdRsv addr => reservedOffset addr
  | .wrRsv addr _ => reservedOffset addr
  | .cfgWrite low high => Machine.isRateByte low && high == p.cfgMsb
  | .eeRead off => (List.range p.nChunk).any (fun j => off == Machine.eeOffset p j)
  | .ramReadFrame => true

end Sys2Proof
end

