-- ==== Sys2Proof/Decode.lean ====
section
/-! DEFINITION. Decoding command words (R92 to R94), host access records (R90, R91) and device frames (R96 to R102), total on any bits and
rejecting by name; then the encoder, from the same tables of spec/30_encoding.md; then the assembler of R104 and R105. -/

namespace Sys2Proof

/-- Why a record is no instruction. -/
inductive DecodeError where
  /-- `ADDR[1:0] ≠ 0b00` (R91) -/
  | misaligned
  /-- a read record with DATA ≠ 0 (R91) -/
  | readWithData
  /-- a device frame the block never emits (R101) -/
  | frameNotEmitted
  deriving DecidableEq, Repr

/-- The command opcode map (R93): every word decodes, those of the reserved space to ILLEGAL_CMD. -/
def decodeCommand (w : Word) : Instr :=
  if w = 0#32 then .nop
  else if w = 1#32 then .init
  else if w = 2#32 then .read
  else .illegalCmd (w.extractLsb' 8 24) (w.extractLsb' 0 8)

/-- WE of an access record (R90). -/
def recWrite (r : BitVec 43) : Bool := r.getLsbD 42

/-- ADDR of an access record (R90). -/
def recAddr (r : BitVec 43) : HostAddr := r.extractLsb' 32 10

/-- DATA of an access record (R90). -/
def recData (r : BitVec 43) : Word := r.extractLsb' 0 32

/-- The write operation an aligned offset selects (R63, R275). -/
def decodeWrite (a : HostAddr) (data : Word) : Instr :=
  if a = Machine.addrConfig then .wrConfig data
  else if a = Machine.addrCmd then .wrCmd data
  else if a = Machine.addrStatus then .wrStatus data
  else if a.getLsbD 9 then .wrFlt (Machine.fltIndex a) (Machine.fltHigh a) data
  else if a.getLsbD 8 then .wrInt (Machine.intIndex a) data
  else .wrRsv a data

/-- The read operation an aligned offset selects (R62, R272 to R275). -/
def decodeRead (a : HostAddr) : Instr :=
  if a = Machine.addrConfig then .rdConfig
  else if a = Machine.addrCmd then .rdCmd
  else if a = Machine.addrStatus then .rdStatus
  else if a.getLsbD 9 then
    if Machine.fltHigh a then .rdFhi (Machine.fltIndex a) else .rdFlo (Machine.fltIndex a)
  else if a.getLsbD 8 then .rdInt (Machine.intIndex a)
  else .rdRsv a

/-- Decoding a HA record (R91): misaligned first, then a read with data, then WE and ADDR select the operation. -/
def decodeAccess (r : BitVec 43) : Except DecodeError Instr :=
  if !Machine.aligned (recAddr r) then .error .misaligned
  else if recWrite r then .ok (decodeWrite (recAddr r) (recData r))
  else if recData r = 0#32 then .ok (decodeRead (recAddr r))
  else .error .readWithData

/-- Decoding a device frame: the three the block emits (R97, R99, R100, R101). -/
def decodeFrame (p : Params) : BusFrame → Except DecodeError Instr
  | .write dev [b0, b1, b2, b3, b4] =>
    if dev = p.devRam ∧ b0 = 0x03#8 ∧ b1 = Machine.checkByte b2 ∧ b3 = Machine.checkByte b4 ∧ Instr.wf p (.cfgWrite b2 b4) = true then
      .ok (.cfgWrite b2 b4)
    else .error .frameNotEmitted
  | .read dev [off] n =>
    if dev = p.devEe ∧ n = p.calChunk ∧ Instr.wf p (.eeRead off) = true then .ok (.eeRead off) else .error .frameNotEmitted
  | .read dev [b0, b1, b2, b3] n =>
    if dev = p.devRam ∧ b0 = 0x02#8 ∧ b1 = 0x00#8 ∧ b2 = 0x01#8 ∧ b3 = BitVec.ofNat 8 p.frameWords ∧ n = 2 * p.frameWords then
      .ok .ramReadFrame
    else .error .frameNotEmitted
  | _ => .error .frameNotEmitted

/-- The decoder, on any encoded operation. -/
def decode (p : Params) : Code → Except DecodeError Instr
  | .cw w => .ok (decodeCommand w)
  | .ha r => decodeAccess r
  | .bus f => decodeFrame p f

/-- The instruction decoded from a word of spec/opcode_table.json: rows of 32 bits are command words (CW), wider ones access records (HA, 43 bits).
The table gives the device frames no bits. A word with bits beyond its format is refused: DESIGN CHOICE, log entry 13. -/
def decodeTableWord (nbits w : Nat) : Option Instr :=
  if nbits ≤ 32 then (if w < 2 ^ 32 then some (decodeCommand (BitVec.ofNat 32 w)) else none)
  else if w < 2 ^ 43 then (decodeAccess (BitVec.ofNat 43 w)).toOption
  else none

/-- The record `{WE, ADDR, DATA}` (R90, R106). -/
def accessRecord (write : Bool) (a : HostAddr) (data : Word) : BitVec 43 := BitVec.ofBool write ++ a ++ data

/-- `TxWrite` of the configuration command (R97). -/
def cfgWriteFrame (p : Params) (low high : Byte) : BusFrame :=
  .write p.devRam [0x03#8, Machine.checkByte low, low, Machine.checkByte high, high]

/-- `TxRead` of a calibration chunk (R99). -/
def eeReadFrame (p : Params) (off : Byte) : BusFrame := .read p.devEe [off] p.calChunk

/-- `TxRead` of one frame (R100). -/
def ramReadFrameFrame (p : Params) : BusFrame :=
  .read p.devRam [0x02#8, 0x00#8, 0x01#8, BitVec.ofNat 8 p.frameWords] (2 * p.frameWords)

/-- The encoder, from the tables of spec/30_encoding.md. -/
def encode (p : Params) : Instr → Code
  | .nop => .cw 0#32
  | .init => .cw 1#32
  | .read => .cw 2#32
  | .illegalCmd rsv opcode => .cw (commandWord rsv opcode)
  | .wrConfig data => .ha (accessRecord true Machine.addrConfig data)
  | .rdConfig => .ha (accessRecord false Machine.addrConfig 0#32)
  | .wrCmd data => .ha (accessRecord true Machine.addrCmd data)
  | .rdCmd => .ha (accessRecord false Machine.addrCmd 0#32)
  | .wrStatus data => .ha (accessRecord true Machine.addrStatus data)
  | .rdStatus => .ha (accessRecord false Machine.addrStatus 0#32)
  | .rdInt k => .ha (accessRecord false (Machine.addrInt k) 0#32)
  | .rdFlo k => .ha (accessRecord false (Machine.addrFlt k false) 0#32)
  | .rdFhi k => .ha (accessRecord false (Machine.addrFlt k true) 0#32)
  | .wrInt k data => .ha (accessRecord true (Machine.addrInt k) data)
  | .wrFlt k high data => .ha (accessRecord true (Machine.addrFlt k high) data)
  | .rdRsv addr => .ha (accessRecord false addr 0#32)
  | .wrRsv addr data => .ha (accessRecord true addr data)
  | .cfgWrite low high => .bus (cfgWriteFrame p low high)
  | .eeRead off => .bus (eeReadFrame p off)
  | .ramReadFrame => .bus (ramReadFrameFrame p)

/-- The offset of a register operand (R22, R104). -/
def HostReg.addr : HostReg → HostAddr
  | .config => Machine.addrConfig
  | .cmd => Machine.addrCmd
  | .status => Machine.addrStatus
  | .int k => Machine.addrInt (BitVec.ofNat 6 k)
  | .flo k => Machine.addrFlt (BitVec.ofNat 6 k) false
  | .fhi k => Machine.addrFlt (BitVec.ofNat 6 k) true
  | .offset a => a

/-- `wr <reg>, <imm>` (R104). -/
def lineWrite (reg : HostReg) (imm : Word) : HostLine := .access (accessRecord true reg.addr imm)

/-- `rd <reg>` (R104). -/
def lineRead (reg : HostReg) : HostLine := .access (accessRecord false reg.addr 0#32)

/-- How many host lines a source line expands to (R105). -/
def AsmLine.size : AsmLine → Nat
  | .label _ => 0
  | .grid _ => 3
  | _ => 1

/-- The line number of a label, counting from `at_`; none where no line bears it. R104 does not say which line a label names when two bear it: the
first one, DESIGN CHOICE, log entry 22. -/
def labelLine (name : Nat) : List AsmLine → Nat → Option Nat
  | [], _ => none
  | .label l :: rest, at_ => if l = name then some at_ else labelLine name rest at_
  | line :: rest, at_ => labelLine name rest (at_ + line.size)

/-- The host lines of a source line that stands at line number `at_` of the program (R104, R105). -/
def expandLine (all : List AsmLine) (at_ : Nat) : AsmLine → Option (List HostLine)
  | .wr reg imm => some [lineWrite reg imm]
  | .rd reg => some [lineRead reg]
  | .label _ => some []
  | .bnz reg mask name => (labelLine name all 0).map (fun t => [.branch reg.addr mask t])
  | .nop => some [lineWrite .cmd 0#32]
  | .init => some [lineWrite .cmd 1#32]
  | .read => some [lineWrite .cmd 2#32]
  | .rate n => some [lineWrite .config n]
  | .wait => some [.branch Machine.addrStatus 1#32 at_]
  | .grid k => some [lineRead (.int k), lineRead (.flo k), lineRead (.fhi k)]

/-- The host lines of the rest of a program whose first line stands at `at_`. -/
def assembleFrom (all : List AsmLine) : List AsmLine → Nat → Option (List HostLine)
  | [], _ => some []
  | line :: rest, at_ =>
    match expandLine all at_ line, assembleFrom all rest (at_ + line.size) with
    | some here, some there => some (here ++ there)
    | _, _ => none

/-- A HOST program as lines the HOST agent runs; none where a branch names no label (R104). -/
def assemble (prog : List AsmLine) : Option (List HostLine) := assembleFrom prog prog 0

/-- The oracle's choice a `dev` line writes (R104). The bytes of `dev short(<m>)` are not given: they are free. -/
def DevLine.answer : DevLine → DevAnswer
  | .ok => .ok []
  | .fail => .fail
  | .bytes bs => .ok bs
  | .short m => .ok ((List.range m).map (Config.shortByte m))

end Sys2Proof
end

