-- ==== Sys2Proof/Machine/State.lean ====
section
/-! DEFINITION. The state of the block (spec/10_state.md R20 to R41), of the HOST agent that drives it and of the inputs it is open to, as plain
data; the reasons a step can be refused; and the state after reset (R41, R320). -/

namespace Sys2Proof.Machine

/-- `st.PHASE`: the position in a command (R21). -/
inductive Phase where
  | idle
  | initRate
  | initCal (j : Nat)
  | readFrame
  | readComp
  deriving DecidableEq, Repr

/-- `st.ACTIVE`: which command is executing (R37). -/
inductive Active where
  | none
  | init
  | read
  deriving DecidableEq, Repr

/-- The result codes of STATUS.ERR (R290). Codes 6 to 15 are never written (93_implementation_defined.md I14). -/
inductive Err where
  | ok
  | transport
  | calDecode
  | unsupportedRate
  | notInitialized
  | illegalCmd
  deriving DecidableEq, Repr

/-- A device-bus transaction that took place, with the DEVICE's answer. -/
structure BusEvent where
  frame : BusFrame
  answer : DevAnswer
  deriving DecidableEq, Repr

/-- An entry of the DEVICE's script: an answer to the next transaction, or none at all, for ever (93_implementation_defined.md I11, I13; log
entries 5 and 6). -/
inductive DevScript where
  | answer (a : DevAnswer)
  | withhold
  deriving DecidableEq, Repr

/-- The state. The first group is what the host reads in registers, the second what the block hides (R38), the third
the agents around the block (log entry 8). -/
structure State where
  /-- the open parameters (R11); no step changes them -/
  params : Params
  /-- CONFIG.RATE_SEL (R23) -/
  rateSel : BitVec 4
  /-- STATUS.BUSY (R28) -/
  busy : Bool
  /-- STATUS.READY (R29) -/
  ready : Bool
  /-- STATUS.GRID_VALID (R30) -/
  gridValid : Bool
  /-- STATUS.ERR (R31) -/
  err : Err
  /-- `st.GI`: the integer grid, °C × 10, as s16 patterns (R36) -/
  gi : Grid HalfWord
  /-- `st.GF`: the float grid, °C, as binary64 patterns (R36) -/
  gf : Grid F64
  /-- `st.PHASE` (R21) -/
  phase : Phase
  /-- `st.ACTIVE` (R37) -/
  active : Active
  /-- `st.CAL`: the calibration image, absent or `CAL_BYTES` bytes (R33) -/
  cal : Option (List Byte)
  /-- `st.CAL_STAGE`: the staging buffer, `CAL_BYTES` bytes (R34) -/
  calStage : List Byte
  /-- `st.RAW`: the raw frame buffer, `FRAME_WORDS` words (R35) -/
  raw : List HalfWord
  /-- MODEL's own: the word the last host read returned (R62) -/
  readData : Word
  /-- MODEL's own: the HOST agent's program (R104) -/
  program : List HostLine
  /-- MODEL's own: the line the HOST agent runs next -/
  line : Nat
  /-- MODEL's own: the turns to come (R74); free once the list is empty -/
  schedule : List Turn
  /-- MODEL's own: the DEVICE's answers to come (R5); free once the list is empty -/
  answers : List DevScript
  /-- MODEL's own: the device-bus transactions so far, latest first (R79) -/
  trace : List BusEvent
  /-- MODEL's own: how many free values have been drawn -/
  draws : Nat
  deriving DecidableEq, Repr

/-- Reasons to stop with a fault: there are none. The block has no traps (R291) and no fatal condition (R301); every aligned access decodes (R91);
a DEVICE that never answers leaves the ENGINE waiting, which is no stop of the machine (93_implementation_defined.md I13; log entries 5 and 17). -/
inductive Fault where
  deriving DecidableEq, Repr

/-- Reasons a step is refused: the model admits no such step. -/
inductive Refusal where
  /-- raised by `exec` for an instruction without a meaning; no arm raises it. Safe: nothing is claimed of such a step. -/
  | notModelled (mnemonic : String)
  /-- raised by the HOST's step for an access with `a mod 4 ≠ 0` (R65, R91, I4). Safe: the spec admits no such step. -/
  | misaligned
  /-- raised by the HOST's step for a read record with DATA ≠ 0 (R91). Safe: the record is ill-formed. -/
  | readWithData
  /-- raised by the HOST's step for an access of 8, 16 or 64 bits (R65, I4). Safe: the spec admits no such step. -/
  | badWidth
  /-- raised by the meaning of a device transaction in a state where ENGINE does not emit that frame (R79, R101; log entry 14). Safe: there is no such step. -/
  | notIssued
  deriving DecidableEq, Repr

/-- Everything of the block at its reset value (R41, R320): a command in progress is abandoned, and the agents around the block are as they were
(log entry 9).
`st.CAL_STAGE` and `st.RAW` have no reset value in the spec: zeros, DESIGN CHOICE (log entries 1 and 2). -/
def State.resetBlock (s : State) : State :=
  { s with
    rateSel := Config.resetRateSel
    busy := false
    ready := false
    gridValid := false
    err := .ok
    gi := tabulate (fun _ => 0#16)
    gf := tabulate (fun _ => 0#64)
    phase := .idle
    active := .none
    cal := none
    calStage := List.replicate s.params.calBytes 0#8
    raw := List.replicate s.params.frameWords 0#16 }

/-- The state after reset of a block with parameters `p` (R41), no program loaded and nothing scripted. -/
def State.resetWith (p : Params) : State where
  params := p
  rateSel := Config.resetRateSel
  busy := false
  ready := false
  gridValid := false
  err := .ok
  gi := tabulate (fun _ => 0#16)
  gf := tabulate (fun _ => 0#64)
  phase := .idle
  active := .none
  cal := none
  calStage := List.replicate p.calBytes 0#8
  raw := List.replicate p.frameWords 0#16
  readData := 0#32
  program := []
  line := 0
  schedule := []
  answers := []
  trace := []
  draws := 0

/-- The state after reset, with the default parameters (R11, R41). -/
def State.reset : State := State.resetWith Params.default

end Sys2Proof.Machine
end

