-- ==== Sys2Proof/Machine/Flags.lean ====
section
/-! DEFINITION. The STATUS register and its fields (spec/10_state.md R25, R28 to R32; spec/60_exceptions.md R290). The block has no arithmetic
condition codes: its flags are the STATUS bits. -/

namespace Sys2Proof.Machine

/-- The numeric codes of STATUS.ERR (R290). -/
def errCode : Err → BitVec 4
  | .ok => 0#4
  | .transport => 1#4
  | .calDecode => 2#4
  | .unsupportedRate => 3#4
  | .notInitialized => 4#4
  | .illegalCmd => 5#4

/-- STATUS.RATE_OK: the selector is supported (R151). -/
def rateOk (sel : BitVec 4) : Bool := rateSupported sel

/-- STATUS.RATE_CODE: the rate byte of a supported selector, else 0x00 (R151). -/
def rateCode (sel : BitVec 4) : Byte := (rateByte sel).getD 0x00#8

/-- The STATUS word (R25, R62): RATE_OK at bit 24, RATE_CODE at [23:16], ERR at [11:8], GRID_VALID, READY and BUSY at bits 2, 1 and 0. -/
def statusWord (s : State) : Word :=
  0#7 ++ BitVec.ofBool (rateOk s.rateSel) ++ rateCode s.rateSel ++ 0#4 ++ errCode s.err ++ 0#5 ++
    BitVec.ofBool s.gridValid ++ BitVec.ofBool s.ready ++ BitVec.ofBool s.busy

/-- The CONFIG word (R23, R62). -/
def configWord (s : State) : Word := 0#28 ++ s.rateSel

end Sys2Proof.Machine
end

