-- ==== Sys2Proof/Machine/Ops.lean ====
section
/-! DEFINITION. The named operations over the block's registers and buffers: the host register space (spec/20_memory.md R62, R63), the start and the
end of a command (R171, R262, R18, R177), device transactions with the oracle's answer (R5, R16, R70), the actions of the phases
(R157, R121, R191) and the commit (R266). The block has no traps (R291): `finish` and the failures beside it are how every error is reported. -/

namespace Sys2Proof.Machine

/-! ### Host register space -/

/-- `MemRead(a, 4)` (R62), for an aligned offset. Within a grid word the word index is read from ADDR (R103). -/
def memRead (s : State) (a : HostAddr) : Word :=
  if a = addrConfig then configWord s
  else if a = addrCmd then 0x00000000#32
  else if a = addrStatus then statusWord s
  else if a.getLsbD 9 then
    if fltHigh a then (gridAt s.gf (fltIndex a)).extractLsb' 32 32 else (gridAt s.gf (fltIndex a)).extractLsb' 0 32
  else if a.getLsbD 8 then (gridAt s.gi (intIndex a)).signExtend 32
  else 0x00000000#32

/-- A host read: the word goes to the HOST and nothing else changes (R62). -/
def hostRead (a : HostAddr) (s : State) : Host.Outcome State Fault Refusal :=
  .next { s with readData := memRead s a }

/-- A host write to a word that ignores writes (R63, R275). -/
def hostWriteIgnored (s : State) : Host.Outcome State Fault Refusal := .next s

/-- A write that the block ignores entirely while BUSY = 1 (R161, R261). -/
def unlessBusy (effect : State → State) (s : State) : Host.Outcome State Fault Refusal :=
  .next (if s.busy then s else effect s)

/-- The effect of an accepted CONFIG write (R155). -/
def acceptConfig (data : Word) (s : State) : State :=
  { s with rateSel := data.extractLsb' 0 4, ready := false }

/-! ### Start and end of a command -/

/-- A command begins: BUSY, ACTIVE and the first PHASE in one step (R171, R263). -/
def begin_ (a : Active) (ph : Phase) (s : State) : State :=
  { s with active := a, phase := ph, busy := true }

/-- `INIT_accept` (R171). -/
def initAccept (s : State) : State := { begin_ .init .initRate s with ready := false }

/-- `READ_accept` (R262, R263): refused with NOT_INITIALIZED when not ready. -/
def readAccept (s : State) : State :=
  if s.ready then begin_ .read .readFrame s else { s with err := .notInitialized }

/-- `illegal` (R268). -/
def illegal (s : State) : State := { s with err := .illegalCmd }

/-- `finish(code)`: a command ends with a result code (R18, R291). -/
def finish (e : Err) (s : State) : State :=
  { s with err := e, busy := false, phase := .idle, active := .none }

/-- The contents of the staging buffer once no INIT runs: any value (R34, 93_implementation_defined.md I9). FREE VALUE, log entry 4. -/
def freeStage (s : State) : State :=
  { s with calStage := (List.range s.params.calBytes).map (Config.stageByte s.draws), draws := s.draws + 1 }

/-- The contents of the raw frame buffer after a failed frame read: any value (R194, 93_implementation_defined.md I10). FREE VALUE, log entry 3. -/
def freeRaw (s : State) : State :=
  { s with raw := (List.range s.params.frameWords).map (Config.rawWord s.draws), draws := s.draws + 1 }

/-- `init_fail(code)` (R177). -/
def initFail (e : Err) (s : State) : State := freeStage { finish e s with ready := false }

/-- `init_done()` (R176). -/
def initDone (s : State) : State := freeStage { finish .ok s with cal := some s.calStage, ready := true }

/-- A failed frame read ends READ; READY, the grids and GRID_VALID stay (R264). -/
def readFail (s : State) : State := freeRaw (finish .transport s)

/-- `commit(GI', GF')`: both grids in one step (R266). -/
def commit (g : Grid HalfWord × Grid F64) (s : State) : State :=
  { finish .ok s with gi := g.1, gf := g.2, gridValid := true }

/-- Phase READ_COMP (R265). READ runs only while READY, and READY has an image (R33, R39): an absent image is never read
(log entry 19). -/
def readComp (s : State) : State :=
  commit (compensate (profileOf s.params.profile) s.raw (s.cal.getD [])) s

/-! ### Device transactions -/

/-- What ENGINE does with the answer to the transaction `f`. The scripted answer is taken if there is one; a script that withholds it leaves the ENGINE
waiting, with nothing changed (93_implementation_defined.md I13; log entry 5); with no script left the answer is free (R5; log entry 6). One atomic step
(R70). -/
def transact (f : BusFrame) (continue_ : DevAnswer → State → State) (s : State) : Host.Outcome State Fault Refusal :=
  match s.answers with
  | .answer a :: rest => .next (continue_ a { s with answers := rest, trace := ⟨f, a⟩ :: s.trace })
  | .withhold :: _ => .next s
  | [] =>
    let a := Config.deviceAnswer s.draws f
    .next (continue_ a { s with draws := s.draws + 1, trace := ⟨f, a⟩ :: s.trace })

/-- The transaction ENGINE emits in the present phase (R79): none while idle, for an unsupported rate (R172), or when computing (R265). -/
def issued (s : State) : Option Instr :=
  match s.phase with
  | .idle => none
  | .initRate => (rateByte s.rateSel).map (fun low => .cfgWrite low s.params.cfgMsb)
  | .initCal j => some (.eeRead (eeOffset s.params j))
  | .readFrame => some .ramReadFrame
  | .readComp => none

/-- The result of `program_rate()` (R157) and the rest of phase INIT_RATE (R172 to R174). -/
def afterCfgWrite (a : DevAnswer) (s : State) : State :=
  match a with
  | .fail => initFail .transport s
  | .ok _ => { s with phase := .initCal 0 }

/-- `cal_chunk(j)`: the staging buffer with chunk `j` filled in, or the error (R121 to R123). -/
def calChunk (p : Params) (j : Nat) (a : DevAnswer) (stage : List Byte) : Except Err (List Byte) :=
  match a with
  | .fail => .error .transport
  | .ok bytes =>
    if bytes.length ≠ p.calChunk then .error .calDecode
    else .ok (stage.take (j * p.calChunk) ++ bytes ++ stage.drop (j * p.calChunk + p.calChunk))

/-- The chunk that phase INIT_CAL(j) reads. -/
def chunkIndex (s : State) : Nat :=
  match s.phase with
  | .initCal j => j
  | _ => 0

/-- Phase INIT_CAL(j) with the answer (R175, R176). -/
def afterEeRead (a : DevAnswer) (s : State) : State :=
  match calChunk s.params (chunkIndex s) a s.calStage with
  | .error e => initFail e s
  | .ok stage =>
    if chunkIndex s + 1 < s.params.nChunk then { s with calStage := stage, phase := .initCal (chunkIndex s + 1) }
    else initDone { s with calStage := stage }

/-- The words of a frame reply: `le16` of byte pairs (R193). -/
def frameWordsOf (n : Nat) (bytes : List Byte) : List HalfWord :=
  (List.range n).map (fun t => le16 (bytes.getD (2 * t) 0#8) (bytes.getD (2 * t + 1) 0#8))

/-- `read_frame()`: the raw words, or TRANSPORT for a failed transaction or a reply of another length (R191, R192). -/
def readFrame (p : Params) (a : DevAnswer) : Except Err (List HalfWord) :=
  match a with
  | .fail => .error .transport
  | .ok bytes => if bytes.length ≠ 2 * p.frameWords then .error .transport else .ok (frameWordsOf p.frameWords bytes)

/-- Phase READ_FRAME with the answer (R264). -/
def afterRamReadFrame (a : DevAnswer) (s : State) : State :=
  match readFrame s.params a with
  | .error _ => readFail s
  | .ok words => { s with raw := words, phase := .readComp }

/-- A transaction as an instruction: ENGINE emits it only in the phase it belongs to (R101); elsewhere there is no such step (log
entry 14). -/
def engineTransaction (i : Instr) (f : BusFrame) (continue_ : DevAnswer → State → State) (s : State) : Host.Outcome State Fault Refusal :=
  if issued s = some i then transact f continue_ s else .refused .notIssued

/-- The ENGINE steps without a transaction: an unsupported rate ends INIT (R152, R172), READ_COMP computes and commits (R265), and there is no
step while idle (R75). -/
def engineSilent (s : State) : State :=
  match s.phase with
  | .idle => s
  | .initRate => initFail .unsupportedRate s
  | .initCal _ => s
  | .readFrame => s
  | .readComp => readComp s

end Sys2Proof.Machine
end

