-- ==== Sys2Proof/Machine/Commands.lean ====
section
/-! DEFINITION. The command words (format CW): a CMD write of each (spec/46_sensor_instance.md R260 to R268; spec/43_initialization.md R171). Every one
is ignored while BUSY = 1 (R261). -/

namespace Sys2Proof.Machine

/-- NOP (R267): no state changes, busy or not. -/
def execNop (s : State) : Host.Outcome State Fault Refusal := unlessBusy (fun s => s) s

/-- INIT (R171). -/
def execInit (s : State) : Host.Outcome State Fault Refusal := unlessBusy initAccept s

/-- READ (R262, R263). -/
def execRead (s : State) : Host.Outcome State Fault Refusal := unlessBusy readAccept s

/-- ILLEGAL_CMD (R268), whatever RSV and OPCODE are. -/
def execIllegalCmd (_rsv : BitVec 24) (_opcode : BitVec 8) (s : State) : Host.Outcome State Fault Refusal := unlessBusy illegal s

end Sys2Proof.Machine
end

