-- ==== Sys2Proof/Machine/HostAccess.lean ====
section
/-! DEFINITION. The host accesses (format HA): register writes and reads (spec/42_configuration.md R155, R156; spec/46_sensor_instance.md R260, R272
to R275). -/

namespace Sys2Proof.Machine

/-- WR_CONFIG (R155, R161). -/
def execWrConfig (data : Word) (s : State) : Host.Outcome State Fault Refusal := unlessBusy (acceptConfig data) s

/-- RD_CONFIG (R156). -/
def execRdConfig (s : State) : Host.Outcome State Fault Refusal := hostRead addrConfig s

/-- The effect of a CMD write while BUSY = 0: the dispatch on RSV, then on OPCODE (R260). -/
def commandEffect (data : Word) (s : State) : State :=
  if data.extractLsb' 8 24 ≠ 0#24 then illegal s
  else if data.extractLsb' 0 8 = 0x00#8 then s
  else if data.extractLsb' 0 8 = 0x01#8 then initAccept s
  else if data.extractLsb' 0 8 = 0x02#8 then readAccept s
  else illegal s

/-- WR_CMD (R260, R261). -/
def execWrCmd (data : Word) (s : State) : Host.Outcome State Fault Refusal := unlessBusy (commandEffect data) s

/-- RD_CMD: returns 0 (R24, R275). -/
def execRdCmd (s : State) : Host.Outcome State Fault Refusal := hostRead addrCmd s

/-- WR_STATUS: ignored (R275). -/
def execWrStatus (_data : Word) (s : State) : Host.Outcome State Fault Refusal := hostWriteIgnored s

/-- RD_STATUS (R274). -/
def execRdStatus (s : State) : Host.Outcome State Fault Refusal := hostRead addrStatus s

/-- RD_INT[k] (R272). -/
def execRdInt (k : BitVec 6) (s : State) : Host.Outcome State Fault Refusal := hostRead (addrInt k) s

/-- RD_FLO[k] (R273). -/
def execRdFlo (k : BitVec 6) (s : State) : Host.Outcome State Fault Refusal := hostRead (addrFlt k false) s

/-- RD_FHI[k] (R273). -/
def execRdFhi (k : BitVec 6) (s : State) : Host.Outcome State Fault Refusal := hostRead (addrFlt k true) s

/-- WR_INT: ignored (R275). -/
def execWrInt (_k : BitVec 6) (_data : Word) (s : State) : Host.Outcome State Fault Refusal := hostWriteIgnored s

/-- WR_FLT: ignored (R275). -/
def execWrFlt (_k : BitVec 6) (_high : Bool) (_data : Word) (s : State) : Host.Outcome State Fault Refusal := hostWriteIgnored s

/-- RD_RSV: returns 0 (R62, R275). -/
def execRdRsv (addr : HostAddr) (s : State) : Host.Outcome State Fault Refusal := hostRead addr s

/-- WR_RSV: ignored (R275). -/
def execWrRsv (_addr : HostAddr) (_data : Word) (s : State) : Host.Outcome State Fault Refusal := hostWriteIgnored s

end Sys2Proof.Machine
end

