-- ==== Sys2Proof/Machine/Transactions.lean ====
section
/-! DEFINITION. The device-bus transactions (formats BW and BR), each the one ENGINE step of the phase that emits it (spec/42_configuration.md R157;
spec/41_calibration_store.md R121; spec/44_frame_reader.md R191). -/

namespace Sys2Proof.Machine

/-- CFG_WRITE: phase INIT_RATE with a supported rate (R157, R172 to R174). -/
def execCfgWrite (low high : Byte) (s : State) : Host.Outcome State Fault Refusal :=
  engineTransaction (.cfgWrite low high) (cfgWriteFrame s.params low high) afterCfgWrite s

/-- EE_READ: phase INIT_CAL(j) (R121, R175, R176). -/
def execEeRead (off : Byte) (s : State) : Host.Outcome State Fault Refusal :=
  engineTransaction (.eeRead off) (eeReadFrame s.params off) afterEeRead s

/-- RAM_READ_FRAME: phase READ_FRAME (R191, R264). -/
def execRamReadFrame (s : State) : Host.Outcome State Fault Refusal :=
  engineTransaction .ramReadFrame (ramReadFrameFrame s.params) afterRamReadFrame s

end Sys2Proof.Machine
end

