-- ==== Sys2Proof/Machine/Dispatch.lean ====
section
/-! DEFINITION. One arm per row of spec/opcode_table.json, each one call of that instruction's meaning. -/

namespace Sys2Proof.Machine

def exec (i : Instr) (s : State) : Host.Outcome State Fault Refusal :=
  match i with
  -- command words (format CW)
  | .nop => Sys2Proof.Machine.execNop s
  | .init => Sys2Proof.Machine.execInit s
  | .read => Sys2Proof.Machine.execRead s
  | .illegalCmd rsv opcode => Sys2Proof.Machine.execIllegalCmd rsv opcode s
  -- host accesses (format HA)
  | .wrConfig data => Sys2Proof.Machine.execWrConfig data s
  | .rdConfig => Sys2Proof.Machine.execRdConfig s
  | .wrCmd data => Sys2Proof.Machine.execWrCmd data s
  | .rdCmd => Sys2Proof.Machine.execRdCmd s
  | .wrStatus data => Sys2Proof.Machine.execWrStatus data s
  | .rdStatus => Sys2Proof.Machine.execRdStatus s
  | .rdInt k => Sys2Proof.Machine.execRdInt k s
  | .rdFlo k => Sys2Proof.Machine.execRdFlo k s
  | .rdFhi k => Sys2Proof.Machine.execRdFhi k s
  | .wrInt k data => Sys2Proof.Machine.execWrInt k data s
  | .wrFlt k high data => Sys2Proof.Machine.execWrFlt k high data s
  | .rdRsv addr => Sys2Proof.Machine.execRdRsv addr s
  | .wrRsv addr data => Sys2Proof.Machine.execWrRsv addr data s
  -- device-bus transactions (formats BW and BR)
  | .cfgWrite low high => Sys2Proof.Machine.execCfgWrite low high s
  | .eeRead off => Sys2Proof.Machine.execEeRead off s
  | .ramReadFrame => Sys2Proof.Machine.execRamReadFrame s

end Sys2Proof.Machine
end

