-- ==== Sys2Proof/Machine/Agents.lean ====
section
/-! DEFINITION. The three agents and the scheduler (spec/00_scope.md R4, R5; spec/20_memory.md R74): which turn comes next, the HOST's step (fetch a line
of its program, decode it, run it), the ENGINE's step, and the reset event (R320). -/

namespace Sys2Proof.Machine

/-- Why the model admits no step for a record that does not decode (R65, R91, R101). -/
def refusalOf : DecodeError → Refusal
  | .misaligned => .misaligned
  | .readWithData => .readWithData
  | .frameNotEmitted => .notIssued

/-- The HOST has taken a line of its program. -/
def nextLine (s : State) : State := { s with line := s.line + 1 }

/-- Run what a record decodes to. -/
def runDecoded (d : Except DecodeError Instr) (s : State) : Host.Outcome State Fault Refusal :=
  match d with
  | .ok i => exec i s
  | .error e => .refused (refusalOf e)

/-- Where the HOST goes after the read of a `bnz` (R104). -/
def branchTo (mask : Word) (target : Nat) (s : State) : State :=
  if s.readData &&& mask ≠ 0#32 then { s with line := target } else s

/-- `bnz`: its read is an ordinary `rd` (R104). -/
def runBranch (addr : HostAddr) (mask : Word) (target : Nat) (s : State) : Host.Outcome State Fault Refusal :=
  match runDecoded (decodeAccess (accessRecord false addr 0#32)) s with
  | .next t => .next (branchTo mask target t)
  | .fault r => .fault r
  | .refused r => .refused r

/-- One line of a HOST program. An access of another width than 32 bits is not admitted (R65). -/
def runLine (l : HostLine) (s : State) : Host.Outcome State Fault Refusal :=
  match l with
  | .access r => runDecoded (decodeAccess r) (nextLine s)
  | .command w => exec (decodeCommand w) (nextLine s)
  | .branch addr mask target => runBranch addr mask target (nextLine s)
  | .sized _ _ _ => .refused .badWidth

/-- A HOST step; past the end of its program the HOST does nothing (log entry 8). -/
def hostStep (s : State) : Host.Outcome State Fault Refusal :=
  match s.program[s.line]? with
  | none => .next s
  | some l => runLine l s

/-- An ENGINE step: the action of the present phase (R21, R172, R175, R264, R265). -/
def engineStep (s : State) : Host.Outcome State Fault Refusal :=
  match issued s with
  | some i => exec i s
  | none => .next (engineSilent s)

/-- A transaction that is due and whose answer is withheld is abandoned with its command, and the withheld entry leaves the script, whether or not an
ENGINE turn has come to wait for it (R320, 93_implementation_defined.md I13). Where no transaction is due, the entry stays: it belongs to a later one.
DESIGN CHOICE, log entry 9. -/
def dropWithheld (s : State) : State :=
  match issued s, s.answers with
  | some _, .withhold :: rest => { s with answers := rest }
  | _, _ => s

/-- The platform's reset signal (R320). -/
def resetStep (s : State) : State := (dropWithheld s).resetBlock

/-- The turn that comes next: the scripted one, or a free one (R74; log entry 7). Every interleaving is admitted; `State.fairToEngine` says of a run that
its scheduler is fair to ENGINE (R341). -/
def turn (s : State) : Turn :=
  match s.schedule with
  | t :: _ => t
  | [] => Config.schedule s.draws

/-- The state once that turn is taken from the schedule. -/
def afterTurn (s : State) : State :=
  match s.schedule with
  | _ :: rest => { s with schedule := rest }
  | [] => { s with draws := s.draws + 1 }

/-- One step of the interleaving (R74). -/
def runTurn (t : Turn) (s : State) : Host.Outcome State Fault Refusal :=
  match t with
  | .host => hostStep s
  | .engine => engineStep s
  | .reset => .next (resetStep s)

/-- The HOST line of a table word: a command word up to 32 bits, an access record above (spec/opcode_table.json). Bits of `w` beyond the format, above
bit 31 of a command word or above bit 42 of a record (R106), are dropped. DESIGN CHOICE, log entry 13. -/
def tableLine (nbits w : Nat) : HostLine :=
  if nbits ≤ 32 then .command (BitVec.ofNat 32 w) else .access (BitVec.ofNat 43 w)

/-- A HOST program with `l` at line `n`, and the lines before it as they were (padded, where the program is shorter, with reads of CMD). -/
def placeLine (l : HostLine) (n : Nat) (prog : List HostLine) : List HostLine :=
  prog.take n ++ List.replicate (n - prog.length) (lineRead .cmd) ++ l :: prog.drop (n + 1)

end Sys2Proof.Machine
end

