-- ==== Sys2Proof/Machine/Step.lean ====
section
/-! DEFINITION. One step of the machine, and where it fetches its next instruction. -/

namespace Sys2Proof.Machine

/-- One step: the agent whose turn it is makes its step (R4, R74). -/
def step (s : State) : Host.Outcome State Fault Refusal := runTurn (turn s) (afterTurn s)

/-- `s` with the HOST's turn next and a table word at the line its program fetches: the load of a program from outside (log entry 10). -/
def State.withFetchWord (s : State) (nbits w : Nat) : State :=
  { s with program := placeLine (tableLine nbits w) s.line s.program, schedule := .host :: s.schedule }

end Sys2Proof.Machine
end

