-- ==== Sys2Proof/Machine/FloatValue.lean ====
section
/-! DEFINITION. The number a finite binary64 pattern stands for, and what "rounded to nearest, ties to even" means of it (spec/00_scope.md R14, R17):
the vocabulary of the claims about the block's arithmetic. No step computes with it. -/

namespace Sys2Proof.Machine

/-- `-1` or `1`. -/
def Fp.sign (neg : Bool) : ℚ := if neg then -1 else 1

/-- The number a finite pattern stands for (0 for the others). -/
def Fp.toRat (x : F64) : ℚ :=
  match Fp.unpack x with
  | .fin neg m e => Fp.sign neg * (m * 2 ^ e)
  | _ => 0

/-- From this magnitude on, the nearest-even rounding of a real number is an infinity: half a unit above the largest finite binary64. -/
def Fp.overflow : ℚ := 2 ^ 1024 - 2 ^ 970

/-- `r` is `x` rounded to binary64, to nearest, ties to even (R17): below the overflow threshold no finite value is closer than `r`, and `r` is the even
one (its last bit is 0) when another is equally close; from the threshold on, `r` is the infinity of that sign. -/
def Fp.NearestEven (x : ℝ) (r : F64) : Prop :=
  (|x| < Fp.overflow →
    Fp.isFinite r = true ∧
    (∀ c : F64, Fp.isFinite c = true → |x - Fp.toRat r| ≤ |x - Fp.toRat c|) ∧
    (∀ c : F64, Fp.isFinite c = true → Fp.toRat c ≠ Fp.toRat r → |x - Fp.toRat c| = |x - Fp.toRat r| → r.getLsbD 0 = false)) ∧
  ((Fp.overflow : ℝ) ≤ x → r = Fp.infinity false) ∧
  (x ≤ -(Fp.overflow : ℝ) → r = Fp.infinity true)

end Sys2Proof.Machine
end

