-- ==== Sys2Proof/Safety.lean ====
section
/-! DEFINITION. What holds of every state a run reaches, in the terms the claims use (spec/10_state.md R39, R40; spec/60_exceptions.md R301). -/

namespace Sys2Proof.Machine

/-- The command a phase belongs to (R21, R37). -/
def activeOf : Phase → Active
  | .idle => .none
  | .initRate => .init
  | .initCal _ => .init
  | .readFrame => .read
  | .readComp => .read

/-- A float grid element in the documented range: finite, and neither below T_MIN nor above T_MAX (R39, R255). -/
def inRange (v : F64) : Prop := Fp.isFinite v = true ∧ Fp.lt v Config.tMin = false ∧ Fp.lt Config.tMax v = false

/-- The grids are those of reset (R36, R41). -/
def resetGrids (s : State) : Prop := s.gi = tabulate (fun _ => 0#16) ∧ s.gf = tabulate (fun _ => 0#64)

/-- The grids are those of one frame and one calibration image (R39, statement 5). -/
def gridsOfOneFrame (s : State) : Prop :=
  ∃ w image, w.length = s.params.frameWords ∧ image.length = s.params.calBytes ∧ (s.gi, s.gf) = compensate (profileOf s.params.profile) w image

/-- The invariants of R39, with the shapes of the buffers (R21, R33 to R35) and the rules on READY while a command runs (R29, R262). -/
structure State.Inv (s : State) : Prop where
  paramsWf : s.params.wf = true
  busyIff : s.busy = true ↔ s.phase ≠ .idle
  activeIs : s.active = activeOf s.phase
  readyHasImage : s.ready = true → s.cal ≠ none
  notReadyInInit : s.active = .init → s.ready = false
  readyInRead : s.active = .read → s.ready = true
  imageLength : ∀ image, s.cal = some image → image.length = s.params.calBytes
  stageLength : s.calStage.length = s.params.calBytes
  rawLength : s.raw.length = s.params.frameWords
  chunkInRange : ∀ j, s.phase = .initCal j → j < s.params.nChunk
  supportedInCal : ∀ j, s.phase = .initCal j → rateSupported s.rateSel = true
  gridsAgree : ∀ k : Pixel, s.gi[k] = toFixed s.gf[k]
  gridsInRange : ∀ k : Pixel, inRange s.gf[k]
  gridsWhole : (s.gridValid = false ∧ resetGrids s) ∨ (s.gridValid = true ∧ gridsOfOneFrame s)

/-- A transaction of INIT: the configuration write or a calibration read, and not the frame read, whose command has four bytes (R97 to R100). -/
def isInitFrame : BusFrame → Bool
  | .write _ _ => true
  | .read _ cmd _ => cmd.length == 1

/-- The calibration reads that brought `chunks`, in the order they were issued (R79, R120). -/
def chunkEvents (p : Params) (chunks : List (List Byte)) : List BusEvent :=
  chunks.mapIdx (fun j bytes => ⟨eeReadFrame p (eeOffset p j), .ok bytes⟩)

/-- The last transactions of INIT on the bus are a configuration write that programmed the present RATE_SEL and succeeded, and after it successful
calibration reads of `chunks`, each of `CAL_CHUNK` bytes (R170, R178). -/
def State.lastInit (s : State) (chunks : List (List Byte)) : Prop :=
  (∀ c ∈ chunks, c.length = s.params.calChunk) ∧
  ∃ low bytes before, rateByte s.rateSel = some low ∧
    s.trace.filter (fun e => isInitFrame e.frame) =
      (chunkEvents s.params chunks).reverse ++ ⟨cfgWriteFrame s.params low s.params.cfgMsb, .ok bytes⟩ :: before

/-- R40: while READY, `st.CAL` is the image that the last INIT read and RATE_SEL the selector it programmed; while INIT reads chunk `j`, the staging
buffer begins with the chunks before it. -/
structure State.InitHistory (s : State) : Prop where
  whileReady : s.ready = true → ∃ chunks, chunks.length = s.params.nChunk ∧ s.lastInit chunks ∧ s.cal = some chunks.flatten
  whileReading : ∀ j, s.phase = .initCal j →
    ∃ chunks, chunks.length = j ∧ s.lastInit chunks ∧ s.calStage.take (j * s.params.calChunk) = chunks.flatten

/-- The scheduler is fair to ENGINE (R341): from no point of the run from `s` on do HOST turns come for ever while BUSY = 1. -/
def State.fairToEngine (s : State) : Prop :=
  ∀ n t, Sys2Proof.core.run n s = .next t → ∃ m, ¬ ∃ u, Sys2Proof.core.run m t = .next u ∧ u.busy = true ∧ turn u = .host

/-- How many of the first `n` steps of the run from `s` are ENGINE's (R334). -/
def State.engineTurns (s : State) : Nat → Nat
  | 0 => 0
  | n + 1 =>
    (if turn s = .engine then 1 else 0) +
      match step s with
      | .next t => t.engineTurns n
      | _ => 0

/-- The script of the DEVICE withholds no answer (R334, 93_implementation_defined.md I13). -/
def State.deviceAnswers (s : State) : Prop := DevScript.withhold ∉ s.answers

end Sys2Proof.Machine
end

