-- ==== Sys2Proof/Certificates/Slice0/Obligations.lean ====
section
/-! DEFINITION. The statements about the block, for the provers: each docstring names the rule it formalises, or says that it is the model's. -/

open Sys2Proof Sys2Proof.Machine

/-! ### Encodings -/

/-- Model: for every well-formed instruction, decoding its encoding gives it back, every operand at every value (30_encoding.md). -/
def Obligations.DecodeOfEncode : Prop :=
  ∀ (p : Params) (i : Instr), p.wf = true → i.wf p = true → decode p (encode p i) = .ok i

/-- Model: what decodes is well formed, and its encoding is the record it was decoded from, so no two records decode to one instruction. -/
def Obligations.EncodeOfDecode : Prop :=
  ∀ (p : Params) (c : Code) (i : Instr), decode p c = .ok i → i.wf p = true ∧ encode p i = c

/-- R91, R63: a misaligned record and a read record with DATA are refused. Every other record decodes to an operation, and it does what R91 says: a
read returns `MemRead(ADDR, 4)`; a write is the CONFIG write at 0x000, the CMD write at 0x004, and changes nothing at every other offset. -/
def Obligations.AccessRecordsDecode : Prop :=
  ∀ (write : Bool) (a : HostAddr) (data : Word),
    (a.toNat % 4 ≠ 0 → decodeAccess (accessRecord write a data) = .error .misaligned) ∧
    (a.toNat % 4 = 0 → write = false → data ≠ 0#32 → decodeAccess (accessRecord write a data) = .error .readWithData) ∧
    (a.toNat % 4 = 0 → write = true ∨ data = 0#32 → ∃ i, decodeAccess (accessRecord write a data) = .ok i ∧
      (write = false → ∀ s : State, exec i s = .next { s with readData := memRead s a }) ∧
      (write = true → (a = 0x000#10 → i = .wrConfig data) ∧ (a = 0x004#10 → i = .wrCmd data) ∧
        (a ≠ 0x000#10 → a ≠ 0x004#10 → ∀ s : State, exec i s = .next s)))

/-- R93: the command opcode map, with its reserved space and RSV. -/
def Obligations.CommandOpcodeMap : Prop :=
  decodeCommand 0x00000000#32 = .nop ∧ decodeCommand 0x00000001#32 = .init ∧ decodeCommand 0x00000002#32 = .read ∧
  ∀ (rsv : BitVec 24) (opcode : BitVec 8), rsv ≠ 0#24 ∨ 3 ≤ opcode.toNat → decodeCommand (rsv ++ opcode) = .illegalCmd rsv opcode

/-- Sanity: words written out from the encodings (R93, R106, 95_test_vectors.md V-HOST-1) decode to what they stand for, and the device frames of
V-CFG-1, R99 and R100. -/
def Obligations.SampleWordsDecode : Prop :=
  decodeTableWord 48 0x40400000001 = some (.wrCmd 1#32) ∧ decodeTableWord 48 0x00800000000 = some .rdStatus ∧
  decodeTableWord 48 0x1FC00000000 = some (.rdInt 63#6) ∧ decodeTableWord 48 0x3FC00000000 = some (.rdFhi 63#6) ∧
  decodeTableWord 48 0x0C000000000 = some (.rdRsv 0x0C0#10) ∧ decodeTableWord 32 0x101 = some (.illegalCmd 1#24 1#8) ∧
  decode Params.default (.bus (.write 0x60#7 [0x03#8, 0xE9#8, 0x3E#8, 0xF1#8, 0x46#8])) = .ok (.cfgWrite 0x3E#8 0x46#8) ∧
  decode Params.default (.bus (.read 0x50#7 [0x00#8] 256)) = .ok (.eeRead 0x00#8) ∧
  decode Params.default (.bus (.read 0x60#7 [0x02#8, 0x00#8, 0x01#8, 0x42#8] 132)) = .ok .ramReadFrame

/-- R151, R153: the rate bytes of the supported selectors are `0x30 | (15 − s)` and distinct; an unsupported selector has none. -/
def Obligations.RateBytesDistinct : Prop :=
  (∀ s : BitVec 4, s.toNat ≤ 10 → ∃ b, rateByte s = some b ∧ b.toNat = 0x30 ||| (15 - s.toNat)) ∧
  (∀ s : BitVec 4, 11 ≤ s.toNat → rateByte s = none) ∧
  (∀ s s' b, rateByte s = some b → rateByte s' = some b → s = s')

/-! ### The step -/

/-- Model: a HOST turn runs the instruction that the access record, or the command word (R105), at the HOST's line decodes to, the HOST having moved to
its next line. -/
def Obligations.StepRunsDecodedInstruction : Prop :=
  ∀ (s : State) (rest : List Turn), s.schedule = .host :: rest →
    (∀ r i, s.program[s.line]? = some (.access r) → decodeAccess r = .ok i →
      step s = exec i { s with schedule := rest, line := s.line + 1 }) ∧
    (∀ w, s.program[s.line]? = some (.command w) → step s = exec (decodeCommand w) { s with schedule := rest, line := s.line + 1 })

/-- R65: a misaligned access, plain or in a `bnz`, and an access of 8, 16 or 64 bits are refused, each by its name. -/
def Obligations.UnadmittedAccessesRefused : Prop :=
  ∀ (s : State) (rest : List Turn), s.schedule = .host :: rest →
    (∀ write a data, a.toNat % 4 ≠ 0 → s.program[s.line]? = some (.access (accessRecord write a data)) → step s = .refused .misaligned) ∧
    (∀ a mask target, a.toNat % 4 ≠ 0 → s.program[s.line]? = some (.branch a mask target) → step s = .refused .misaligned) ∧
    (∀ width write a, s.program[s.line]? = some (.sized width write a) → step s = .refused .badWidth)

/-- R104: the read of a `bnz` is an ordinary read, and the HOST goes to the label exactly when `(value AND mask) ≠ 0`. -/
def Obligations.BranchReadsAndBranches : Prop :=
  ∀ (s : State) (rest : List Turn) (a : HostAddr) (mask : Word) (target : Nat) (i : Instr) (t : State), s.schedule = .host :: rest →
    s.program[s.line]? = some (.branch a mask target) → decodeAccess (accessRecord false a 0#32) = .ok i →
    exec i { s with schedule := rest, line := s.line + 1 } = .next t →
    step s = .next { t with line := if t.readData &&& mask ≠ 0#32 then target else s.line + 1 }

/-- R79, R172, R175, R264: an ENGINE turn runs the transaction of the present phase. -/
def Obligations.StepRunsDueTransaction : Prop :=
  ∀ (s : State) (rest : List Turn), s.schedule = .engine :: rest →
    (∀ low, s.phase = .initRate → rateByte s.rateSel = some low → step s = exec (.cfgWrite low s.params.cfgMsb) { s with schedule := rest }) ∧
    (∀ j, s.phase = .initCal j → step s = exec (.eeRead (BitVec.ofNat 8 (j * s.params.calChunk))) { s with schedule := rest }) ∧
    (s.phase = .readFrame → step s = exec .ramReadFrame { s with schedule := rest })

/-- R75: no ENGINE step changes anything while no command runs. -/
def Obligations.EngineIdleChangesNothing : Prop :=
  ∀ (s : State) (rest : List Turn), s.schedule = .engine :: rest → s.phase = .idle → step s = .next { s with schedule := rest }

/-- R320, R41: from every state, in one step, the reset event puts the block at its reset values: a command in progress is abandoned. -/
def Obligations.ResetEventRestoresBlock : Prop :=
  ∀ (s : State) (rest : List Turn), s.schedule = .reset :: rest → ∃ t, step s = .next t ∧
    t.rateSel = 1#4 ∧ t.busy = false ∧ t.ready = false ∧ t.gridValid = false ∧ t.err = .ok ∧ t.phase = .idle ∧ t.active = .none ∧
    t.cal = none ∧ (∀ k : Pixel, t.gi[k] = 0#16 ∧ t.gf[k] = 0#64) ∧
    memRead t 0x000#10 = 0x00000001#32 ∧ memRead t 0x004#10 = 0x00000000#32 ∧ memRead t 0x008#10 = 0x013E0000#32

/-- Model (log entry 9): the reset event leaves the HOST, the parameters and the bus history as they were, and drops a withheld answer exactly where a
transaction is due. -/
def Obligations.ResetEventKeepsHost : Prop :=
  ∀ (s : State) (rest : List Turn), s.schedule = .reset :: rest → ∃ t, step s = .next t ∧
    t.params = s.params ∧ t.readData = s.readData ∧ t.program = s.program ∧ t.line = s.line ∧ t.schedule = rest ∧ t.trace = s.trace ∧
    t.draws = s.draws ∧ t.answers = (if (issued s).isSome = true ∧ s.answers.head? = some .withhold then s.answers.tail else s.answers)

/-- R41: what the host reads and what the block hides right after reset. -/
def Obligations.ResetValues : Prop :=
  memRead State.reset 0x000#10 = 0x00000001#32 ∧ memRead State.reset 0x004#10 = 0x00000000#32 ∧ memRead State.reset 0x008#10 = 0x013E0000#32 ∧
  (∀ k : Pixel, State.reset.gi[k] = 0#16 ∧ State.reset.gf[k] = 0#64) ∧ State.reset.phase = .idle ∧ State.reset.active = .none ∧
  State.reset.cal = none

/-! ### Host accesses -/

/-- R155: WR_CONFIG, encoded with WE = 1 and ADDR = 0x000, is ignored while BUSY = 1; otherwise it stores DATA[3:0] and clears READY, and changes
nothing else: RATE_CODE and RATE_OK follow RATE_SEL. -/
def Obligations.ConfigWriteAccepted : Prop :=
  ∀ (data : Word) (s : State), decodeAccess (accessRecord true 0x000#10 data) = .ok (.wrConfig data) ∧
    (s.busy = true → exec (.wrConfig data) s = .next s) ∧
    (s.busy = false → ∃ t, exec (.wrConfig data) s = .next t ∧ t = { s with rateSel := BitVec.ofNat 4 (data.toNat % 16), ready := false } ∧
      (memRead t 0x008#10).extractLsb' 16 8 = (rateByte t.rateSel).getD 0x00#8 ∧
      ((memRead t 0x008#10).getLsbD 24 = true ↔ t.rateSel.toNat ≤ 10))

/-- R156: RD_CONFIG, encoded with WE = 0 and ADDR = 0x000, returns the selector in bits [3:0], zeros above, and has no side effect. -/
def Obligations.ConfigReadReturnsSelector : Prop :=
  decodeAccess (accessRecord false 0x000#10 0#32) = .ok .rdConfig ∧
  ∀ s : State, exec .rdConfig s = .next { s with readData := BitVec.ofNat 32 s.rateSel.toNat }

/-- R274, R62, R25: RD_STATUS, encoded with WE = 0 and ADDR = 0x008: the STATUS word, field by field; reading it changes nothing else. -/
def Obligations.StatusReadFields : Prop :=
  decodeAccess (accessRecord false 0x008#10 0#32) = .ok .rdStatus ∧
  ∀ s : State, ∃ w : Word, exec .rdStatus s = .next { s with readData := w } ∧ w = memRead s 0x008#10 ∧
    w.getLsbD 0 = s.busy ∧ w.getLsbD 1 = s.ready ∧ w.getLsbD 2 = s.gridValid ∧ w.extractLsb' 3 5 = 0#5 ∧
    w.extractLsb' 8 4 = (match s.err with
      | .ok => 0#4 | .transport => 1#4 | .calDecode => 2#4 | .unsupportedRate => 3#4 | .notInitialized => 4#4 | .illegalCmd => 5#4) ∧
    w.extractLsb' 12 4 = 0#4 ∧ w.extractLsb' 16 8 = (rateByte s.rateSel).getD 0x00#8 ∧
    (w.getLsbD 24 = true ↔ s.rateSel.toNat ≤ 10) ∧ w.extractLsb' 25 7 = 0#7

/-- R275: CMD and the reserved offsets read 0; writes to STATUS, to the grid words and to reserved offsets change no state. With the WE and ADDR of
each. -/
def Obligations.ReadOnlyAndReservedAccesses : Prop :=
  ∀ (s : State) (data : Word) (k : BitVec 6) (a : HostAddr),
    (decodeAccess (accessRecord false 0x004#10 0#32) = .ok .rdCmd ∧ exec .rdCmd s = .next { s with readData := 0x00000000#32 }) ∧
    (a.toNat % 4 = 0 → 0x00C ≤ a.toNat → a.toNat ≤ 0x0FC →
      decodeAccess (accessRecord false a 0#32) = .ok (.rdRsv a) ∧ exec (.rdRsv a) s = .next { s with readData := 0x00000000#32 } ∧
      decodeAccess (accessRecord true a data) = .ok (.wrRsv a data) ∧ exec (.wrRsv a data) s = .next s) ∧
    (decodeAccess (accessRecord true 0x008#10 data) = .ok (.wrStatus data) ∧ exec (.wrStatus data) s = .next s) ∧
    (decodeAccess (accessRecord true (BitVec.ofNat 10 (0x100 + 4 * k.toNat)) data) = .ok (.wrInt k data) ∧ exec (.wrInt k data) s = .next s) ∧
    (decodeAccess (accessRecord true (BitVec.ofNat 10 (0x200 + 8 * k.toNat)) data) = .ok (.wrFlt k false data) ∧
      exec (.wrFlt k false data) s = .next s) ∧
    (decodeAccess (accessRecord true (BitVec.ofNat 10 (0x204 + 8 * k.toNat)) data) = .ok (.wrFlt k true data) ∧
      exec (.wrFlt k true data) s = .next s)

/-- R272: RD_INT[k], at 0x100 + 4k, returns the integer grid element, sign-extended, and changes nothing else. -/
def Obligations.IntReadSignExtends : Prop :=
  ∀ (k : BitVec 6) (s : State), decodeAccess (accessRecord false (BitVec.ofNat 10 (0x100 + 4 * k.toNat)) 0#32) = .ok (.rdInt k) ∧
    ∃ w : Word, exec (.rdInt k) s = .next { s with readData := w } ∧ w.toInt = (s.gi[k.toNat]'k.isLt).toInt

/-- R273: RD_FLO[k], at 0x200 + 8k, and RD_FHI[k], at 0x204 + 8k, return bits [31:0] and [63:32] of the binary64 pattern, and change nothing else. -/
def Obligations.FloatReadsAreHalves : Prop :=
  ∀ (k : BitVec 6) (s : State), decodeAccess (accessRecord false (BitVec.ofNat 10 (0x200 + 8 * k.toNat)) 0#32) = .ok (.rdFlo k) ∧
    decodeAccess (accessRecord false (BitVec.ofNat 10 (0x204 + 8 * k.toNat)) 0#32) = .ok (.rdFhi k) ∧
    ∃ lo hi : Word, exec (.rdFlo k) s = .next { s with readData := lo } ∧
      exec (.rdFhi k) s = .next { s with readData := hi } ∧ hi ++ lo = s.gf[k.toNat]'k.isLt

/-! ### Commands -/

/-- R267: NOP, a CMD write of 0x00000000, changes no state. -/
def Obligations.NopChangesNothing : Prop :=
  decodeCommand 0x00000000#32 = .nop ∧ ∀ s : State, exec .nop s = .next s ∧ exec (.wrCmd 0x00000000#32) s = .next s

/-- R171: INIT, a CMD write of 0x00000001, is accepted while BUSY = 0 whatever READY and RATE_SEL are: BUSY, ACTIVE and PHASE are set and READY is
cleared, and nothing else changes. While BUSY = 1 it is ignored. -/
def Obligations.InitAcceptance : Prop :=
  decodeCommand 0x00000001#32 = .init ∧ ∀ (s : State) (i : Instr), i = .init ∨ i = .wrCmd 0x00000001#32 →
    (s.busy = false → exec i s = .next { s with active := .init, phase := .initRate, busy := true, ready := false }) ∧
    (s.busy = true → exec i s = .next s)

/-- R262: READ, a CMD write of 0x00000002 with BUSY = 0: of a ready block it begins; of a block that is not ready it sets ERR = 4 and changes nothing
else. -/
def Obligations.ReadAcceptance : Prop :=
  decodeCommand 0x00000002#32 = .read ∧ ∀ (s : State) (i : Instr), i = .read ∨ i = .wrCmd 0x00000002#32 → s.busy = false →
    (s.ready = true → exec i s = .next { s with active := .read, phase := .readFrame, busy := true }) ∧
    (s.ready = false → exec i s = .next { s with err := .notInitialized })

/-- R268: a CMD write with BUSY = 0 and RSV ≠ 0, or with OPCODE in 0x03 to 0xFF, sets ERR = 5 and changes nothing else. -/
def Obligations.IllegalCommandSetsErr : Prop :=
  ∀ (rsv : BitVec 24) (opcode : BitVec 8) (s : State), s.busy = false → rsv ≠ 0#24 ∨ 3 ≤ opcode.toNat →
    decodeCommand (rsv ++ opcode) = .illegalCmd rsv opcode ∧
    exec (.illegalCmd rsv opcode) s = .next { s with err := .illegalCmd } ∧
    exec (.wrCmd (rsv ++ opcode)) s = .next { s with err := .illegalCmd }

/-- R260: WR_CMD, encoded with WE = 1 and ADDR = 0x004, does what the command word DATA decodes to, and its dispatch is BUSY first, then RSV, then
OPCODE. -/
def Obligations.CommandWriteDispatch : Prop :=
  ∀ (data : Word) (s : State), decodeAccess (accessRecord true 0x004#10 data) = .ok (.wrCmd data) ∧
    exec (.wrCmd data) s = exec (decodeCommand data) s ∧
    (s.busy = true → exec (.wrCmd data) s = .next s) ∧
    (s.busy = false → 3 ≤ data.toNat → exec (.wrCmd data) s = .next { s with err := .illegalCmd }) ∧
    (s.busy = false → data = 0#32 → exec (.wrCmd data) s = .next s) ∧
    (s.busy = false → data = 1#32 →
      exec (.wrCmd data) s = .next { s with active := .init, phase := .initRate, busy := true, ready := false }) ∧
    (s.busy = false → data = 2#32 → s.ready = true →
      exec (.wrCmd data) s = .next { s with active := .read, phase := .readFrame, busy := true }) ∧
    (s.busy = false → data = 2#32 → s.ready = false → exec (.wrCmd data) s = .next { s with err := .notInitialized })

/-- R161, R261: while BUSY = 1, CMD writes of every word and CONFIG writes change no state. -/
def Obligations.BusyIgnoresWrites : Prop :=
  ∀ (s : State) (rsv : BitVec 24) (opcode : BitVec 8) (data : Word), s.busy = true →
    exec .nop s = .next s ∧ exec .init s = .next s ∧ exec .read s = .next s ∧ exec (.illegalCmd rsv opcode) s = .next s ∧
    exec (.wrCmd data) s = .next s ∧ exec (.wrConfig data) s = .next s

/-! ### ENGINE -/

/-- R97, R157, R172, R174: CFG_WRITE sends the command, the check bytes and the two configuration bytes to DEV_RAM; answered, INIT goes on to the first
chunk and nothing of the block changes but PHASE. -/
def Obligations.ConfigurationWriteGoesOn : Prop :=
  ∀ (s : State) (low : Byte) (bytes : List Byte) (rest : List DevScript), s.phase = .initRate → rateByte s.rateSel = some low →
    s.answers = .answer (.ok bytes) :: rest →
    exec (.cfgWrite low s.params.cfgMsb) s = .next { s with
      phase := .initCal 0
      answers := rest
      trace := ⟨.write s.params.devRam [0x03#8, low - 0x55#8, low, s.params.cfgMsb - 0x55#8, s.params.cfgMsb], .ok bytes⟩ :: s.trace }

/-- R173, R177: a failed configuration write ends INIT with ERR = 1 and READY = 0; `st.CAL`, the grids and GRID_VALID are unchanged. The staging
buffer may then hold anything (R34). -/
def Obligations.ConfigurationWriteFails : Prop :=
  ∀ (s : State) (low : Byte) (rest : List DevScript), s.phase = .initRate → rateByte s.rateSel = some low → s.answers = .answer .fail :: rest →
    ∃ stage draws, exec (.cfgWrite low s.params.cfgMsb) s = .next { s with
      err := .transport, ready := false, busy := false, phase := .idle, active := .none, calStage := stage, draws := draws, answers := rest
      trace := ⟨.write s.params.devRam [0x03#8, low - 0x55#8, low, s.params.cfgMsb - 0x55#8, s.params.cfgMsb], .fail⟩ :: s.trace }

/-- R152: with an unsupported selector the first ENGINE step of INIT ends it with ERR = 3 and READY = 0, and issues no transaction. -/
def Obligations.UnsupportedRateEndsInit : Prop :=
  ∀ (s : State) (rest : List Turn), s.schedule = .engine :: rest → s.phase = .initRate → 11 ≤ s.rateSel.toNat →
    ∃ stage draws, step s = .next { s with
      err := .unsupportedRate, ready := false, busy := false, phase := .idle, active := .none, calStage := stage, draws := draws, schedule := rest }

/-- R121, R175: a calibration read of the right length, not the last, fills its place in the staging buffer, and INIT goes on to the next chunk. -/
def Obligations.ChunkReadFillsStage : Prop :=
  ∀ (s : State) (j : Nat) (bytes : List Byte) (rest : List DevScript), s.phase = .initCal j → j + 1 < s.params.nChunk →
    s.answers = .answer (.ok bytes) :: rest → bytes.length = s.params.calChunk → s.calStage.length = s.params.calBytes →
    s.params.wf = true → ∃ stage : List Byte,
      exec (.eeRead (BitVec.ofNat 8 (j * s.params.calChunk))) s = .next { s with
        phase := .initCal (j + 1), calStage := stage, answers := rest
        trace := ⟨.read s.params.devEe [BitVec.ofNat 8 (j * s.params.calChunk)] s.params.calChunk, .ok bytes⟩ :: s.trace } ∧
      stage.length = s.params.calBytes ∧
      ∀ a, stage[a]? =
        if j * s.params.calChunk ≤ a ∧ a < (j + 1) * s.params.calChunk then bytes[a - j * s.params.calChunk]? else s.calStage[a]?

/-- R176: the last chunk replaces `st.CAL` whole, sets READY and ends INIT with ERR = 0; the grids and GRID_VALID are not touched. -/
def Obligations.LastChunkCompletesInit : Prop :=
  ∀ (s : State) (j : Nat) (bytes : List Byte) (rest : List DevScript), s.phase = .initCal j → j + 1 = s.params.nChunk →
    s.answers = .answer (.ok bytes) :: rest → bytes.length = s.params.calChunk → s.calStage.length = s.params.calBytes →
    s.params.wf = true → ∃ stage draws,
      exec (.eeRead (BitVec.ofNat 8 (j * s.params.calChunk))) s = .next { s with
        cal := some (s.calStage.take (j * s.params.calChunk) ++ bytes)
        ready := true, err := .ok, busy := false, phase := .idle, active := .none, calStage := stage, draws := draws, answers := rest
        trace := ⟨.read s.params.devEe [BitVec.ofNat 8 (j * s.params.calChunk)] s.params.calChunk, .ok bytes⟩ :: s.trace }

/-- R122, R123, R177: a failed calibration read ends INIT with ERR = 1, one of another length with ERR = 2; READY = 0, and `st.CAL` and the grids are
unchanged. -/
def Obligations.ChunkReadFails : Prop :=
  ∀ (s : State) (j : Nat) (a : DevAnswer) (e : Err) (rest : List DevScript), s.phase = .initCal j → s.answers = .answer a :: rest →
    ((a = .fail ∧ e = .transport) ∨ (∃ bytes, a = .ok bytes ∧ bytes.length ≠ s.params.calChunk ∧ e = .calDecode)) →
    ∃ stage draws, exec (.eeRead (BitVec.ofNat 8 (j * s.params.calChunk))) s = .next { s with
      err := e, ready := false, busy := false, phase := .idle, active := .none, calStage := stage, draws := draws, answers := rest
      trace := ⟨.read s.params.devEe [BitVec.ofNat 8 (j * s.params.calChunk)] s.params.calChunk, a⟩ :: s.trace }

/-- R191, R193: a frame reply of the right length is decoded least significant byte first into `st.RAW`, and READ goes on to READ_COMP. -/
def Obligations.FrameReadDecodesWords : Prop :=
  ∀ (s : State) (bytes : List Byte) (rest : List DevScript), s.phase = .readFrame → s.answers = .answer (.ok bytes) :: rest →
    bytes.length = 2 * s.params.frameWords → ∃ words : List HalfWord,
      exec .ramReadFrame s = .next { s with
        phase := .readComp, raw := words, answers := rest
        trace := ⟨.read s.params.devRam [0x02#8, 0x00#8, 0x01#8, BitVec.ofNat 8 s.params.frameWords] (2 * s.params.frameWords), .ok bytes⟩ :: s.trace } ∧
      words.length = s.params.frameWords ∧
      ∀ (t : Nat) (h : t < words.length) (h0 : 2 * t < bytes.length) (h1 : 2 * t + 1 < bytes.length),
        words[t].toNat = bytes[2 * t].toNat + 256 * bytes[2 * t + 1].toNat

/-- R192, R264: a failed frame read, or a reply of another length, ends READ with ERR = 1; READY, the grids and GRID_VALID are unchanged. `st.RAW` may
then hold anything (R194). -/
def Obligations.FrameReadFails : Prop :=
  ∀ (s : State) (a : DevAnswer) (rest : List DevScript), s.phase = .readFrame → s.answers = .answer a :: rest →
    (a = .fail ∨ ∃ bytes, a = .ok bytes ∧ bytes.length ≠ 2 * s.params.frameWords) →
    ∃ words draws, exec .ramReadFrame s = .next { s with
      err := .transport, busy := false, phase := .idle, active := .none, raw := words, draws := draws, answers := rest
      trace := ⟨.read s.params.devRam [0x02#8, 0x00#8, 0x01#8, BitVec.ofNat 8 s.params.frameWords] (2 * s.params.frameWords), a⟩ :: s.trace }

/-- R265, R266: the READ_COMP step commits both grids of the raw frame and the calibration image at once, sets GRID_VALID and ends READ with ERR = 0. -/
def Obligations.ReadCompCommits : Prop :=
  ∀ (s : State) (rest : List Turn) (image : List Byte), s.schedule = .engine :: rest → s.phase = .readComp → s.cal = some image →
    step s = .next { s with
      gi := (compensate (profileOf s.params.profile) s.raw image).1, gf := (compensate (profileOf s.params.profile) s.raw image).2
      gridValid := true, err := .ok, busy := false, phase := .idle, active := .none, schedule := rest }

/-- Model (R79, R101): a transaction that ENGINE does not issue in the present phase is refused by name. -/
def Obligations.TransactionsOnlyWhenDue : Prop :=
  ∀ s : State, (∀ low high, ¬ (s.phase = .initRate ∧ rateByte s.rateSel = some low ∧ high = s.params.cfgMsb) →
      exec (.cfgWrite low high) s = .refused .notIssued) ∧
    (∀ off, (¬ ∃ j, s.phase = .initCal j ∧ off = BitVec.ofNat 8 (j * s.params.calChunk)) → exec (.eeRead off) s = .refused .notIssued) ∧
    (s.phase ≠ .readFrame → exec .ramReadFrame s = .refused .notIssued)

/-- Model (93_implementation_defined.md I13, log entry 5): while the DEVICE withholds its answer, an ENGINE turn changes nothing. -/
def Obligations.WithheldAnswerWaits : Prop :=
  ∀ (s : State) (rest : List Turn) (more : List DevScript) (i : Instr), s.schedule = .engine :: rest → s.answers = .withhold :: more →
    issued s = some i → step s = .next { s with schedule := rest }

/-! ### Compensation -/

/-- R250, R252, R253: device pixel p is at host index `(p mod 4)·16 + (p div 4)`; the float element is the clamped value itself and the integer element
its tenfold, rounded. -/
def Obligations.GridLayout : Prop :=
  ∀ (id : ProfileId) (w : List HalfWord) (image : List Byte) (p k : Pixel), k.val = p.val % 4 * 16 + p.val / 4 →
    (compensate (profileOf id) w image).2[k] =
      lane (profileOf id) ((profileOf id).ambient (ptatRaw w) ((profileOf id).decodeCal image)) w ((profileOf id).decodeCal image) p ∧
    (compensate (profileOf id) w image).1[k] = toFixed (compensate (profileOf id) w image).2[k]

/-- R214: an ambient domain error gives every pixel T_MIN and -2732. -/
def Obligations.AmbientDomainClampsAll : Prop :=
  ∀ (id : ProfileId) (w : List HalfWord) (image : List Byte), (profileOf id).ambient (ptatRaw w) ((profileOf id).decodeCal image) = none →
    ∀ k : Pixel, (compensate (profileOf id) w image).2[k] = 0xC071133333333333#64 ∧ ((compensate (profileOf id) w image).1[k]).toInt = -2732

/-- R254: the integer element is the rounded tenfold of the float element, and the two agree to within the rounding, for every input and profile. -/
def Obligations.GridsConsistent : Prop :=
  ∀ (id : ProfileId) (w : List HalfWord) (image : List Byte) (k : Pixel),
    ((compensate (profileOf id) w image).1[k]).toInt = Fp.roundTiesEven (Fp.mul (compensate (profileOf id) w image).2[k] (Fp.ofInt 10)) ∧
    |Fp.toRat (compensate (profileOf id) w image).2[k] - ((compensate (profileOf id) w image).1[k]).toInt / 10| ≤ 1 / 20 + 1 / 2 ^ 40

/-- R255: for every raw frame and every image, every element is finite and in [T_MIN, T_MAX], and the integer element in [-2732, 32767]. -/
def Obligations.CompensationNeverFails : Prop :=
  ∀ (id : ProfileId) (w : List HalfWord) (image : List Byte) (k : Pixel),
    Fp.isFinite (compensate (profileOf id) w image).2[k] = true ∧
    Fp.toRat Config.tMin ≤ Fp.toRat (compensate (profileOf id) w image).2[k] ∧
    Fp.toRat (compensate (profileOf id) w image).2[k] ≤ Fp.toRat Config.tMax ∧
    -2732 ≤ ((compensate (profileOf id) w image).1[k]).toInt ∧ ((compensate (profileOf id) w image).1[k]).toInt ≤ 32767

/-- R247: under the default profile no finite object temperature is below T_MIN, so a pixel is T_MIN exactly on a domain error; above T_MAX the upper
clamp fires. -/
def Obligations.LowerClampNeverFires : Prop :=
  ∀ (p : Pixel) (vir vcp ta : F64) (k : CalConsts),
    (∀ v, object p vir vcp ta k = some v → Fp.lt v Config.tMin = false ∧ (Fp.lt Config.tMax v = true → clamp (some v) = Config.tMax)) ∧
    (clamp (object p vir vcp ta k) = Config.tMin ↔ object p vir vcp ta k = none)

/-- R256: lane p reads W[p], the two words common to all lanes, and, of the constants, ALPHA[p], A[p], B[p] and the scalars; no lane reads another
lane's pixel value. -/
def Obligations.LanesIndependent : Prop :=
  (∀ (id : ProfileId) (w w' : List HalfWord) (image : List Byte) (p k : Pixel), k.val = p.val % 4 * 16 + p.val / 4 →
    w.getD p.val 0#16 = w'.getD p.val 0#16 → w.getD 64 0#16 = w'.getD 64 0#16 → w.getD 65 0#16 = w'.getD 65 0#16 →
    (compensate (profileOf id) w image).1[k] = (compensate (profileOf id) w' image).1[k] ∧
    (compensate (profileOf id) w image).2[k] = (compensate (profileOf id) w' image).2[k]) ∧
  ∀ (w : List HalfWord) (image image' : List Byte) (p k : Pixel), k.val = p.val % 4 * 16 + p.val / 4 →
    (decodeCal image).a p = (decodeCal image').a p → (decodeCal image).b p = (decodeCal image').b p →
    (decodeCal image).alpha p = (decodeCal image').alpha p →
    { decodeCal image with a := fun _ => 0#64, b := fun _ => 0#64, alpha := fun _ => 0#64 } =
      { decodeCal image' with a := fun _ => 0#64, b := fun _ => 0#64, alpha := fun _ => 0#64 } →
    (compensate Profile.mlx90621 w image).2[k] = (compensate Profile.mlx90621 w image').2[k]

/-- R245, cases 1 and 4: an image whose KT2 word or emissivity word is zero gives T_MIN in every pixel of every frame. -/
def Obligations.ZeroDivisorsClampAll : Prop :=
  ∀ (w : List HalfWord) (image : List Byte) (k : Pixel),
    (image.getD 0xDE 0#8 = 0#8 ∧ image.getD 0xDF 0#8 = 0#8) ∨ (image.getD 0xE4 0#8 = 0#8 ∧ image.getD 0xE5 0#8 = 0#8) →
    (compensate Profile.mlx90621 w image).2[k] = Config.tMin

/-- R129 to R138: the decode of every image is exact, apart from the sum in ALPHA, which is rounded once. -/
def Obligations.CalibrationDecodeExact : Prop :=
  ∀ (image : List Byte) (i : Pixel),
    Fp.toRat (decodeCal image).vth = calS16 image 0xDA ∧
    Fp.toRat (decodeCal image).kt1 = calS16 image 0xDC / 2 ^ calHigh4 image 0xD2 ∧
    Fp.toRat (decodeCal image).kt2 = calS16 image 0xDE / 2 ^ (calLow4 image 0xD2 + 10) ∧
    Fp.toRat ((decodeCal image).a i) = calS16 image 0xD0 + calU8 image i.val * 2 ^ calHigh4 image 0xD9 ∧
    Fp.toRat ((decodeCal image).b i) = calS8 image (0x40 + i.val) / 2 ^ calLow4 image 0xD9 ∧
    Fp.NearestEven (((calU16 image 0xE0 : ℝ) / 2 ^ (calByte image 0xE2).toNat) + (calU8 image (0x80 + i.val) : ℝ) / 2 ^ (calByte image 0xE3).toNat)
      ((decodeCal image).alpha i) ∧
    Fp.toRat (decodeCal image).acp = calS16 image 0xD3 ∧
    Fp.toRat (decodeCal image).bcp = calS8 image 0xD5 / 2 ^ calLow4 image 0xD9 ∧
    Fp.toRat (decodeCal image).tgc = calS8 image 0xD8 / 32 ∧
    Fp.toRat (decodeCal image).alphaCp = calU16 image 0xD6 / 2 ^ (calByte image 0xE2).toNat ∧
    Fp.toRat (decodeCal image).eps = calU16 image 0xE4 / 32768 ∧
    Fp.toRat (decodeCal image).ksta = calS16 image 0xE6 / 2 ^ 20 ∧
    Fp.toRat (decodeCal image).ks4 = calS8 image 0xC4 / 2 ^ (calLow4 image 0xC0 + 8)

/-! ### Arithmetic -/

/-- R17: `+.` and `-.` of finite values round the exact sum and difference to nearest, ties to even. -/
def Obligations.SumsRoundToNearestEven : Prop :=
  ∀ x y : F64, Fp.isFinite x = true → Fp.isFinite y = true →
    Fp.NearestEven (Fp.toRat x + Fp.toRat y) (Fp.add x y) ∧ Fp.NearestEven (Fp.toRat x - Fp.toRat y) (Fp.sub x y)

/-- R17: `*.` of finite values, and `/.` of finite values with a divisor that is not zero, round the exact product and quotient to nearest, ties to even. -/
def Obligations.ProductsAndQuotientsRoundToNearestEven : Prop :=
  ∀ x y : F64, Fp.isFinite x = true → Fp.isFinite y = true →
    Fp.NearestEven (Fp.toRat x * Fp.toRat y) (Fp.mul x y) ∧ (Fp.toRat y ≠ 0 → Fp.NearestEven (Fp.toRat x / Fp.toRat y) (Fp.div x y))

/-- R17: `sqrt.` is the correctly rounded square root of every finite value that is not below zero. -/
def Obligations.RootsRoundToNearestEven : Prop :=
  ∀ x : F64, Fp.isFinite x = true → 0 ≤ Fp.toRat x → Fp.NearestEven (Real.sqrt (Fp.toRat x)) (Fp.sqrt x)

/-- R252: `round_ties_even` of a finite value is the nearest integer, and the even one of two that are as near. -/
def Obligations.RoundTiesEvenIsNearest : Prop :=
  ∀ v : F64, Fp.isFinite v = true → ∀ n : Int, |Fp.toRat v - Fp.roundTiesEven v| ≤ |Fp.toRat v - n| ∧
    (n ≠ Fp.roundTiesEven v → |Fp.toRat v - n| = |Fp.toRat v - Fp.roundTiesEven v| → Fp.roundTiesEven v % 2 = 0)

/-- R246, R222: T_MIN, T_MAX and the kelvin offset are the binary64 values nearest to -273.2, 3276.7 and 273.15. -/
def Obligations.DecimalConstantsNearest : Prop :=
  Fp.NearestEven (-(2732 / 10)) Config.tMin ∧ Fp.NearestEven (32767 / 10) Config.tMax ∧ Fp.NearestEven (27315 / 100) Fp.kelvin

/-! ### The whole machine -/

/-- R39: the invariants hold at reset. -/
def Obligations.InvariantAtReset : Prop := State.reset.Inv ∧ State.reset.InitHistory

/-- R39: every step from a state that meets the invariants leads to one that does. -/
def Obligations.StepKeepsInvariant : Prop := ∀ s t : State, s.Inv → step s = .next t → t.Inv

/-- R40: while READY, the image is what the last INIT read and RATE_SEL what it programmed; every step keeps it so. -/
def Obligations.StepKeepsInitHistory : Prop := ∀ s t : State, s.Inv → s.InitHistory → step s = .next t → t.InitHistory

/-- R30, R36: the grids change only in the READ_COMP step, both together, and at reset; GRID_VALID rises with them and falls only at reset. -/
def Obligations.GridsChangeOnlyAtCommit : Prop :=
  ∀ s t : State, s.Inv → step s = .next t →
    (turn s = .reset ∧ resetGrids t ∧ t.gridValid = false) ∨
    (turn s = .engine ∧ s.phase = .readComp ∧ t.gridValid = true ∧
      ∃ image, s.cal = some image ∧ (t.gi, t.gf) = compensate (profileOf s.params.profile) s.raw image) ∨
    (t.gi = s.gi ∧ t.gf = s.gf ∧ t.gridValid = s.gridValid)

/-- R33, R125: `st.CAL` changes only in the step that completes INIT, and at reset; READY rises only in that step (R29). -/
def Obligations.ImageChangesOnlyAtInitEnd : Prop :=
  ∀ s t : State, s.Inv → step s = .next t → t.cal ≠ s.cal ∨ (s.ready = false ∧ t.ready = true) →
    turn s = .reset ∨ (turn s = .engine ∧ (∃ j, s.phase = .initCal j ∧ j + 1 = s.params.nChunk) ∧ t.ready = true ∧ t.err = .ok ∧ t.busy = false)

/-- R31: ERR changes only when a command ends, when a READ is refused and when a command word is illegal (or at reset). -/
def Obligations.ErrWrittenOnlyAtEnds : Prop :=
  ∀ s t : State, s.Inv → step s = .next t → t.err ≠ s.err →
    turn s = .reset ∨ (turn s = .engine ∧ s.busy = true ∧ t.busy = false) ∨
    (turn s = .host ∧ s.busy = false ∧ t.busy = false ∧ ((t.err = .notInitialized ∧ s.ready = false) ∨ t.err = .illegalCmd))

/-- R161: CONFIG writes while BUSY are ignored, and RATE_SEL cannot change while a command runs (reset, which abandons the command, apart). -/
def Obligations.SelectorFixedWhileBusy : Prop :=
  (∀ (data : Word) (s : State), s.busy = true → exec (.wrConfig data) s = .next s) ∧
  ∀ s t : State, step s = .next t → s.busy = true → turn s ≠ .reset → t.rateSel = s.rateSel

/-- R79, R101: a step puts at most one transaction on the device bus, in an ENGINE turn, and it is one of the three frames the block emits, in the
phase it belongs to. -/
def Obligations.BusCarriesOnlyDueFrames : Prop :=
  ∀ s t : State, s.Inv → step s = .next t → t.trace = s.trace ∨
    (turn s = .engine ∧ ∃ e i, t.trace = e :: s.trace ∧ decode s.params (.bus e.frame) = .ok i ∧
      ((s.phase = .initRate ∧ ∃ low high, i = .cfgWrite low high) ∨ (∃ j off, s.phase = .initCal j ∧ i = .eeRead off) ∨
        (s.phase = .readFrame ∧ i = .ramReadFrame)))

/-- R334, R341: with a DEVICE that answers, an accepted INIT ends within `1 + NCHUNK` ENGINE steps and an accepted READ within 2, whatever the answers:
when ENGINE alone is scheduled, and in every interleaving, where a command that still runs has taken fewer. Under a scheduler that is fair to ENGINE
every command ends, or the HOST meets an access that is not admitted (R65). -/
def Obligations.CommandsEnd : Prop :=
  ∀ (s : State) (rest : List Turn), s.Inv → s.deviceAnswers →
    (∀ n, (∀ m, m ≤ n → ∃ t, Sys2Proof.core.run m s = .next t ∧ t.busy = true) →
      (s.active = .init → s.engineTurns n < 1 + s.params.nChunk) ∧ (s.active = .read → s.engineTurns n < 2)) ∧
    (s.fairToEngine → s.busy = true →
      ∃ n, (∃ t, Sys2Proof.core.run n s = .next t ∧ t.busy = false ∧ t.phase = .idle) ∨ ∃ r, Sys2Proof.core.run n s = .refused r) ∧
    (s.phase = .initRate → s.schedule = List.replicate (1 + s.params.nChunk) Turn.engine ++ rest →
      ∃ t, Sys2Proof.core.run (1 + s.params.nChunk) s = .next t ∧ t.busy = false ∧ t.phase = .idle) ∧
    (s.phase = .readFrame → s.schedule = .engine :: .engine :: rest →
      ∃ t, Sys2Proof.core.run 2 s = .next t ∧ t.busy = false ∧ t.phase = .idle)

/-- R301, R178: from every idle state with a supported selector, INIT succeeds when the DEVICE answers correctly: READY = 1, ERR = 0, the image is the
chunks in order, and the grids and GRID_VALID are as they were. -/
def Obligations.InitSucceedsFromEveryIdleState : Prop :=
  ∀ (s : State) (rest : List Turn) (more : List DevScript) (ack : List Byte) (chunks : List (List Byte)), s.Inv → s.busy = false →
    s.rateSel.toNat ≤ 10 → s.program[s.line]? = some (.command 0x00000001#32) →
    s.schedule = .host :: List.replicate (1 + s.params.nChunk) Turn.engine ++ rest →
    s.answers = .answer (.ok ack) :: chunks.map (fun c => DevScript.answer (.ok c)) ++ more →
    chunks.length = s.params.nChunk → (∀ c ∈ chunks, c.length = s.params.calChunk) →
    ∃ t, Sys2Proof.core.run (2 + s.params.nChunk) s = .next t ∧ t.ready = true ∧ t.err = .ok ∧ t.busy = false ∧
      t.cal = some chunks.flatten ∧ t.gi = s.gi ∧ t.gf = s.gf ∧ t.gridValid = s.gridValid ∧ t.rateSel = s.rateSel
end

