-- ==== Sys2Proof/Laws/Encoding.lean ====
section
/-! SUPPORT. What the fields of the encodings read back as: command words, access records, host offsets, rate bytes. -/

namespace Sys2Proof

/-! ### Command words -/

theorem commandWord_toNat (rsv : BitVec 24) (opcode : BitVec 8) : (commandWord rsv opcode).toNat = rsv.toNat * 256 + opcode.toNat := by
  have h := BitVec.toNat_append rsv opcode
  rw [← Nat.shiftLeft_add_eq_or_of_lt opcode.isLt, Nat.shiftLeft_eq] at h
  exact h

theorem commandWord_rsv (rsv : BitVec 24) (opcode : BitVec 8) : (commandWord rsv opcode).extractLsb' 8 24 = rsv := by
  apply BitVec.eq_of_toNat_eq
  rw [BitVec.extractLsb'_toNat, commandWord_toNat, Nat.shiftRight_eq_div_pow]
  have := opcode.isLt
  have := rsv.isLt
  omega

theorem commandWord_opcode (rsv : BitVec 24) (opcode : BitVec 8) : (commandWord rsv opcode).extractLsb' 0 8 = opcode := by
  apply BitVec.eq_of_toNat_eq
  rw [BitVec.extractLsb'_toNat, commandWord_toNat, Nat.shiftRight_zero]
  have := opcode.isLt
  omega

theorem commandWord_fields (w : Word) : commandWord (w.extractLsb' 8 24) (w.extractLsb' 0 8) = w := by
  apply BitVec.eq_of_toNat_eq
  rw [commandWord_toNat, BitVec.extractLsb'_toNat, BitVec.extractLsb'_toNat, Nat.shiftRight_zero, Nat.shiftRight_eq_div_pow]
  have := w.isLt
  omega

/-- A word that is not legal decodes to an illegal command with its own fields. -/
theorem decodeCommand_illegal {w : Word} (h : legalCommand w = false) :
    decodeCommand w = .illegalCmd (w.extractLsb' 8 24) (w.extractLsb' 0 8) := by
  unfold legalCommand at h
  simp only [Bool.or_eq_false_iff, beq_eq_false_iff_ne, ne_eq] at h
  unfold decodeCommand
  rw [if_neg h.1.1, if_neg h.1.2, if_neg h.2]

/-- A command word is legal exactly when it is below 3. -/
theorem legalCommand_iff (w : Word) : legalCommand w = true ↔ w.toNat < 3 := by
  unfold legalCommand
  simp only [Bool.or_eq_true, beq_iff_eq, BitVec.toNat_eq, BitVec.toNat_ofNat]
  omega

/-! ### Access records -/

theorem accessRecord_toNat (write : Bool) (a : HostAddr) (data : Word) :
    (accessRecord write a data).toNat = (if write then 2 ^ 42 else 0) + a.toNat * 2 ^ 32 + data.toNat := by
  have h1 := BitVec.toNat_append (BitVec.ofBool write) a
  rw [← Nat.shiftLeft_add_eq_or_of_lt a.isLt, Nat.shiftLeft_eq] at h1
  have h2 := BitVec.toNat_append (BitVec.ofBool write ++ a) data
  rw [← Nat.shiftLeft_add_eq_or_of_lt data.isLt, Nat.shiftLeft_eq, h1] at h2
  refine Eq.trans h2 ?_
  cases write
  · simp
  · simp
    omega

theorem recWrite_accessRecord (write : Bool) (a : HostAddr) (data : Word) : recWrite (accessRecord write a data) = write := by
  unfold recWrite
  rw [BitVec.getLsbD, accessRecord_toNat, Nat.testBit_eq_decide_div_mod_eq]
  have := a.isLt
  have := data.isLt
  cases write
  · simp
    omega
  · simp
    omega

theorem recAddr_accessRecord (write : Bool) (a : HostAddr) (data : Word) : recAddr (accessRecord write a data) = a := by
  apply BitVec.eq_of_toNat_eq
  unfold recAddr
  rw [BitVec.extractLsb'_toNat, accessRecord_toNat, Nat.shiftRight_eq_div_pow]
  have := a.isLt
  have := data.isLt
  cases write <;> simp <;> omega

theorem recData_accessRecord (write : Bool) (a : HostAddr) (data : Word) : recData (accessRecord write a data) = data := by
  apply BitVec.eq_of_toNat_eq
  unfold recData
  rw [BitVec.extractLsb'_toNat, accessRecord_toNat, Nat.shiftRight_zero]
  have := data.isLt
  cases write <;> simp <;> omega

/-- A record is its fields. -/
theorem accessRecord_fields (r : BitVec 43) : accessRecord (recWrite r) (recAddr r) (recData r) = r := by
  apply BitVec.eq_of_toNat_eq
  unfold recWrite recAddr recData
  rw [accessRecord_toNat, BitVec.extractLsb'_toNat, BitVec.extractLsb'_toNat, BitVec.getLsbD, Nat.testBit_eq_decide_div_mod_eq,
    Nat.shiftRight_eq_div_pow, Nat.shiftRight_zero]
  have := r.isLt
  by_cases h : r.toNat / 2 ^ 42 % 2 = 1
  · rw [decide_eq_true h, if_pos rfl]
    omega
  · rw [decide_eq_false h, if_neg (by simp)]
    omega

/-- What an access record with given fields decodes to (R91). -/
theorem decodeAccess_record (write : Bool) (a : HostAddr) (data : Word) :
    decodeAccess (accessRecord write a data) =
      if !Machine.aligned a then .error .misaligned
      else if write then .ok (decodeWrite a data)
      else if data = 0#32 then .ok (decodeRead a)
      else .error .readWithData := by
  unfold decodeAccess
  rw [recWrite_accessRecord, recAddr_accessRecord, recData_accessRecord]

/-! ### Host offsets -/

theorem aligned_iff (a : HostAddr) : Machine.aligned a = true ↔ a.toNat % 4 = 0 := by
  unfold Machine.aligned
  rw [beq_iff_eq, BitVec.toNat_eq, BitVec.extractLsb'_toNat, Nat.shiftRight_zero]
  rfl

theorem addrInt_toNat (k : BitVec 6) : (Machine.addrInt k).toNat = 0x100 + 4 * k.toNat := by
  revert k
  decide

theorem addrFlt_toNat (k : BitVec 6) (high : Bool) : (Machine.addrFlt k high).toNat = 0x200 + 8 * k.toNat + (if high then 4 else 0) := by
  revert k high
  decide

/-- A reserved offset is none of the registers and none of the grid words. -/
theorem reservedOffset_bits {a : HostAddr} (h : reservedOffset a = true) :
    a ≠ Machine.addrConfig ∧ a ≠ Machine.addrCmd ∧ a ≠ Machine.addrStatus ∧ a.getLsbD 9 = false ∧ a.getLsbD 8 = false := by
  revert a
  decide +kernel

/-- The write operation at a reserved offset. -/
theorem decodeWrite_reserved {a : HostAddr} (data : Word) (h : reservedOffset a = true) : decodeWrite a data = .wrRsv a data := by
  obtain ⟨h1, h2, h3, h4, h5⟩ := reservedOffset_bits h
  unfold decodeWrite
  rw [if_neg h1, if_neg h2, if_neg h3, h4, h5]
  rfl

/-- The read operation at a reserved offset. -/
theorem decodeRead_reserved {a : HostAddr} (h : reservedOffset a = true) : decodeRead a = .rdRsv a := by
  obtain ⟨h1, h2, h3, h4, h5⟩ := reservedOffset_bits h
  unfold decodeRead
  rw [if_neg h1, if_neg h2, if_neg h3, h4, h5]
  rfl

/-- An aligned offset that is no register is that of a float word, of an integer word, or reserved. -/
theorem aligned_offset {a : HostAddr} (h : Machine.aligned a = true) :
    a ≠ Machine.addrConfig → a ≠ Machine.addrCmd → a ≠ Machine.addrStatus →
      if a.getLsbD 9 then Machine.addrFlt (Machine.fltIndex a) (Machine.fltHigh a) = a
      else if a.getLsbD 8 then Machine.addrInt (Machine.intIndex a) = a else reservedOffset a = true := by
  revert a
  decide +kernel

/-- A decoded write is well formed, and its offset and data are those of the record. -/
theorem encode_decodeWrite (p : Params) {a : HostAddr} (data : Word) (h : Machine.aligned a = true) :
    (decodeWrite a data).wf p = true ∧ encode p (decodeWrite a data) = .ha (accessRecord true a data) := by
  have hk := aligned_offset h
  unfold decodeWrite
  split_ifs with h1 h2 h3 h4 h5
  · exact ⟨rfl, by rw [h1]; rfl⟩
  · exact ⟨rfl, by rw [h2]; rfl⟩
  · exact ⟨rfl, by rw [h3]; rfl⟩
  · rw [if_pos h4] at hk
    exact ⟨rfl, by simp only [encode, hk h1 h2 h3]⟩
  · rw [if_neg h4, if_pos h5] at hk
    exact ⟨rfl, by simp only [encode, hk h1 h2 h3]⟩
  · rw [if_neg h4, if_neg h5] at hk
    exact ⟨hk h1 h2 h3, rfl⟩

/-- A decoded read is well formed, and its offset is that of the record. -/
theorem encode_decodeRead (p : Params) {a : HostAddr} (h : Machine.aligned a = true) :
    (decodeRead a).wf p = true ∧ encode p (decodeRead a) = .ha (accessRecord false a 0#32) := by
  have hk := aligned_offset h
  unfold decodeRead
  split_ifs with h1 h2 h3 h4 h6 h5
  · exact ⟨rfl, by rw [h1]; rfl⟩
  · exact ⟨rfl, by rw [h2]; rfl⟩
  · exact ⟨rfl, by rw [h3]; rfl⟩
  · rw [if_pos h4, h6] at hk
    exact ⟨rfl, by simp only [encode, hk h1 h2 h3]⟩
  · rw [if_pos h4, Bool.eq_false_iff.mpr h6] at hk
    exact ⟨rfl, by simp only [encode, hk h1 h2 h3]⟩
  · rw [if_neg h4, if_pos h5] at hk
    exact ⟨rfl, by simp only [encode, hk h1 h2 h3]⟩
  · rw [if_neg h4, if_neg h5] at hk
    exact ⟨hk h1 h2 h3, rfl⟩

end Sys2Proof
end

