-- ==== Sys2Proof/Laws/Float.lean ====
section
/-! SUPPORT. What the binary64 operations do, said once: the patterns they build, and that each rounds the exact result to nearest, ties to even. -/

namespace Sys2Proof.Machine

/-! ### Patterns -/

theorem Fp.pack_toNat (neg : Bool) {mag : Nat} (h : mag < 2 ^ 63) :
    (Fp.pack neg mag).toNat = (if neg then 2 ^ 63 else 0) + mag := by
  unfold Fp.pack
  rw [BitVec.toNat_ofNat]
  apply Nat.mod_eq_of_lt
  cases neg <;> simp <;> omega

theorem Fp.signBit_eq (x : F64) : Fp.signBit x = decide (2 ^ 63 ≤ x.toNat) := by
  unfold Fp.signBit
  rw [← BitVec.msb_eq_getLsbD_last (w := 64), BitVec.msb_eq_decide]

@[simp] theorem Fp.signBit_pack (neg : Bool) {mag : Nat} (h : mag < 2 ^ 63) : Fp.signBit (Fp.pack neg mag) = neg := by
  rw [Fp.signBit_eq, Fp.pack_toNat neg h]
  cases neg
  · simp
    omega
  · simp

@[simp] theorem Fp.magnitude_pack (neg : Bool) {mag : Nat} (h : mag < 2 ^ 63) : Fp.magnitude (Fp.pack neg mag) = mag := by
  unfold Fp.magnitude
  rw [Fp.pack_toNat neg h]
  cases neg <;> simp <;> omega

theorem Fp.magnitude_lt (x : F64) : Fp.magnitude x < 2 ^ 63 := Nat.mod_lt _ (by norm_num)

theorem Fp.pack_signBit_magnitude (x : F64) : Fp.pack (Fp.signBit x) (Fp.magnitude x) = x := by
  apply BitVec.eq_of_toNat_eq
  rw [Fp.pack_toNat _ (Fp.magnitude_lt x), Fp.signBit_eq, Fp.magnitude]
  have := x.isLt
  by_cases h : 2 ^ 63 ≤ x.toNat
  · rw [decide_eq_true h, if_pos rfl]
    omega
  · rw [decide_eq_false h, if_neg (by simp)]
    omega

theorem Fp.lowBit_pack (neg : Bool) {mag : Nat} (h : mag < 2 ^ 63) : (Fp.pack neg mag).getLsbD 0 = decide (mag % 2 = 1) := by
  rw [BitVec.getLsbD, Fp.pack_toNat neg h, Nat.testBit_zero]
  cases neg
  · simp
  · simp
    omega

/-- A finite pattern stands for a sign, fewer than `2^53` units, and a unit no smaller than `2^-1074`. -/
theorem Fp.unpack_of_finite {x : F64} (h : Fp.isFinite x = true) :
    ∃ m e, Fp.unpack x = .fin (Fp.signBit x) m e ∧ m < 2 ^ 53 ∧ -1074 ≤ e ∧ e ≤ 971 := by
  have h' : Fp.magnitude x < 2047 * 2 ^ 52 := of_decide_eq_true h
  have hb : Fp.magnitude x / 2 ^ 52 < 2047 := by omega
  have hf : Fp.magnitude x % 2 ^ 52 < 2 ^ 52 := Nat.mod_lt _ (by norm_num)
  unfold Fp.unpack
  simp only [Nat.ne_of_lt hb, if_false]
  by_cases h0 : Fp.magnitude x / 2 ^ 52 = 0
  · refine ⟨_, _, by rw [if_pos h0], by omega, by omega, by omega⟩
  · refine ⟨_, _, by rw [if_neg h0], by omega, by omega, by omega⟩

theorem Fp.toRat_of_unpack {x : F64} {neg : Bool} {m : Nat} {e : Int} (h : Fp.unpack x = .fin neg m e) :
    Fp.toRat x = Fp.sign neg * (m * 2 ^ e) := by
  simp [Fp.toRat, h]

/-- The value of a pattern built from a unit `2^q` and a significand: what `Fp.round` builds. -/
theorem Fp.unpack_pack {neg : Bool} {q : Int} {sig : Nat} (hq : -1074 ≤ q) (hs : sig ≤ 2 ^ 53) (hn : -1074 < q → 2 ^ 52 ≤ sig)
    (hm : (q + 1074).toNat * 2 ^ 52 + sig < Fp.infMagnitude) :
    ∃ m e, Fp.unpack (Fp.pack neg ((q + 1074).toNat * 2 ^ 52 + sig)) = .fin neg m e ∧ (m : ℚ) * 2 ^ e = sig * 2 ^ q := by
  have hm' : (q + 1074).toNat * 2 ^ 52 + sig < 2047 * 2 ^ 52 := hm
  have h63 : (q + 1074).toNat * 2 ^ 52 + sig < 2 ^ 63 := by omega
  unfold Fp.unpack
  rw [Fp.magnitude_pack neg h63, Fp.signBit_pack neg h63]
  generalize hk : (q + 1074).toNat = k at *
  have hqk : q = (k : Int) - 1074 := by omega
  rcases Nat.lt_or_ge sig (2 ^ 52) with h | h
  · have hk0 : k = 0 := by
      by_contra hne
      have := hn (by omega)
      omega
    subst hk0
    have hd : (0 * 2 ^ 52 + sig) / 2 ^ 52 = 0 := by omega
    have hmod : (0 * 2 ^ 52 + sig) % 2 ^ 52 = sig := by omega
    refine ⟨sig, -1074, by simp only [hd, hmod]; simp, by rw [hqk]; norm_num⟩
  · rcases Nat.lt_or_ge sig (2 ^ 53) with h2 | h2
    · have hd : (k * 2 ^ 52 + sig) / 2 ^ 52 = k + 1 := by omega
      have hmod : (k * 2 ^ 52 + sig) % 2 ^ 52 = sig - 2 ^ 52 := by omega
      refine ⟨2 ^ 52 + (sig - 2 ^ 52), ((k + 1 : Nat) : Int) - 1075, ?_, ?_⟩
      · simp only [hd, hmod]
        rw [if_neg (by omega), if_neg (by omega)]
      · have e1 : 2 ^ 52 + (sig - 2 ^ 52) = sig := by omega
        have e2 : ((k + 1 : Nat) : Int) - 1075 = q := by rw [hqk]; push_cast; ring
        rw [e1, e2]
    · have hs' : sig = 2 ^ 53 := by omega
      subst hs'
      have hd : (k * 2 ^ 52 + 2 ^ 53) / 2 ^ 52 = k + 2 := by omega
      have hmod : (k * 2 ^ 52 + 2 ^ 53) % 2 ^ 52 = 0 := by omega
      refine ⟨2 ^ 52 + 0, ((k + 2 : Nat) : Int) - 1075, ?_, ?_⟩
      · simp only [hd, hmod]
        rw [if_neg (by omega), if_neg (by omega)]
      · have e2 : ((k + 2 : Nat) : Int) - 1075 = q + 1 := by rw [hqk]; push_cast; ring
        rw [e2, zpow_add_one₀ (by norm_num)]
        push_cast
        ring

theorem Fp.toRat_pack {neg : Bool} {q : Int} {sig : Nat} (hq : -1074 ≤ q) (hs : sig ≤ 2 ^ 53) (hn : -1074 < q → 2 ^ 52 ≤ sig)
    (hm : (q + 1074).toNat * 2 ^ 52 + sig < Fp.infMagnitude) :
    Fp.toRat (Fp.pack neg ((q + 1074).toNat * 2 ^ 52 + sig)) = Fp.sign neg * (sig * 2 ^ q) := by
  obtain ⟨m, e, h, hv⟩ := Fp.unpack_pack (neg := neg) hq hs hn hm
  rw [Fp.toRat_of_unpack h, hv]

/-! ### Rounding to nearest, ties to even -/

/-- An integer within a half of `a` is no further from `a` than any other integer; if another is as close, both are at a half. -/
theorem Fp.nearest_integer {a : ℝ} {sig : Int} (h : |a - sig| ≤ 1 / 2) (z : Int) :
    |a - sig| ≤ |a - z| ∧ (z ≠ sig → |a - z| = |a - sig| → |a - sig| = 1 / 2) := by
  by_cases hz : z = sig
  · subst hz
    exact ⟨le_refl _, fun h => absurd rfl h⟩
  · have h1 : (1 : ℝ) ≤ |(z : ℝ) - sig| := by
      have : (1 : Int) ≤ |z - sig| := Int.one_le_abs (sub_ne_zero.mpr hz)
      exact_mod_cast this
    have h2 : |(z : ℝ) - sig| ≤ |a - z| + |a - sig| := by
      have := abs_sub_le (z : ℝ) a sig
      rwa [abs_sub_comm (z : ℝ) a] at this
    exact ⟨by linarith, fun _ he => by linarith⟩

/-- A finite pattern's value is a sign times `n · 2^f` with `n < 2^53` and `f ≥ -1074`. -/
theorem Fp.toRat_of_finite {c : F64} (h : Fp.isFinite c = true) :
    ∃ (n : Nat) (f : Int), n < 2 ^ 53 ∧ -1074 ≤ f ∧ Fp.toRat c = Fp.sign (Fp.signBit c) * (n * 2 ^ f) := by
  obtain ⟨n, f, hu, hn, hf, -⟩ := Fp.unpack_of_finite h
  exact ⟨n, f, hn, hf, Fp.toRat_of_unpack hu⟩

theorem Fp.sign_cases (neg : Bool) : Fp.sign neg = 1 ∨ Fp.sign neg = -1 := by
  cases neg <;> simp [Fp.sign]

theorem Fp.sign_mul_self (neg : Bool) : Fp.sign neg * Fp.sign neg = 1 := by
  cases neg <;> simp [Fp.sign]

theorem Fp.abs_sign (neg : Bool) : |(Fp.sign neg : ℝ)| = 1 := by
  cases neg <;> simp [Fp.sign]

theorem Fp.abs_sign_mul (neg : Bool) (x : ℝ) : |(Fp.sign neg : ℝ) * x| = |x| := by
  rw [abs_mul, Fp.abs_sign, one_mul]

/-- A finite value seen from the side of a sign, in units of `2^q`: a whole number of them, or less than `2^52` of them when its own unit is smaller. -/
theorem Fp.finite_in_units {c : F64} (h : Fp.isFinite c = true) (neg : Bool) (q : Int) :
    (∃ z : Int, (Fp.toRat c : ℝ) = (Fp.sign neg : ℝ) * (z * 2 ^ q)) ∨
    (-1074 < q ∧ ∃ y : ℝ, (Fp.toRat c : ℝ) = (Fp.sign neg : ℝ) * (y * 2 ^ q) ∧ y < 2 ^ 52) := by
  obtain ⟨n, f, hn, hf, hv⟩ := Fp.toRat_of_finite h
  have hss : ((Fp.sign neg : ℚ) : ℝ) * ((Fp.sign neg : ℚ) : ℝ) = 1 := by
    exact_mod_cast Fp.sign_mul_self neg
  have hval : (Fp.toRat c : ℝ) = ((Fp.sign (Fp.signBit c) : ℚ) : ℝ) * ((n : ℝ) * 2 ^ f) := by
    rw [hv]; push_cast; ring
  set t : ℚ := Fp.sign neg * Fp.sign (Fp.signBit c) with ht
  have htc : (Fp.toRat c : ℝ) = (Fp.sign neg : ℝ) * ((t : ℝ) * ((n : ℝ) * 2 ^ f)) := by
    rw [hval, ht]; push_cast
    linear_combination (-(((Fp.sign (Fp.signBit c) : ℚ) : ℝ) * ((n : ℝ) * 2 ^ f))) * hss
  have ht1 : t = 1 ∨ t = -1 := by
    rw [ht]
    rcases Fp.sign_cases neg with h1 | h1 <;> rcases Fp.sign_cases (Fp.signBit c) with h2 | h2 <;> rw [h1, h2] <;> norm_num
  rcases le_or_gt q f with hqf | hqf
  · left
    obtain ⟨j, hj⟩ := Int.eq_ofNat_of_zero_le (sub_nonneg.mpr hqf)
    have hpow : (2 : ℝ) ^ f = 2 ^ j * 2 ^ q := by
      have : f = (j : Int) + q := by omega
      rw [this, zpow_add₀ (by norm_num), zpow_natCast]
    rcases ht1 with h1 | h1
    · refine ⟨(n : Int) * 2 ^ j, ?_⟩
      rw [htc, h1, hpow]; push_cast; ring
    · refine ⟨-((n : Int) * 2 ^ j), ?_⟩
      rw [htc, h1, hpow]; push_cast; ring
  · right
    refine ⟨by omega, (t : ℝ) * ((n : ℝ) * 2 ^ (f - q)), ?_, ?_⟩
    · rw [htc, zpow_sub₀ (by norm_num)]
      have : (2 : ℝ) ^ q ≠ 0 := by positivity
      field_simp
    · have hp : (2 : ℝ) ^ (f - q) ≤ 1 / 2 := by
        have : (2 : ℝ) ^ (f - q) ≤ 2 ^ (-1 : Int) := zpow_le_zpow_right₀ (by norm_num) (by omega)
        rwa [zpow_neg_one, ← one_div] at this
      have hpos : (0 : ℝ) < 2 ^ (f - q) := by positivity
      have hn' : (n : ℝ) ≤ 2 ^ 53 - 1 := by
        have h3 : ((n + 1 : ℕ) : ℝ) ≤ ((2 ^ 53 : ℕ) : ℝ) := by exact_mod_cast hn
        push_cast at h3
        linarith
      have hn0 : (0 : ℝ) ≤ n := by positivity
      have hprod : (n : ℝ) * 2 ^ (f - q) < 2 ^ 52 := by
        calc (n : ℝ) * 2 ^ (f - q) ≤ (2 ^ 53 - 1) * (1 / 2) := by gcongr
          _ < 2 ^ 52 := by norm_num
      have hprod0 : 0 ≤ (n : ℝ) * 2 ^ (f - q) := by positivity
      rcases ht1 with h1 | h1 <;> rw [h1] <;> push_cast <;> linarith

theorem Fp.overflow_eq : (Fp.overflow : ℝ) = (2 ^ 54 - 1) * 2 ^ (970 : Int) := by
  rw [Fp.overflow, zpow_ofNat, show (1024 : ℕ) = 54 + 970 from rfl, pow_add]
  generalize (970 : ℕ) = n
  push_cast
  ring

theorem Fp.overflow_pos : (0 : ℝ) < Fp.overflow := by
  rw [Fp.overflow_eq]
  have : (0 : ℝ) < 2 ^ (970 : Int) := by positivity
  exact mul_pos (by norm_num) this

/-- The rounding core: a magnitude `x` whose distance from `sig` units of `2^q` is at most half a unit, and then `sig` even, with `2^q` the unit in the
last place of `x`, rounds to the pattern built from `q` and `sig`. -/
theorem Fp.nearestEven_pack {neg : Bool} {x : ℝ} {q : Int} {sig : Nat} (hx : 0 ≤ x) (hq : -1074 ≤ q)
    (hnear : |x / 2 ^ q - sig| ≤ 1 / 2) (htie : |x / 2 ^ q - sig| = 1 / 2 → sig % 2 = 0)
    (hlow : -1074 < q → 2 ^ 52 ≤ x / 2 ^ q) (hhigh : x / 2 ^ q < 2 ^ 53) :
    Fp.NearestEven ((Fp.sign neg : ℝ) * x) (Fp.pack neg (min ((q + 1074).toNat * 2 ^ 52 + sig) Fp.infMagnitude)) := by
  have hu : (0 : ℝ) < 2 ^ q := by positivity
  set a : ℝ := x / 2 ^ q with ha
  have hxa : x = a * 2 ^ q := by rw [ha]; field_simp
  have ⟨hn1, hn2⟩ := abs_le.mp hnear
  have hs : sig ≤ 2 ^ 53 := by
    have : (sig : ℝ) < 2 ^ 53 + 1 := by linarith
    have h2 : ((sig : ℕ) : ℝ) < ((2 ^ 53 + 1 : ℕ) : ℝ) := by push_cast; linarith
    have h3 : sig < 2 ^ 53 + 1 := by exact_mod_cast h2
    omega
  have hn : -1074 < q → 2 ^ 52 ≤ sig := by
    intro h
    have h1 := hlow h
    have h2 : ((2 ^ 52 : ℕ) : ℝ) < ((sig + 1 : ℕ) : ℝ) := by push_cast; linarith
    have h3 : 2 ^ 52 < sig + 1 := by exact_mod_cast h2
    omega
  have hinf : Fp.infMagnitude = 2047 * 2 ^ 52 := rfl
  -- the magnitude reaches infinity exactly when `x` reaches the overflow threshold
  have hover : (Fp.overflow : ℝ) ≤ x ↔ Fp.infMagnitude ≤ (q + 1074).toNat * 2 ^ 52 + sig := by
    have hov := Fp.overflow_eq
    have hw : (0 : ℝ) < 2 ^ (970 : Int) := by positivity
    have hw1 : (2 : ℝ) ^ (971 : Int) = 2 * 2 ^ (970 : Int) := by
      rw [show (971 : Int) = 1 + 970 from rfl, zpow_add₀ (by norm_num), zpow_one]
    have hw2 : (2 : ℝ) ^ (972 : Int) = 4 * 2 ^ (970 : Int) := by
      rw [show (972 : Int) = 2 + 970 from rfl, zpow_add₀ (by norm_num)]
      norm_num
    generalize (2 : ℝ) ^ (970 : Int) = w at *
    rcases lt_trichotomy q 971 with hlt | heq | hgt
    · have h1 : x < 2 ^ 53 * w := by
        rw [hxa]
        have h970 : (2 : ℝ) ^ (q + 1) ≤ 2 * w := hw1 ▸ zpow_le_zpow_right₀ (by norm_num) (by omega)
        rw [zpow_add_one₀ (by norm_num)] at h970
        have hqw : (2 : ℝ) ^ q ≤ w := by linarith
        have ha0 : 0 ≤ a := by rw [ha]; positivity
        calc a * 2 ^ q ≤ a * w := by gcongr
          _ < 2 ^ 53 * w := by gcongr
      have h2 : (2 : ℝ) ^ 53 * w ≤ (2 ^ 54 - 1) * w := mul_le_mul_of_nonneg_right (by norm_num) hw.le
      constructor
      · intro h; rw [hov] at h; exact absurd h (not_le.mpr (lt_of_lt_of_le h1 h2))
      · intro h; rw [hinf] at h; omega
    · subst heq
      have h4 : ((971 : Int) + 1074).toNat = 2045 := rfl
      have hov' : (2 ^ 54 - 1) * w = (2 ^ 53 - 1 / 2) * (2 : ℝ) ^ (971 : Int) := by rw [hw1]; ring
      rw [hov, hov', hxa, h4, hinf]
      have h5 : (2045 * 2 ^ 52 + sig ≥ 2047 * 2 ^ 52) ↔ sig = 2 ^ 53 := by omega
      rw [show (2047 * 2 ^ 52 ≤ 2045 * 2 ^ 52 + sig) ↔ sig = 2 ^ 53 from h5, mul_le_mul_iff_left₀ hu]
      constructor
      · intro h
        by_contra hne
        have h6 : sig ≤ 2 ^ 53 - 1 := by omega
        have h7 : (sig : ℝ) ≤ 2 ^ 53 - 1 := by
          have : ((sig + 1 : ℕ) : ℝ) ≤ ((2 ^ 53 : ℕ) : ℝ) := by exact_mod_cast (by omega : sig + 1 ≤ 2 ^ 53)
          push_cast at this
          linarith
        have h8 : a - sig = 1 / 2 := by linarith
        have h9 : (sig : ℝ) = 2 ^ 53 - 1 := by linarith
        have h10 : sig = 2 ^ 53 - 1 := by
          have : ((sig + 1 : ℕ) : ℝ) = ((2 ^ 53 : ℕ) : ℝ) := by push_cast; linarith
          have : sig + 1 = 2 ^ 53 := by exact_mod_cast this
          omega
        have := htie (by rw [h8]; norm_num)
        omega
      · intro h
        have : (sig : ℝ) = 2 ^ 53 := by rw [h]; norm_num
        linarith
    · have h1 := hlow (by omega)
      have h2 : 4 * w ≤ 2 ^ q := hw2 ▸ zpow_le_zpow_right₀ (by norm_num) (by omega)
      have h3 : (2 : ℝ) ^ 52 * (4 * w) ≤ x := by
        rw [hxa]
        have ha0 : 0 ≤ a := by rw [ha]; positivity
        gcongr
      have h4 : (2 ^ 54 - 1) * w ≤ (2 : ℝ) ^ 52 * (4 * w) := by
        have : (2 : ℝ) ^ 52 * (4 * w) = 2 ^ 54 * w := by ring
        rw [this]; exact mul_le_mul_of_nonneg_right (by norm_num) hw.le
      have h5 := hn (by omega)
      constructor
      · intro _; rw [hinf]; omega
      · intro _; rw [hov]; exact h4.trans h3
  have hsx : ∀ y : ℝ, |(Fp.sign neg : ℝ) * x - (Fp.sign neg : ℝ) * y| = |x - y| := by
    intro y; rw [← mul_sub, Fp.abs_sign_mul]
  have hunits : ∀ y : ℝ, |x - y * 2 ^ q| = |a - y| * 2 ^ q := by
    intro y; rw [hxa, ← sub_mul, abs_mul, abs_of_pos hu]
  refine ⟨?_, ?_, ?_⟩
  · intro hb
    have hb' : ¬ (Fp.overflow : ℝ) ≤ x := by
      rw [Fp.abs_sign_mul, abs_of_nonneg hx] at hb
      exact not_le.mpr hb
    have hm : (q + 1074).toNat * 2 ^ 52 + sig < Fp.infMagnitude := not_le.mp (fun h => hb' (hover.mpr h))
    rw [min_eq_left hm.le]
    have h63 : (q + 1074).toNat * 2 ^ 52 + sig < 2 ^ 63 := by rw [hinf] at hm; omega
    have hr : ((Fp.toRat (Fp.pack neg ((q + 1074).toNat * 2 ^ 52 + sig)) : ℚ) : ℝ) = (Fp.sign neg : ℝ) * (sig * 2 ^ q) := by
      rw [Fp.toRat_pack hq hs hn hm]; push_cast; ring
    have hcore := fun z : Int => Fp.nearest_integer (a := a) (sig := (sig : Int)) (by push_cast; exact hnear) z
    push_cast at hcore
    have hlast : (Fp.pack neg ((q + 1074).toNat * 2 ^ 52 + sig)).getLsbD 0 = decide (sig % 2 = 1) := by
      rw [Fp.lowBit_pack neg h63]; congr 1; apply propext; omega
    refine ⟨by unfold Fp.isFinite; rw [Fp.magnitude_pack neg h63]; exact decide_eq_true hm, ?_, ?_⟩
    · intro c hc
      rw [hr, hsx, hunits]
      rcases Fp.finite_in_units hc neg q with ⟨z, hz⟩ | ⟨hq', y, hy, hyl⟩
      · rw [hz, hsx, hunits]
        exact mul_le_mul_of_nonneg_right (hcore z).1 hu.le
      · rw [hy, hsx, hunits]
        have h1 := hlow hq'
        have h2 : |a - sig| ≤ |a - 2 ^ 52| := by exact_mod_cast (hcore ((2 : Int) ^ (52 : ℕ))).1
        rw [abs_of_nonneg (by linarith : (0 : ℝ) ≤ a - 2 ^ 52)] at h2
        refine mul_le_mul_of_nonneg_right ?_ hu.le
        rw [abs_of_nonneg (by linarith : (0 : ℝ) ≤ a - y)]
        linarith
    · intro c hc hne heq
      rw [hlast]
      rw [hr, hsx, hunits] at heq
      rw [decide_eq_false_iff_not]
      suffices hhalf : |a - sig| = 1 / 2 by have := htie hhalf; omega
      rcases Fp.finite_in_units hc neg q with ⟨z, hz⟩ | ⟨hq', y, hy, hyl⟩
      · rw [hz, hsx, hunits] at heq
        refine (hcore z).2 ?_ (mul_right_cancel₀ hu.ne' heq)
        intro hzs
        apply hne
        have : ((Fp.toRat c : ℚ) : ℝ) = ((Fp.toRat (Fp.pack neg ((q + 1074).toNat * 2 ^ 52 + sig)) : ℚ) : ℝ) := by
          rw [hz, hr, hzs]; push_cast; ring
        exact_mod_cast this
      · rw [hy, hsx, hunits] at heq
        have h0 := mul_right_cancel₀ hu.ne' heq
        have h1 := hlow hq'
        have h2 : |a - sig| ≤ |a - 2 ^ 52| := by exact_mod_cast (hcore ((2 : Int) ^ (52 : ℕ))).1
        rw [abs_of_nonneg (by linarith : (0 : ℝ) ≤ a - 2 ^ 52)] at h2
        rw [abs_of_nonneg (by linarith : (0 : ℝ) ≤ a - y)] at h0
        linarith
  · intro hb
    cases neg with
    | false =>
      have hb' : (Fp.overflow : ℝ) ≤ x := by simpa [Fp.sign] using hb
      rw [min_eq_right (hover.mp hb'), Fp.infinity]
    | true =>
      have h0 := Fp.overflow_pos
      simp [Fp.sign] at hb
      linarith
  · intro hb
    cases neg with
    | true =>
      have hb' : (Fp.overflow : ℝ) ≤ x := by
        simp [Fp.sign] at hb
        linarith
      rw [min_eq_right (hover.mp hb'), Fp.infinity]
    | false =>
      have h0 := Fp.overflow_pos
      simp [Fp.sign] at hb
      linarith

/-- `halfEven m k` is within half of `2^k` of `m`, and even when it is exactly half away. -/
theorem Fp.halfEven_spec (m k : Nat) :
    2 * (Fp.halfEven m k * 2 ^ k) ≤ 2 * m + 2 ^ k ∧ 2 * m ≤ 2 * (Fp.halfEven m k * 2 ^ k) + 2 ^ k ∧
    ((2 * (Fp.halfEven m k * 2 ^ k) = 2 * m + 2 ^ k ∨ 2 * m = 2 * (Fp.halfEven m k * 2 ^ k) + 2 ^ k) → Fp.halfEven m k % 2 = 0) := by
  have hdiv : 2 ^ k * (m / 2 ^ k) + m % 2 ^ k = m := Nat.div_add_mod m (2 ^ k)
  have hlt : m % 2 ^ k < 2 ^ k := Nat.mod_lt _ (by positivity)
  unfold Fp.halfEven
  simp only
  generalize hq : m / 2 ^ k = q at *
  generalize hr : m % 2 ^ k = r at *
  generalize 2 ^ k = d at *
  split
  · rename_i h
    have e1 : (q + 1) * d = q * d + d := by ring
    have e2 : d * q = q * d := by ring
    rw [e1]
    refine ⟨by omega, by omega, fun h' => by omega⟩
  · rename_i h
    have e2 : d * q = q * d := by ring
    refine ⟨by omega, by omega, fun h' => by omega⟩

/-- What `Fp.round` answers stands for the nearest-even rounding of any `t · 2^e` that its magnitude `m · 2^e` stands for: `t` itself, or, with `m` odd
and of at least 54 bits, any number within one of `m` (a sticky bit). -/
theorem Fp.round_nearest {neg : Bool} {m : Nat} {e : Int} {t : ℝ} (hm : m ≠ 0)
    (ht : t = m ∨ (m % 2 = 1 ∧ |t - m| < 1 ∧ 2 ^ 54 ≤ m)) :
    Fp.NearestEven ((Fp.sign neg : ℝ) * (t * 2 ^ e)) (Fp.round neg m e) := by
  have hl1 : 2 ^ m.log2 ≤ m := Nat.log2_self_le hm
  have hl2 : m < 2 ^ (m.log2 + 1) := Nat.lt_log2_self
  have ht0 : 0 ≤ t := by
    rcases ht with h | ⟨_, h, h54⟩
    · rw [h]; positivity
    · have h1 : (1 : ℝ) ≤ m := by exact_mod_cast Nat.one_le_iff_ne_zero.mpr hm
      have := (abs_lt.mp h).1
      linarith
  unfold Fp.round
  rw [if_neg hm]
  set q := Fp.ulpExp m e with hqdef
  have hq1074 : -1074 ≤ q := le_max_right _ _
  have hqlow : e + m.log2 - 52 ≤ q := le_max_left _ _
  have hqeq : -1074 < q → q = e + m.log2 - 52 := by
    intro h
    rw [hqdef, Fp.ulpExp] at h ⊢
    omega
  have hx : 0 ≤ t * (2 : ℝ) ^ e := by positivity
  by_cases hqe : q ≤ e
  · -- the unit is no larger than the operand's: the value is exact
    have hlog : m.log2 ≤ 52 := by omega
    have htm : t = m := by
      rcases ht with h | ⟨_, _, h54⟩
      · exact h
      · have : 2 ^ 54 < 2 ^ (m.log2 + 1) := lt_of_le_of_lt h54 hl2
        have := (Nat.pow_lt_pow_iff_right (by norm_num : 1 < 2)).mp this
        omega
    obtain ⟨j, hj⟩ := Int.eq_ofNat_of_zero_le (sub_nonneg.mpr hqe)
    have hval : t * (2 : ℝ) ^ e / 2 ^ q = ((m * 2 ^ j : ℕ) : ℝ) := by
      have : e = (j : Int) + q := by omega
      rw [htm, this, zpow_add₀ (by norm_num), zpow_natCast]
      have hne : (2 : ℝ) ^ q ≠ 0 := by positivity
      push_cast
      field_simp
    have hj' : (e - q).toNat = j := by omega
    simp only [if_pos hqe, hj']
    have hjlog : m.log2 + j ≤ 52 := by omega
    apply Fp.nearestEven_pack hx hq1074
    · rw [hval]; norm_num
    · rw [hval]; intro h; norm_num at h
    · intro h
      have hjlog' : m.log2 + j = 52 := by have := hqeq h; omega
      rw [hval]
      have : 2 ^ 52 ≤ m * 2 ^ j := by
        rw [← hjlog', pow_add]; exact Nat.mul_le_mul_right _ hl1
      exact_mod_cast this
    · rw [hval]
      have : m * 2 ^ j < 2 ^ 53 := by
        calc m * 2 ^ j < 2 ^ (m.log2 + 1) * 2 ^ j := Nat.mul_lt_mul_of_pos_right hl2 (by positivity)
          _ = 2 ^ (m.log2 + j + 1) := by rw [← pow_add]; congr 1; ring
          _ ≤ 2 ^ 53 := Nat.pow_le_pow_right (by norm_num) (by omega)
      exact_mod_cast this
  · -- bits are dropped
    push Not at hqe
    obtain ⟨k, hk⟩ := Int.eq_ofNat_of_zero_le (sub_nonneg.mpr hqe.le)
    have hk' : (q - e).toNat = k := by omega
    have hk1 : 1 ≤ k := by omega
    have hd : (0 : ℝ) < 2 ^ k := by positivity
    have hval : t * (2 : ℝ) ^ e / 2 ^ q = t / 2 ^ k := by
      have : q = (k : Int) + e := by omega
      rw [this, zpow_add₀ (by norm_num), zpow_natCast]
      have hne : (2 : ℝ) ^ e ≠ 0 := by positivity
      field_simp
    simp only [if_neg (not_le.mpr hqe), hk']
    obtain ⟨hs1, hs2, hs3⟩ := Fp.halfEven_spec m k
    set sig := Fp.halfEven m k with hsig
    have hlogk : m.log2 ≤ 52 + k := by omega
    have hlo : -1074 < q → 2 ^ 52 * 2 ^ k ≤ m := by
      intro h
      have : m.log2 = 52 + k := by have := hqeq h; omega
      rw [← pow_add, ← this]; exact hl1
    have hhi : m < 2 ^ 53 * 2 ^ k := by
      calc m < 2 ^ (m.log2 + 1) := hl2
        _ ≤ 2 ^ (53 + k) := Nat.pow_le_pow_right (by norm_num) (by omega)
        _ = 2 ^ 53 * 2 ^ k := by rw [pow_add]
    have habs : |t / 2 ^ k - sig| = |t - sig * 2 ^ k| / 2 ^ k := by
      rw [← abs_of_pos hd, ← abs_div, abs_of_pos hd]; congr 1; field_simp
    -- the distance of `t`, and the bounds on `t`, from those of `m`
    have key : |t - sig * 2 ^ k| ≤ 2 ^ k / 2 ∧ (|t - sig * 2 ^ k| = 2 ^ k / 2 → sig % 2 = 0) ∧
        (-1074 < q → 2 ^ 52 * 2 ^ k ≤ t) ∧ t < 2 ^ 53 * 2 ^ k := by
      have hs1' : 2 * ((sig : ℝ) * 2 ^ k) ≤ 2 * m + 2 ^ k := by exact_mod_cast hs1
      have hs2' : 2 * (m : ℝ) ≤ 2 * (sig * 2 ^ k) + 2 ^ k := by exact_mod_cast hs2
      rcases ht with h | ⟨hodd, hlt, h54⟩
      · subst h
        refine ⟨abs_le.mpr ⟨by linarith, by linarith⟩, ?_, ?_, by exact_mod_cast hhi⟩
        · intro h
          apply hs3
          rcases abs_eq (by positivity) |>.mp h with h1 | h1
          · right
            have : 2 * (m : ℝ) = 2 * (sig * 2 ^ k) + 2 ^ k := by linarith
            exact_mod_cast this
          · left
            have : 2 * ((sig : ℝ) * 2 ^ k) = 2 * m + 2 ^ k := by linarith
            exact_mod_cast this
        · intro h; exact_mod_cast hlo h
      · have hk2 : 2 ≤ k := by
          have : 2 ^ 54 < 2 ^ (m.log2 + 1) := lt_of_le_of_lt h54 hl2
          have := (Nat.pow_lt_pow_iff_right (by norm_num : 1 < 2)).mp this
          omega
        obtain ⟨d, hd4⟩ : ∃ d, 2 ^ k = 4 * d := by
          obtain ⟨j, rfl⟩ := Nat.exists_eq_add_of_le hk2
          exact ⟨2 ^ j, by rw [pow_add]; norm_num⟩
        obtain ⟨hl, hr⟩ := abs_lt.mp hlt
        have hmul : ∃ c, sig * 2 ^ k = 4 * c := ⟨sig * d, by rw [hd4]; ring⟩
        obtain ⟨c, hc⟩ := hmul
        have h1 : sig * 2 ^ k + 1 ≤ m + 2 * d := by rw [hd4] at hs1 hs2 hc ⊢; omega
        have h2 : m + 1 ≤ sig * 2 ^ k + 2 * d := by rw [hd4] at hs1 hs2 hc ⊢; omega
        have hdr : (2 : ℝ) ^ k = 4 * d := by exact_mod_cast hd4
        have h1' : (sig : ℝ) * 2 ^ k + 1 ≤ m + 2 * d := by exact_mod_cast h1
        have h2' : (m : ℝ) + 1 ≤ sig * 2 ^ k + 2 * d := by exact_mod_cast h2
        have hstrict : |t - sig * 2 ^ k| < 2 ^ k / 2 := abs_lt.mpr ⟨by rw [hdr] at *; linarith, by rw [hdr] at *; linarith⟩
        refine ⟨hstrict.le, fun h => absurd h hstrict.ne, ?_, ?_⟩
        · intro h
          have h3 := hlo h
          have h4 : 2 ^ 52 * 2 ^ k + 1 ≤ m := by rw [hd4] at h3 ⊢; omega
          have h4' : (2 : ℝ) ^ 52 * 2 ^ k + 1 ≤ m := by exact_mod_cast h4
          linarith
        · have h4 : m + 1 ≤ 2 ^ 53 * 2 ^ k := hhi
          have h4' : (m : ℝ) + 1 ≤ 2 ^ 53 * 2 ^ k := by exact_mod_cast h4
          linarith
    obtain ⟨k1, k2, k3, k4⟩ := key
    apply Fp.nearestEven_pack hx hq1074
    · rw [hval, habs, div_le_iff₀ hd]; linarith
    · rw [hval, habs, div_eq_iff hd.ne']; intro h; exact k2 (by linarith)
    · intro h; rw [hval, le_div_iff₀ hd]; exact k3 h
    · rw [hval, div_lt_iff₀ hd]; exact k4

end Sys2Proof.Machine
end

