-- ==== Sys2Proof/Laws/FloatOrder.lean ====
section
/-! SUPPORT. The finite binary64 values as numbers: what is exact, the order of patterns, and what rounding to nearest keeps. -/

namespace Sys2Proof.Machine

/-! ### Exact values -/

@[simp] theorem Fp.toRat_zero (neg : Bool) : Fp.toRat (Fp.zero neg) = 0 := by
  have h : Fp.unpack (Fp.zero neg) = .fin neg 0 (-1074) := by
    cases neg <;> decide
  rw [Fp.toRat_of_unpack h]
  simp

@[simp] theorem Fp.isFinite_zero (neg : Bool) : Fp.isFinite (Fp.zero neg) = true := by
  cases neg <;> decide

/-- A value of fewer than `2^53` units is exact. -/
theorem Fp.round_exact (neg : Bool) {m : Nat} {e : Int} (hm : m < 2 ^ 53) (h1 : -1074 ≤ e) (h2 : e ≤ 971) :
    Fp.isFinite (Fp.round neg m e) = true ∧ Fp.toRat (Fp.round neg m e) = Fp.sign neg * (m * 2 ^ e) := by
  by_cases h0 : m = 0
  · subst h0
    simp [Fp.round]
  · have hl1 : 2 ^ m.log2 ≤ m := Nat.log2_self_le h0
    have hl2 : m < 2 ^ (m.log2 + 1) := Nat.lt_log2_self
    have hl3 : m.log2 < 53 := (Nat.pow_lt_pow_iff_right (by norm_num)).mp (lt_of_le_of_lt hl1 hm)
    have hqe : Fp.ulpExp m e ≤ e := by
      unfold Fp.ulpExp
      omega
    have hq : -1074 ≤ Fp.ulpExp m e := le_max_right _ _
    have hql : e + m.log2 - 52 ≤ Fp.ulpExp m e := le_max_left _ _
    have hqc : -1074 < Fp.ulpExp m e → Fp.ulpExp m e = e + m.log2 - 52 := by
      unfold Fp.ulpExp
      omega
    unfold Fp.round
    rw [if_neg h0]
    simp only [if_pos hqe]
    generalize Fp.ulpExp m e = q at *
    obtain ⟨d, hd⟩ := Int.eq_ofNat_of_zero_le (sub_nonneg.mpr hqe)
    have hdn : (e - q).toNat = d := by omega
    rw [hdn]
    have hsig : m * 2 ^ d < 2 ^ 53 := by
      calc m * 2 ^ d < 2 ^ (m.log2 + 1) * 2 ^ d := by gcongr
        _ = 2 ^ (d + m.log2 + 1) := by rw [← pow_add]; congr 1; omega
        _ ≤ 2 ^ 53 := Nat.pow_le_pow_right (by norm_num) (by omega)
    have hlow : -1074 < q → 2 ^ 52 ≤ m * 2 ^ d := by
      intro hq'
      have := hqc hq'
      calc 2 ^ 52 = 2 ^ m.log2 * 2 ^ d := by rw [← pow_add]; congr 1; omega
        _ ≤ m * 2 ^ d := by gcongr
    have hmag : (q + 1074).toNat * 2 ^ 52 + m * 2 ^ d < Fp.infMagnitude := by
      have hinf : Fp.infMagnitude = 2047 * 2 ^ 52 := rfl
      have : q ≤ 971 := hqe.trans h2
      rw [hinf]
      omega
    rw [min_eq_left hmag.le]
    have h63 : (q + 1074).toNat * 2 ^ 52 + m * 2 ^ d < 2 ^ 63 := by
      have hinf : Fp.infMagnitude = 2047 * 2 ^ 52 := rfl
      omega
    refine ⟨by unfold Fp.isFinite; rw [Fp.magnitude_pack neg h63]; exact decide_eq_true hmag, ?_⟩
    rw [Fp.toRat_pack hq hsig.le hlow hmag]
    have he : e = d + q := by omega
    rw [he, zpow_add₀ (by norm_num), zpow_natCast]
    push_cast
    ring

/-! ### Negation -/

@[simp] theorem Fp.magnitude_neg (x : F64) : Fp.magnitude (Fp.neg x) = Fp.magnitude x := by
  have h : ∀ y : F64, Fp.magnitude y = (y.setWidth 63).toNat := fun y => by simp [Fp.magnitude]
  rw [h, h]
  congr 1
  unfold Fp.neg
  rw [BitVec.setWidth_xor, show (1#64 <<< 63).setWidth 63 = 0#63 from by decide, BitVec.xor_zero]

@[simp] theorem Fp.signBit_neg (x : F64) : Fp.signBit (Fp.neg x) = !Fp.signBit x := by
  unfold Fp.signBit Fp.neg
  rw [BitVec.getLsbD_xor]
  simp

@[simp] theorem Fp.isFinite_neg (x : F64) : Fp.isFinite (Fp.neg x) = Fp.isFinite x := by
  simp [Fp.isFinite]

/-- The value in terms of the sign and of a nonnegative function of the magnitude bits. -/
def Fp.magnitudeValue (mag : Nat) : ℚ :=
  if mag / 2 ^ 52 = 0 then (mag % 2 ^ 52 : Nat) * 2 ^ (-1074 : Int)
  else ((2 ^ 52 + mag % 2 ^ 52 : Nat) : ℚ) * 2 ^ (((mag / 2 ^ 52 : Nat) : Int) - 1075)

theorem Fp.toRat_eq {x : F64} (h : Fp.isFinite x = true) : Fp.toRat x = Fp.sign (Fp.signBit x) * Fp.magnitudeValue (Fp.magnitude x) := by
  have h' : Fp.magnitude x < 2047 * 2 ^ 52 := of_decide_eq_true h
  have hb : Fp.magnitude x / 2 ^ 52 ≠ 2047 := by omega
  unfold Fp.toRat Fp.unpack Fp.magnitudeValue
  simp only [hb, if_false]
  split_ifs <;> simp only

@[simp] theorem Fp.toRat_neg {x : F64} (h : Fp.isFinite x = true) : Fp.toRat (Fp.neg x) = -Fp.toRat x := by
  rw [Fp.toRat_eq h, Fp.toRat_eq (by rw [Fp.isFinite_neg]; exact h), Fp.magnitude_neg, Fp.signBit_neg]
  cases Fp.signBit x <;> simp [Fp.sign]

/-! ### The order of patterns is the order of values -/

theorem Fp.magnitudeValue_nonneg (mag : Nat) : 0 ≤ Fp.magnitudeValue mag := by
  unfold Fp.magnitudeValue
  split_ifs <;> positivity

theorem Fp.magnitudeValue_succ (mag : Nat) : Fp.magnitudeValue mag < Fp.magnitudeValue (mag + 1) := by
  unfold Fp.magnitudeValue
  have hp : ∀ e : Int, (0 : ℚ) < 2 ^ e := fun e => by positivity
  have hd := Nat.div_add_mod mag (2 ^ 52)
  have hl : mag % 2 ^ 52 < 2 ^ 52 := Nat.mod_lt _ (by norm_num)
  generalize hk : mag / 2 ^ 52 = k at *
  generalize hr : mag % 2 ^ 52 = r at *
  by_cases hc : r + 1 < 2 ^ 52
  · have h1 : (mag + 1) / 2 ^ 52 = k := by omega
    have h2 : (mag + 1) % 2 ^ 52 = r + 1 := by omega
    rw [h1, h2]
    split_ifs
    · exact mul_lt_mul_of_pos_right (by exact_mod_cast Nat.lt_succ_self r) (hp _)
    · exact mul_lt_mul_of_pos_right (by exact_mod_cast (by omega : 2 ^ 52 + r < 2 ^ 52 + (r + 1))) (hp _)
  · have hr' : r = 2 ^ 52 - 1 := by omega
    have h1 : (mag + 1) / 2 ^ 52 = k + 1 := by omega
    have h2 : (mag + 1) % 2 ^ 52 = 0 := by omega
    rw [h1, h2, hr', if_neg (Nat.succ_ne_zero k)]
    by_cases h0 : k = 0
    · rw [if_pos h0, h0, show (((0 + 1 : Nat) : Int) - 1075) = -1074 from by norm_num]
      exact mul_lt_mul_of_pos_right (by exact_mod_cast (by norm_num : 2 ^ 52 - 1 < 2 ^ 52 + 0)) (hp _)
    · rw [if_neg h0, show (((k + 1 : Nat) : Int) - 1075) = ((k : Int) - 1075) + 1 from by push_cast; ring, zpow_add_one₀ (by norm_num),
        mul_comm ((2 : ℚ) ^ ((k : Int) - 1075)) 2, ← mul_assoc]
      exact mul_lt_mul_of_pos_right (by norm_num) (hp _)

theorem Fp.magnitudeValue_strictMono : StrictMono Fp.magnitudeValue := strictMono_nat_of_lt_succ Fp.magnitudeValue_succ

theorem Fp.magnitudeValue_zero : Fp.magnitudeValue 0 = 0 := by
  simp [Fp.magnitudeValue]

theorem Fp.isNaN_of_finite {x : F64} (h : Fp.isFinite x = true) : Fp.isNaN x = false := by
  have h' : Fp.magnitude x < Fp.infMagnitude := of_decide_eq_true h
  exact decide_eq_false (by omega)

/-- The keys of finite patterns are ordered as their values. -/
theorem Fp.key_lt_iff {x y : F64} (hx : Fp.isFinite x = true) (hy : Fp.isFinite y = true) :
    Fp.key x < Fp.key y ↔ Fp.toRat x < Fp.toRat y := by
  rw [Fp.toRat_eq hx, Fp.toRat_eq hy]
  unfold Fp.key Fp.signed
  generalize Fp.magnitude x = a
  generalize Fp.magnitude y = b
  have hm := Fp.magnitudeValue_strictMono
  have h0 := Fp.magnitudeValue_zero
  have ha := Fp.magnitudeValue_nonneg a
  have hb := Fp.magnitudeValue_nonneg b
  have hz : ∀ c, Fp.magnitudeValue c = 0 ↔ c = 0 := fun c => by
    rw [← h0]
    exact hm.injective.eq_iff
  cases Fp.signBit x <;> cases Fp.signBit y <;> simp only [Fp.sign, if_true, if_false, Bool.false_eq_true, one_mul, neg_mul, neg_lt_neg_iff]
  · rw [hm.lt_iff_lt]
    omega
  · constructor
    · intro h
      omega
    · intro h
      linarith
  · constructor
    · intro h
      rcases eq_or_lt_of_le ha with h1 | h1
      · rcases eq_or_lt_of_le hb with h2 | h2
        · have := (hz a).mp h1.symm
          have := (hz b).mp h2.symm
          omega
        · linarith
      · linarith
    · intro h
      rcases Nat.eq_zero_or_pos a with h1 | h1
      · rcases Nat.eq_zero_or_pos b with h2 | h2
        · rw [h1, h2, h0] at h
          simp at h
        · omega
      · omega
  · rw [hm.lt_iff_lt]
    omega

/-- `<` of finite values (R213, R246). -/
theorem Fp.lt_iff {x y : F64} (hx : Fp.isFinite x = true) (hy : Fp.isFinite y = true) : Fp.lt x y = true ↔ Fp.toRat x < Fp.toRat y := by
  unfold Fp.lt
  rw [Fp.isNaN_of_finite hx, Fp.isNaN_of_finite hy, ← Fp.key_lt_iff hx hy]
  simp

theorem Fp.lt_eq_false_iff {x y : F64} (hx : Fp.isFinite x = true) (hy : Fp.isFinite y = true) :
    Fp.lt x y = false ↔ Fp.toRat y ≤ Fp.toRat x := by
  rw [← Bool.not_eq_true, Fp.lt_iff hx hy, not_lt]

/-- `==` of finite values (R213, R220). -/
theorem Fp.eq_iff {x y : F64} (hx : Fp.isFinite x = true) (hy : Fp.isFinite y = true) : Fp.eq x y = true ↔ Fp.toRat x = Fp.toRat y := by
  unfold Fp.eq
  rw [Fp.isNaN_of_finite hx, Fp.isNaN_of_finite hy]
  have h1 := Fp.key_lt_iff hx hy
  have h2 := Fp.key_lt_iff hy hx
  simp only [Bool.not_false, Bool.true_and, decide_eq_true_eq]
  constructor
  · intro h
    exact le_antisymm (not_lt.mp fun hc => by have := h2.mpr hc; omega) (not_lt.mp fun hc => by have := h1.mpr hc; omega)
  · intro h
    have h3 : ¬ Fp.key x < Fp.key y := fun hc => absurd (h1.mp hc) (by rw [h]; exact lt_irrefl _)
    have h4 : ¬ Fp.key y < Fp.key x := fun hc => absurd (h2.mp hc) (by rw [h]; exact lt_irrefl _)
    omega

/-! ### Rounding to nearest -/

/-- Every finite value is below the overflow threshold. -/
theorem Fp.finite_lt_overflow {c : F64} (h : Fp.isFinite c = true) : |(Fp.toRat c : ℝ)| < Fp.overflow := by
  obtain ⟨m, e, hu, hm, _, he⟩ := Fp.unpack_of_finite h
  have hw : (0 : ℝ) < 2 ^ (970 : Int) := by positivity
  have he' : (2 : ℝ) ^ e ≤ 2 * 2 ^ (970 : Int) := by
    have h1 : (2 : ℝ) ^ (971 : Int) = 2 * 2 ^ (970 : Int) := by
      rw [show (971 : Int) = 1 + 970 from rfl, zpow_add₀ (by norm_num), zpow_one]
    rw [← h1]
    exact zpow_le_zpow_right₀ (by norm_num) he
  have hm' : (m : ℝ) ≤ 2 ^ 53 - 1 := by
    have : ((m + 1 : ℕ) : ℝ) ≤ ((2 ^ 53 : ℕ) : ℝ) := by exact_mod_cast hm
    push_cast at this
    linarith
  have hval : |(Fp.toRat c : ℝ)| = m * 2 ^ e := by
    rw [Fp.toRat_of_unpack hu]
    push_cast
    rw [Fp.abs_sign_mul, abs_of_nonneg (by positivity)]
  rw [hval, Fp.overflow_eq]
  generalize (2 : ℝ) ^ (970 : Int) = w at *
  have h0 : (0 : ℝ) ≤ 2 ^ e := by positivity
  calc (m : ℝ) * 2 ^ e ≤ (2 ^ 53 - 1) * (2 * w) := by gcongr
    _ < (2 ^ 54 - 1) * w := by
      norm_num
      linarith only [hw]

/-- A number that a finite pattern stands for rounds to itself. -/
theorem nearestEven_exact {x : ℝ} {r c : F64} (h : Fp.NearestEven x r) (hc : Fp.isFinite c = true) (hx : (Fp.toRat c : ℝ) = x) :
    Fp.isFinite r = true ∧ Fp.toRat r = Fp.toRat c := by
  have hb : |x| < Fp.overflow := hx ▸ Fp.finite_lt_overflow hc
  obtain ⟨hr, hmin, _⟩ := h.1 hb
  have h0 := hmin c hc
  rw [hx, sub_self, abs_zero] at h0
  have h1 : x - Fp.toRat r = 0 := abs_eq_zero.mp (le_antisymm h0 (abs_nonneg _))
  refine ⟨hr, ?_⟩
  have h2 : (Fp.toRat r : ℝ) = Fp.toRat c := by linarith
  exact_mod_cast h2

/-- Finite patterns of equal value have the same last bit: they differ at most in the sign of a zero. -/
theorem Fp.lowBit_of_toRat {x y : F64} (hx : Fp.isFinite x = true) (hy : Fp.isFinite y = true) (h : Fp.toRat x = Fp.toRat y) :
    x.getLsbD 0 = y.getLsbD 0 := by
  have he := (Fp.eq_iff hx hy).mpr h
  have hm : Fp.magnitude x = Fp.magnitude y := by
    unfold Fp.eq Fp.key Fp.signed at he
    simp only [Bool.and_eq_true, decide_eq_true_eq] at he
    have hk := he.2
    split_ifs at hk <;> omega
  rw [← Fp.pack_signBit_magnitude x, ← Fp.pack_signBit_magnitude y, Fp.lowBit_pack _ (Fp.magnitude_lt x), Fp.lowBit_pack _ (Fp.magnitude_lt y), hm]

/-- A finite pattern of the same value as the rounded one is as well the rounding. -/
theorem nearestEven_congr {x : ℝ} {r c : F64} (h : Fp.NearestEven x r) (hb : |x| < Fp.overflow) (hc : Fp.isFinite c = true)
    (hv : Fp.toRat c = Fp.toRat r) : Fp.NearestEven x c := by
  obtain ⟨hr, hmin, htie⟩ := h.1 hb
  refine ⟨fun _ => ⟨hc, ?_, ?_⟩, fun hx => absurd hb (not_lt.mpr (hx.trans (le_abs_self x))),
    fun hx => absurd hb (not_lt.mpr ((le_neg.mp hx).trans (neg_le_abs x)))⟩
  · rw [hv]
    exact hmin
  · rw [hv, Fp.lowBit_of_toRat hc hr hv]
    exact htie

/-- Rounding does not pass a finite value above. -/
theorem nearestEven_le {x : ℝ} {r c : F64} (h : Fp.NearestEven x r) (hb : |x| < Fp.overflow) (hc : Fp.isFinite c = true)
    (hx : x ≤ Fp.toRat c) : Fp.toRat r ≤ Fp.toRat c := by
  have h0 := (h.1 hb).2.1 c hc
  by_contra hlt
  have hlt' : (Fp.toRat c : ℝ) < Fp.toRat r := by exact_mod_cast not_le.mp hlt
  rw [abs_of_nonpos (by linarith : x - Fp.toRat r ≤ 0), abs_of_nonpos (by linarith : x - Fp.toRat c ≤ 0)] at h0
  linarith

/-- Rounding does not pass a finite value below. -/
theorem nearestEven_ge {x : ℝ} {r c : F64} (h : Fp.NearestEven x r) (hb : |x| < Fp.overflow) (hc : Fp.isFinite c = true)
    (hx : (Fp.toRat c : ℝ) ≤ x) : Fp.toRat c ≤ Fp.toRat r := by
  have h0 := (h.1 hb).2.1 c hc
  by_contra hlt
  have hlt' : (Fp.toRat r : ℝ) < Fp.toRat c := by exact_mod_cast not_le.mp hlt
  rw [abs_of_nonneg (by linarith : 0 ≤ x - Fp.toRat r), abs_of_nonneg (by linarith : 0 ≤ x - Fp.toRat c)] at h0
  linarith

/-- A whole number of units, not above `2^53` of them, is a finite value. -/
theorem Fp.exists_units {z : Int} {e : Int} (hz : |z| ≤ 2 ^ 53) (h1 : -1074 ≤ e) (h2 : e ≤ 970) :
    ∃ c, Fp.isFinite c = true ∧ Fp.toRat c = z * 2 ^ e := by
  have habs : (z.natAbs : Int) = |z| := Int.natCast_natAbs z
  have hsign : (z : ℚ) = Fp.sign (decide (z < 0)) * z.natAbs := by
    rcases lt_or_ge z 0 with h | h
    · rw [Nat.cast_natAbs, abs_of_neg h]
      simp [Fp.sign, h]
    · rw [Nat.cast_natAbs, abs_of_nonneg h]
      simp [Fp.sign, not_lt.mpr h]
  rcases eq_or_lt_of_le hz with h | h
  · obtain ⟨hf, hv⟩ := Fp.round_exact (decide (z < 0)) (m := 2 ^ 52) (e := e + 1) (by norm_num) (by omega) (by omega)
    have hn : z.natAbs = 2 ^ 53 := by omega
    refine ⟨_, hf, ?_⟩
    rw [hv, hsign, hn, zpow_add_one₀ (by norm_num)]
    push_cast
    ring
  · obtain ⟨hf, hv⟩ := Fp.round_exact (decide (z < 0)) (m := z.natAbs) (e := e) (by omega) h1 (by omega)
    refine ⟨_, hf, ?_⟩
    rw [hv, hsign, mul_assoc]

/-- Below `2^(e + 53)`, rounding moves a number by at most half a unit `2^e`. -/
theorem nearestEven_error {x : ℝ} {r : F64} {e : Int} (h : Fp.NearestEven x r) (hb : |x| ≤ 2 ^ 53 * 2 ^ e) (h1 : -1074 ≤ e) (h2 : e ≤ 900) :
    |x - Fp.toRat r| ≤ 2 ^ e / 2 := by
  have hu : (0 : ℝ) < 2 ^ e := by positivity
  have hr := abs_sub_round (x / 2 ^ e)
  have hz : |round (x / 2 ^ e)| ≤ 2 ^ 53 := by
    have h3 : |x / 2 ^ e| ≤ 2 ^ 53 := by
      rw [abs_div, abs_of_pos hu, div_le_iff₀ hu]
      exact hb
    have h4 : |(round (x / 2 ^ e) : ℝ)| ≤ 2 ^ 53 + 1 / 2 := by
      have := abs_sub_abs_le_abs_sub (round (x / 2 ^ e) : ℝ) (x / 2 ^ e)
      rw [abs_sub_comm] at this
      linarith
    have h5 : ((|round (x / 2 ^ e)| : Int) : ℝ) < ((2 ^ 53 + 1 : Int) : ℝ) := by
      push_cast
      linarith
    have h6 : |round (x / 2 ^ e)| < 2 ^ 53 + 1 := by exact_mod_cast h5
    omega
  obtain ⟨c, hc, hv⟩ := Fp.exists_units hz h1 (by omega)
  have hov : |x| < Fp.overflow := by
    have h3 : (2 : ℝ) ^ e ≤ 2 ^ (900 : Int) := zpow_le_zpow_right₀ (by norm_num) h2
    have h4 : (2 : ℝ) ^ (970 : Int) = 2 ^ (70 : Int) * 2 ^ (900 : Int) := by rw [← zpow_add₀ (by norm_num)]; norm_num
    have h5 : (0 : ℝ) < 2 ^ (900 : Int) := by positivity
    rw [Fp.overflow_eq, h4]
    calc |x| ≤ 2 ^ 53 * 2 ^ e := hb
      _ ≤ 2 ^ 53 * 2 ^ (900 : Int) := by gcongr
      _ < (2 ^ 54 - 1) * (2 ^ (70 : Int) * 2 ^ (900 : Int)) := by
        generalize (2 : ℝ) ^ (900 : Int) = w at *
        have h6 : (2 : ℝ) ^ (70 : Int) = 1180591620717411303424 := by norm_num
        rw [h6]
        norm_num
        linarith only [h5]
  refine ((h.1 hov).2.1 c hc).trans ?_
  have hcv : (Fp.toRat c : ℝ) = round (x / 2 ^ e) * 2 ^ e := by
    rw [hv]
    push_cast
    rfl
  have hx : x = x / 2 ^ e * 2 ^ e := by field_simp
  rw [hcv]
  nth_rewrite 1 [hx]
  rw [← sub_mul, abs_mul, abs_of_pos hu]
  linarith [mul_le_mul_of_nonneg_right hr hu.le]

/-! ### The integer square root -/

theorem Fp.isqrtFrom_spec (n k r : Nat) (h1 : r * r ≤ n) (h2 : n < (r + 2 ^ k) * (r + 2 ^ k)) :
    Fp.isqrtFrom n k r * Fp.isqrtFrom n k r ≤ n ∧ n < (Fp.isqrtFrom n k r + 1) * (Fp.isqrtFrom n k r + 1) := by
  induction k generalizing r with
  | zero => exact ⟨h1, h2⟩
  | succ k ih =>
    unfold Fp.isqrtFrom
    split_ifs with hc
    · exact ih _ hc (by rw [add_assoc, ← two_mul, ← pow_succ']; exact h2)
    · exact ih _ h1 (not_le.mp hc)

theorem Fp.isqrt_spec {n : Nat} (h : n < 2 ^ 172) : Fp.isqrt n * Fp.isqrt n ≤ n ∧ n < (Fp.isqrt n + 1) * (Fp.isqrt n + 1) :=
  Fp.isqrtFrom_spec n 86 0 (Nat.zero_le _) (by simpa using h)

end Sys2Proof.Machine
end

