-- ==== Sys2Proof/Laws/State.lean ====
section
/-! SUPPORT. One lemma per field per named update of the state, true by `rfl` (by cases for the two that look at a script), so that no proof unfolds a record update. -/

namespace Sys2Proof.Machine

section
variable (s : State)

/-! ### nextLine -/

@[simp] theorem nextLine_params : (nextLine s).params = s.params := rfl
@[simp] theorem nextLine_rateSel : (nextLine s).rateSel = s.rateSel := rfl
@[simp] theorem nextLine_busy : (nextLine s).busy = s.busy := rfl
@[simp] theorem nextLine_ready : (nextLine s).ready = s.ready := rfl
@[simp] theorem nextLine_gridValid : (nextLine s).gridValid = s.gridValid := rfl
@[simp] theorem nextLine_err : (nextLine s).err = s.err := rfl
@[simp] theorem nextLine_gi : (nextLine s).gi = s.gi := rfl
@[simp] theorem nextLine_gf : (nextLine s).gf = s.gf := rfl
@[simp] theorem nextLine_phase : (nextLine s).phase = s.phase := rfl
@[simp] theorem nextLine_active : (nextLine s).active = s.active := rfl
@[simp] theorem nextLine_cal : (nextLine s).cal = s.cal := rfl
@[simp] theorem nextLine_calStage : (nextLine s).calStage = s.calStage := rfl
@[simp] theorem nextLine_raw : (nextLine s).raw = s.raw := rfl
@[simp] theorem nextLine_readData : (nextLine s).readData = s.readData := rfl
@[simp] theorem nextLine_program : (nextLine s).program = s.program := rfl
@[simp] theorem nextLine_line : (nextLine s).line = s.line + 1 := rfl
@[simp] theorem nextLine_schedule : (nextLine s).schedule = s.schedule := rfl
@[simp] theorem nextLine_answers : (nextLine s).answers = s.answers := rfl
@[simp] theorem nextLine_trace : (nextLine s).trace = s.trace := rfl
@[simp] theorem nextLine_draws : (nextLine s).draws = s.draws := rfl

/-! ### acceptConfig -/

@[simp] theorem acceptConfig_params (data : Word) : (acceptConfig data s).params = s.params := rfl
@[simp] theorem acceptConfig_rateSel (data : Word) : (acceptConfig data s).rateSel = data.extractLsb' 0 4 := rfl
@[simp] theorem acceptConfig_busy (data : Word) : (acceptConfig data s).busy = s.busy := rfl
@[simp] theorem acceptConfig_ready (data : Word) : (acceptConfig data s).ready = false := rfl
@[simp] theorem acceptConfig_gridValid (data : Word) : (acceptConfig data s).gridValid = s.gridValid := rfl
@[simp] theorem acceptConfig_err (data : Word) : (acceptConfig data s).err = s.err := rfl
@[simp] theorem acceptConfig_gi (data : Word) : (acceptConfig data s).gi = s.gi := rfl
@[simp] theorem acceptConfig_gf (data : Word) : (acceptConfig data s).gf = s.gf := rfl
@[simp] theorem acceptConfig_phase (data : Word) : (acceptConfig data s).phase = s.phase := rfl
@[simp] theorem acceptConfig_active (data : Word) : (acceptConfig data s).active = s.active := rfl
@[simp] theorem acceptConfig_cal (data : Word) : (acceptConfig data s).cal = s.cal := rfl
@[simp] theorem acceptConfig_calStage (data : Word) : (acceptConfig data s).calStage = s.calStage := rfl
@[simp] theorem acceptConfig_raw (data : Word) : (acceptConfig data s).raw = s.raw := rfl
@[simp] theorem acceptConfig_readData (data : Word) : (acceptConfig data s).readData = s.readData := rfl
@[simp] theorem acceptConfig_program (data : Word) : (acceptConfig data s).program = s.program := rfl
@[simp] theorem acceptConfig_line (data : Word) : (acceptConfig data s).line = s.line := rfl
@[simp] theorem acceptConfig_schedule (data : Word) : (acceptConfig data s).schedule = s.schedule := rfl
@[simp] theorem acceptConfig_answers (data : Word) : (acceptConfig data s).answers = s.answers := rfl
@[simp] theorem acceptConfig_trace (data : Word) : (acceptConfig data s).trace = s.trace := rfl
@[simp] theorem acceptConfig_draws (data : Word) : (acceptConfig data s).draws = s.draws := rfl

/-! ### begin_ -/

@[simp] theorem begin_params (a : Active) (ph : Phase) : (begin_ a ph s).params = s.params := rfl
@[simp] theorem begin_rateSel (a : Active) (ph : Phase) : (begin_ a ph s).rateSel = s.rateSel := rfl
@[simp] theorem begin_busy (a : Active) (ph : Phase) : (begin_ a ph s).busy = true := rfl
@[simp] theorem begin_ready (a : Active) (ph : Phase) : (begin_ a ph s).ready = s.ready := rfl
@[simp] theorem begin_gridValid (a : Active) (ph : Phase) : (begin_ a ph s).gridValid = s.gridValid := rfl
@[simp] theorem begin_err (a : Active) (ph : Phase) : (begin_ a ph s).err = s.err := rfl
@[simp] theorem begin_gi (a : Active) (ph : Phase) : (begin_ a ph s).gi = s.gi := rfl
@[simp] theorem begin_gf (a : Active) (ph : Phase) : (begin_ a ph s).gf = s.gf := rfl
@[simp] theorem begin_phase (a : Active) (ph : Phase) : (begin_ a ph s).phase = ph := rfl
@[simp] theorem begin_active (a : Active) (ph : Phase) : (begin_ a ph s).active = a := rfl
@[simp] theorem begin_cal (a : Active) (ph : Phase) : (begin_ a ph s).cal = s.cal := rfl
@[simp] theorem begin_calStage (a : Active) (ph : Phase) : (begin_ a ph s).calStage = s.calStage := rfl
@[simp] theorem begin_raw (a : Active) (ph : Phase) : (begin_ a ph s).raw = s.raw := rfl
@[simp] theorem begin_readData (a : Active) (ph : Phase) : (begin_ a ph s).readData = s.readData := rfl
@[simp] theorem begin_program (a : Active) (ph : Phase) : (begin_ a ph s).program = s.program := rfl
@[simp] theorem begin_line (a : Active) (ph : Phase) : (begin_ a ph s).line = s.line := rfl
@[simp] theorem begin_schedule (a : Active) (ph : Phase) : (begin_ a ph s).schedule = s.schedule := rfl
@[simp] theorem begin_answers (a : Active) (ph : Phase) : (begin_ a ph s).answers = s.answers := rfl
@[simp] theorem begin_trace (a : Active) (ph : Phase) : (begin_ a ph s).trace = s.trace := rfl
@[simp] theorem begin_draws (a : Active) (ph : Phase) : (begin_ a ph s).draws = s.draws := rfl

/-! ### initAccept -/

@[simp] theorem initAccept_params : (initAccept s).params = s.params := rfl
@[simp] theorem initAccept_rateSel : (initAccept s).rateSel = s.rateSel := rfl
@[simp] theorem initAccept_busy : (initAccept s).busy = true := rfl
@[simp] theorem initAccept_ready : (initAccept s).ready = false := rfl
@[simp] theorem initAccept_gridValid : (initAccept s).gridValid = s.gridValid := rfl
@[simp] theorem initAccept_err : (initAccept s).err = s.err := rfl
@[simp] theorem initAccept_gi : (initAccept s).gi = s.gi := rfl
@[simp] theorem initAccept_gf : (initAccept s).gf = s.gf := rfl
@[simp] theorem initAccept_phase : (initAccept s).phase = .initRate := rfl
@[simp] theorem initAccept_active : (initAccept s).active = .init := rfl
@[simp] theorem initAccept_cal : (initAccept s).cal = s.cal := rfl
@[simp] theorem initAccept_calStage : (initAccept s).calStage = s.calStage := rfl
@[simp] theorem initAccept_raw : (initAccept s).raw = s.raw := rfl
@[simp] theorem initAccept_readData : (initAccept s).readData = s.readData := rfl
@[simp] theorem initAccept_program : (initAccept s).program = s.program := rfl
@[simp] theorem initAccept_line : (initAccept s).line = s.line := rfl
@[simp] theorem initAccept_schedule : (initAccept s).schedule = s.schedule := rfl
@[simp] theorem initAccept_answers : (initAccept s).answers = s.answers := rfl
@[simp] theorem initAccept_trace : (initAccept s).trace = s.trace := rfl
@[simp] theorem initAccept_draws : (initAccept s).draws = s.draws := rfl

/-! ### illegal -/

@[simp] theorem illegal_params : (illegal s).params = s.params := rfl
@[simp] theorem illegal_rateSel : (illegal s).rateSel = s.rateSel := rfl
@[simp] theorem illegal_busy : (illegal s).busy = s.busy := rfl
@[simp] theorem illegal_ready : (illegal s).ready = s.ready := rfl
@[simp] theorem illegal_gridValid : (illegal s).gridValid = s.gridValid := rfl
@[simp] theorem illegal_err : (illegal s).err = .illegalCmd := rfl
@[simp] theorem illegal_gi : (illegal s).gi = s.gi := rfl
@[simp] theorem illegal_gf : (illegal s).gf = s.gf := rfl
@[simp] theorem illegal_phase : (illegal s).phase = s.phase := rfl
@[simp] theorem illegal_active : (illegal s).active = s.active := rfl
@[simp] theorem illegal_cal : (illegal s).cal = s.cal := rfl
@[simp] theorem illegal_calStage : (illegal s).calStage = s.calStage := rfl
@[simp] theorem illegal_raw : (illegal s).raw = s.raw := rfl
@[simp] theorem illegal_readData : (illegal s).readData = s.readData := rfl
@[simp] theorem illegal_program : (illegal s).program = s.program := rfl
@[simp] theorem illegal_line : (illegal s).line = s.line := rfl
@[simp] theorem illegal_schedule : (illegal s).schedule = s.schedule := rfl
@[simp] theorem illegal_answers : (illegal s).answers = s.answers := rfl
@[simp] theorem illegal_trace : (illegal s).trace = s.trace := rfl
@[simp] theorem illegal_draws : (illegal s).draws = s.draws := rfl

/-! ### finish -/

@[simp] theorem finish_params (e : Err) : (finish e s).params = s.params := rfl
@[simp] theorem finish_rateSel (e : Err) : (finish e s).rateSel = s.rateSel := rfl
@[simp] theorem finish_busy (e : Err) : (finish e s).busy = false := rfl
@[simp] theorem finish_ready (e : Err) : (finish e s).ready = s.ready := rfl
@[simp] theorem finish_gridValid (e : Err) : (finish e s).gridValid = s.gridValid := rfl
@[simp] theorem finish_err (e : Err) : (finish e s).err = e := rfl
@[simp] theorem finish_gi (e : Err) : (finish e s).gi = s.gi := rfl
@[simp] theorem finish_gf (e : Err) : (finish e s).gf = s.gf := rfl
@[simp] theorem finish_phase (e : Err) : (finish e s).phase = .idle := rfl
@[simp] theorem finish_active (e : Err) : (finish e s).active = .none := rfl
@[simp] theorem finish_cal (e : Err) : (finish e s).cal = s.cal := rfl
@[simp] theorem finish_calStage (e : Err) : (finish e s).calStage = s.calStage := rfl
@[simp] theorem finish_raw (e : Err) : (finish e s).raw = s.raw := rfl
@[simp] theorem finish_readData (e : Err) : (finish e s).readData = s.readData := rfl
@[simp] theorem finish_program (e : Err) : (finish e s).program = s.program := rfl
@[simp] theorem finish_line (e : Err) : (finish e s).line = s.line := rfl
@[simp] theorem finish_schedule (e : Err) : (finish e s).schedule = s.schedule := rfl
@[simp] theorem finish_answers (e : Err) : (finish e s).answers = s.answers := rfl
@[simp] theorem finish_trace (e : Err) : (finish e s).trace = s.trace := rfl
@[simp] theorem finish_draws (e : Err) : (finish e s).draws = s.draws := rfl

/-! ### freeStage -/

@[simp] theorem freeStage_params : (freeStage s).params = s.params := rfl
@[simp] theorem freeStage_rateSel : (freeStage s).rateSel = s.rateSel := rfl
@[simp] theorem freeStage_busy : (freeStage s).busy = s.busy := rfl
@[simp] theorem freeStage_ready : (freeStage s).ready = s.ready := rfl
@[simp] theorem freeStage_gridValid : (freeStage s).gridValid = s.gridValid := rfl
@[simp] theorem freeStage_err : (freeStage s).err = s.err := rfl
@[simp] theorem freeStage_gi : (freeStage s).gi = s.gi := rfl
@[simp] theorem freeStage_gf : (freeStage s).gf = s.gf := rfl
@[simp] theorem freeStage_phase : (freeStage s).phase = s.phase := rfl
@[simp] theorem freeStage_active : (freeStage s).active = s.active := rfl
@[simp] theorem freeStage_cal : (freeStage s).cal = s.cal := rfl
@[simp] theorem freeStage_calStage : (freeStage s).calStage = (List.range s.params.calBytes).map (Config.stageByte s.draws) := rfl
@[simp] theorem freeStage_raw : (freeStage s).raw = s.raw := rfl
@[simp] theorem freeStage_readData : (freeStage s).readData = s.readData := rfl
@[simp] theorem freeStage_program : (freeStage s).program = s.program := rfl
@[simp] theorem freeStage_line : (freeStage s).line = s.line := rfl
@[simp] theorem freeStage_schedule : (freeStage s).schedule = s.schedule := rfl
@[simp] theorem freeStage_answers : (freeStage s).answers = s.answers := rfl
@[simp] theorem freeStage_trace : (freeStage s).trace = s.trace := rfl
@[simp] theorem freeStage_draws : (freeStage s).draws = s.draws + 1 := rfl

/-! ### freeRaw -/

@[simp] theorem freeRaw_params : (freeRaw s).params = s.params := rfl
@[simp] theorem freeRaw_rateSel : (freeRaw s).rateSel = s.rateSel := rfl
@[simp] theorem freeRaw_busy : (freeRaw s).busy = s.busy := rfl
@[simp] theorem freeRaw_ready : (freeRaw s).ready = s.ready := rfl
@[simp] theorem freeRaw_gridValid : (freeRaw s).gridValid = s.gridValid := rfl
@[simp] theorem freeRaw_err : (freeRaw s).err = s.err := rfl
@[simp] theorem freeRaw_gi : (freeRaw s).gi = s.gi := rfl
@[simp] theorem freeRaw_gf : (freeRaw s).gf = s.gf := rfl
@[simp] theorem freeRaw_phase : (freeRaw s).phase = s.phase := rfl
@[simp] theorem freeRaw_active : (freeRaw s).active = s.active := rfl
@[simp] theorem freeRaw_cal : (freeRaw s).cal = s.cal := rfl
@[simp] theorem freeRaw_calStage : (freeRaw s).calStage = s.calStage := rfl
@[simp] theorem freeRaw_raw : (freeRaw s).raw = (List.range s.params.frameWords).map (Config.rawWord s.draws) := rfl
@[simp] theorem freeRaw_readData : (freeRaw s).readData = s.readData := rfl
@[simp] theorem freeRaw_program : (freeRaw s).program = s.program := rfl
@[simp] theorem freeRaw_line : (freeRaw s).line = s.line := rfl
@[simp] theorem freeRaw_schedule : (freeRaw s).schedule = s.schedule := rfl
@[simp] theorem freeRaw_answers : (freeRaw s).answers = s.answers := rfl
@[simp] theorem freeRaw_trace : (freeRaw s).trace = s.trace := rfl
@[simp] theorem freeRaw_draws : (freeRaw s).draws = s.draws + 1 := rfl

/-! ### initFail -/

@[simp] theorem initFail_params (e : Err) : (initFail e s).params = s.params := rfl
@[simp] theorem initFail_rateSel (e : Err) : (initFail e s).rateSel = s.rateSel := rfl
@[simp] theorem initFail_busy (e : Err) : (initFail e s).busy = false := rfl
@[simp] theorem initFail_ready (e : Err) : (initFail e s).ready = false := rfl
@[simp] theorem initFail_gridValid (e : Err) : (initFail e s).gridValid = s.gridValid := rfl
@[simp] theorem initFail_err (e : Err) : (initFail e s).err = e := rfl
@[simp] theorem initFail_gi (e : Err) : (initFail e s).gi = s.gi := rfl
@[simp] theorem initFail_gf (e : Err) : (initFail e s).gf = s.gf := rfl
@[simp] theorem initFail_phase (e : Err) : (initFail e s).phase = .idle := rfl
@[simp] theorem initFail_active (e : Err) : (initFail e s).active = .none := rfl
@[simp] theorem initFail_cal (e : Err) : (initFail e s).cal = s.cal := rfl
@[simp] theorem initFail_calStage (e : Err) : (initFail e s).calStage = (List.range s.params.calBytes).map (Config.stageByte s.draws) := rfl
@[simp] theorem initFail_raw (e : Err) : (initFail e s).raw = s.raw := rfl
@[simp] theorem initFail_readData (e : Err) : (initFail e s).readData = s.readData := rfl
@[simp] theorem initFail_program (e : Err) : (initFail e s).program = s.program := rfl
@[simp] theorem initFail_line (e : Err) : (initFail e s).line = s.line := rfl
@[simp] theorem initFail_schedule (e : Err) : (initFail e s).schedule = s.schedule := rfl
@[simp] theorem initFail_answers (e : Err) : (initFail e s).answers = s.answers := rfl
@[simp] theorem initFail_trace (e : Err) : (initFail e s).trace = s.trace := rfl
@[simp] theorem initFail_draws (e : Err) : (initFail e s).draws = s.draws + 1 := rfl

/-! ### initDone -/

@[simp] theorem initDone_params : (initDone s).params = s.params := rfl
@[simp] theorem initDone_rateSel : (initDone s).rateSel = s.rateSel := rfl
@[simp] theorem initDone_busy : (initDone s).busy = false := rfl
@[simp] theorem initDone_ready : (initDone s).ready = true := rfl
@[simp] theorem initDone_gridValid : (initDone s).gridValid = s.gridValid := rfl
@[simp] theorem initDone_err : (initDone s).err = .ok := rfl
@[simp] theorem initDone_gi : (initDone s).gi = s.gi := rfl
@[simp] theorem initDone_gf : (initDone s).gf = s.gf := rfl
@[simp] theorem initDone_phase : (initDone s).phase = .idle := rfl
@[simp] theorem initDone_active : (initDone s).active = .none := rfl
@[simp] theorem initDone_cal : (initDone s).cal = some s.calStage := rfl
@[simp] theorem initDone_calStage : (initDone s).calStage = (List.range s.params.calBytes).map (Config.stageByte s.draws) := rfl
@[simp] theorem initDone_raw : (initDone s).raw = s.raw := rfl
@[simp] theorem initDone_readData : (initDone s).readData = s.readData := rfl
@[simp] theorem initDone_program : (initDone s).program = s.program := rfl
@[simp] theorem initDone_line : (initDone s).line = s.line := rfl
@[simp] theorem initDone_schedule : (initDone s).schedule = s.schedule := rfl
@[simp] theorem initDone_answers : (initDone s).answers = s.answers := rfl
@[simp] theorem initDone_trace : (initDone s).trace = s.trace := rfl
@[simp] theorem initDone_draws : (initDone s).draws = s.draws + 1 := rfl

/-! ### readFail -/

@[simp] theorem readFail_params : (readFail s).params = s.params := rfl
@[simp] theorem readFail_rateSel : (readFail s).rateSel = s.rateSel := rfl
@[simp] theorem readFail_busy : (readFail s).busy = false := rfl
@[simp] theorem readFail_ready : (readFail s).ready = s.ready := rfl
@[simp] theorem readFail_gridValid : (readFail s).gridValid = s.gridValid := rfl
@[simp] theorem readFail_err : (readFail s).err = .transport := rfl
@[simp] theorem readFail_gi : (readFail s).gi = s.gi := rfl
@[simp] theorem readFail_gf : (readFail s).gf = s.gf := rfl
@[simp] theorem readFail_phase : (readFail s).phase = .idle := rfl
@[simp] theorem readFail_active : (readFail s).active = .none := rfl
@[simp] theorem readFail_cal : (readFail s).cal = s.cal := rfl
@[simp] theorem readFail_calStage : (readFail s).calStage = s.calStage := rfl
@[simp] theorem readFail_raw : (readFail s).raw = (List.range s.params.frameWords).map (Config.rawWord s.draws) := rfl
@[simp] theorem readFail_readData : (readFail s).readData = s.readData := rfl
@[simp] theorem readFail_program : (readFail s).program = s.program := rfl
@[simp] theorem readFail_line : (readFail s).line = s.line := rfl
@[simp] theorem readFail_schedule : (readFail s).schedule = s.schedule := rfl
@[simp] theorem readFail_answers : (readFail s).answers = s.answers := rfl
@[simp] theorem readFail_trace : (readFail s).trace = s.trace := rfl
@[simp] theorem readFail_draws : (readFail s).draws = s.draws + 1 := rfl

/-! ### readComp -/

@[simp] theorem readComp_params : (readComp s).params = s.params := rfl
@[simp] theorem readComp_rateSel : (readComp s).rateSel = s.rateSel := rfl
@[simp] theorem readComp_busy : (readComp s).busy = false := rfl
@[simp] theorem readComp_ready : (readComp s).ready = s.ready := rfl
@[simp] theorem readComp_gridValid : (readComp s).gridValid = true := rfl
@[simp] theorem readComp_err : (readComp s).err = .ok := rfl
@[simp] theorem readComp_gi : (readComp s).gi = (compensate (profileOf s.params.profile) s.raw (s.cal.getD [])).1 := rfl
@[simp] theorem readComp_gf : (readComp s).gf = (compensate (profileOf s.params.profile) s.raw (s.cal.getD [])).2 := rfl
@[simp] theorem readComp_phase : (readComp s).phase = .idle := rfl
@[simp] theorem readComp_active : (readComp s).active = .none := rfl
@[simp] theorem readComp_cal : (readComp s).cal = s.cal := rfl
@[simp] theorem readComp_calStage : (readComp s).calStage = s.calStage := rfl
@[simp] theorem readComp_raw : (readComp s).raw = s.raw := rfl
@[simp] theorem readComp_readData : (readComp s).readData = s.readData := rfl
@[simp] theorem readComp_program : (readComp s).program = s.program := rfl
@[simp] theorem readComp_line : (readComp s).line = s.line := rfl
@[simp] theorem readComp_schedule : (readComp s).schedule = s.schedule := rfl
@[simp] theorem readComp_answers : (readComp s).answers = s.answers := rfl
@[simp] theorem readComp_trace : (readComp s).trace = s.trace := rfl
@[simp] theorem readComp_draws : (readComp s).draws = s.draws := rfl

/-! ### State.resetBlock -/

@[simp] theorem State.resetBlock_params : (State.resetBlock s).params = s.params := rfl
@[simp] theorem State.resetBlock_rateSel : (State.resetBlock s).rateSel = Config.resetRateSel := rfl
@[simp] theorem State.resetBlock_busy : (State.resetBlock s).busy = false := rfl
@[simp] theorem State.resetBlock_ready : (State.resetBlock s).ready = false := rfl
@[simp] theorem State.resetBlock_gridValid : (State.resetBlock s).gridValid = false := rfl
@[simp] theorem State.resetBlock_err : (State.resetBlock s).err = .ok := rfl
@[simp] theorem State.resetBlock_gi : (State.resetBlock s).gi = tabulate (fun _ => 0#16) := rfl
@[simp] theorem State.resetBlock_gf : (State.resetBlock s).gf = tabulate (fun _ => 0#64) := rfl
@[simp] theorem State.resetBlock_phase : (State.resetBlock s).phase = .idle := rfl
@[simp] theorem State.resetBlock_active : (State.resetBlock s).active = .none := rfl
@[simp] theorem State.resetBlock_cal : (State.resetBlock s).cal = none := rfl
@[simp] theorem State.resetBlock_calStage : (State.resetBlock s).calStage = List.replicate s.params.calBytes 0#8 := rfl
@[simp] theorem State.resetBlock_raw : (State.resetBlock s).raw = List.replicate s.params.frameWords 0#16 := rfl
@[simp] theorem State.resetBlock_readData : (State.resetBlock s).readData = s.readData := rfl
@[simp] theorem State.resetBlock_program : (State.resetBlock s).program = s.program := rfl
@[simp] theorem State.resetBlock_line : (State.resetBlock s).line = s.line := rfl
@[simp] theorem State.resetBlock_schedule : (State.resetBlock s).schedule = s.schedule := rfl
@[simp] theorem State.resetBlock_answers : (State.resetBlock s).answers = s.answers := rfl
@[simp] theorem State.resetBlock_trace : (State.resetBlock s).trace = s.trace := rfl
@[simp] theorem State.resetBlock_draws : (State.resetBlock s).draws = s.draws := rfl

/-! ### commit -/

@[simp] theorem commit_params (g : Grid HalfWord × Grid F64) : (commit g s).params = s.params := rfl
@[simp] theorem commit_rateSel (g : Grid HalfWord × Grid F64) : (commit g s).rateSel = s.rateSel := rfl
@[simp] theorem commit_busy (g : Grid HalfWord × Grid F64) : (commit g s).busy = false := rfl
@[simp] theorem commit_ready (g : Grid HalfWord × Grid F64) : (commit g s).ready = s.ready := rfl
@[simp] theorem commit_gridValid (g : Grid HalfWord × Grid F64) : (commit g s).gridValid = true := rfl
@[simp] theorem commit_err (g : Grid HalfWord × Grid F64) : (commit g s).err = .ok := rfl
@[simp] theorem commit_gi (g : Grid HalfWord × Grid F64) : (commit g s).gi = g.1 := rfl
@[simp] theorem commit_gf (g : Grid HalfWord × Grid F64) : (commit g s).gf = g.2 := rfl
@[simp] theorem commit_phase (g : Grid HalfWord × Grid F64) : (commit g s).phase = .idle := rfl
@[simp] theorem commit_active (g : Grid HalfWord × Grid F64) : (commit g s).active = .none := rfl
@[simp] theorem commit_cal (g : Grid HalfWord × Grid F64) : (commit g s).cal = s.cal := rfl
@[simp] theorem commit_calStage (g : Grid HalfWord × Grid F64) : (commit g s).calStage = s.calStage := rfl
@[simp] theorem commit_raw (g : Grid HalfWord × Grid F64) : (commit g s).raw = s.raw := rfl
@[simp] theorem commit_readData (g : Grid HalfWord × Grid F64) : (commit g s).readData = s.readData := rfl
@[simp] theorem commit_program (g : Grid HalfWord × Grid F64) : (commit g s).program = s.program := rfl
@[simp] theorem commit_line (g : Grid HalfWord × Grid F64) : (commit g s).line = s.line := rfl
@[simp] theorem commit_schedule (g : Grid HalfWord × Grid F64) : (commit g s).schedule = s.schedule := rfl
@[simp] theorem commit_answers (g : Grid HalfWord × Grid F64) : (commit g s).answers = s.answers := rfl
@[simp] theorem commit_trace (g : Grid HalfWord × Grid F64) : (commit g s).trace = s.trace := rfl
@[simp] theorem commit_draws (g : Grid HalfWord × Grid F64) : (commit g s).draws = s.draws := rfl

/-! ### afterTurn -/

@[simp] theorem afterTurn_params : (afterTurn s).params = s.params := by unfold afterTurn; split <;> rfl
@[simp] theorem afterTurn_rateSel : (afterTurn s).rateSel = s.rateSel := by unfold afterTurn; split <;> rfl
@[simp] theorem afterTurn_busy : (afterTurn s).busy = s.busy := by unfold afterTurn; split <;> rfl
@[simp] theorem afterTurn_ready : (afterTurn s).ready = s.ready := by unfold afterTurn; split <;> rfl
@[simp] theorem afterTurn_gridValid : (afterTurn s).gridValid = s.gridValid := by unfold afterTurn; split <;> rfl
@[simp] theorem afterTurn_err : (afterTurn s).err = s.err := by unfold afterTurn; split <;> rfl
@[simp] theorem afterTurn_gi : (afterTurn s).gi = s.gi := by unfold afterTurn; split <;> rfl
@[simp] theorem afterTurn_gf : (afterTurn s).gf = s.gf := by unfold afterTurn; split <;> rfl
@[simp] theorem afterTurn_phase : (afterTurn s).phase = s.phase := by unfold afterTurn; split <;> rfl
@[simp] theorem afterTurn_active : (afterTurn s).active = s.active := by unfold afterTurn; split <;> rfl
@[simp] theorem afterTurn_cal : (afterTurn s).cal = s.cal := by unfold afterTurn; split <;> rfl
@[simp] theorem afterTurn_calStage : (afterTurn s).calStage = s.calStage := by unfold afterTurn; split <;> rfl
@[simp] theorem afterTurn_raw : (afterTurn s).raw = s.raw := by unfold afterTurn; split <;> rfl
@[simp] theorem afterTurn_readData : (afterTurn s).readData = s.readData := by unfold afterTurn; split <;> rfl
@[simp] theorem afterTurn_program : (afterTurn s).program = s.program := by unfold afterTurn; split <;> rfl
@[simp] theorem afterTurn_line : (afterTurn s).line = s.line := by unfold afterTurn; split <;> rfl
@[simp] theorem afterTurn_answers : (afterTurn s).answers = s.answers := by unfold afterTurn; split <;> rfl
@[simp] theorem afterTurn_trace : (afterTurn s).trace = s.trace := by unfold afterTurn; split <;> rfl

/-! ### dropWithheld -/

@[simp] theorem dropWithheld_params : (dropWithheld s).params = s.params := by unfold dropWithheld; split <;> rfl
@[simp] theorem dropWithheld_rateSel : (dropWithheld s).rateSel = s.rateSel := by unfold dropWithheld; split <;> rfl
@[simp] theorem dropWithheld_busy : (dropWithheld s).busy = s.busy := by unfold dropWithheld; split <;> rfl
@[simp] theorem dropWithheld_ready : (dropWithheld s).ready = s.ready := by unfold dropWithheld; split <;> rfl
@[simp] theorem dropWithheld_gridValid : (dropWithheld s).gridValid = s.gridValid := by unfold dropWithheld; split <;> rfl
@[simp] theorem dropWithheld_err : (dropWithheld s).err = s.err := by unfold dropWithheld; split <;> rfl
@[simp] theorem dropWithheld_gi : (dropWithheld s).gi = s.gi := by unfold dropWithheld; split <;> rfl
@[simp] theorem dropWithheld_gf : (dropWithheld s).gf = s.gf := by unfold dropWithheld; split <;> rfl
@[simp] theorem dropWithheld_phase : (dropWithheld s).phase = s.phase := by unfold dropWithheld; split <;> rfl
@[simp] theorem dropWithheld_active : (dropWithheld s).active = s.active := by unfold dropWithheld; split <;> rfl
@[simp] theorem dropWithheld_cal : (dropWithheld s).cal = s.cal := by unfold dropWithheld; split <;> rfl
@[simp] theorem dropWithheld_calStage : (dropWithheld s).calStage = s.calStage := by unfold dropWithheld; split <;> rfl
@[simp] theorem dropWithheld_raw : (dropWithheld s).raw = s.raw := by unfold dropWithheld; split <;> rfl
@[simp] theorem dropWithheld_readData : (dropWithheld s).readData = s.readData := by unfold dropWithheld; split <;> rfl
@[simp] theorem dropWithheld_program : (dropWithheld s).program = s.program := by unfold dropWithheld; split <;> rfl
@[simp] theorem dropWithheld_line : (dropWithheld s).line = s.line := by unfold dropWithheld; split <;> rfl
@[simp] theorem dropWithheld_schedule : (dropWithheld s).schedule = s.schedule := by unfold dropWithheld; split <;> rfl
@[simp] theorem dropWithheld_trace : (dropWithheld s).trace = s.trace := by unfold dropWithheld; split <;> rfl
@[simp] theorem dropWithheld_draws : (dropWithheld s).draws = s.draws := by unfold dropWithheld; split <;> rfl

end

end Sys2Proof.Machine
end

