-- ==== Sys2Proof/Laws/Ops.lean ====
section
/-! SUPPORT. What the shared operations over registers, buffers and grids answer, said once: parameters, register reads, chunks of the staging buffer,
words of a frame, tabulated grids, the range of a compensated value. -/

namespace Sys2Proof

/-- What the constraints of R11 give: a chunk is not empty, and the chunks fill the image (R120). -/
theorem Params.wf_chunks {p : Params} (h : p.wf = true) :
    1 ≤ p.calChunk ∧ p.calChunk ≤ 256 ∧ p.nChunk * p.calChunk = p.calBytes ∧ 0 < p.nChunk := by
  unfold Params.wf at h
  simp only [Bool.and_eq_true, decide_eq_true_eq] at h
  have hn : p.nChunk * p.calChunk = p.calBytes := Nat.div_mul_cancel (Nat.dvd_of_mod_eq_zero h.1.1.1.2)
  refine ⟨by omega, by omega, hn, Nat.pos_of_ne_zero fun h0 => ?_⟩
  rw [h0] at hn
  omega

/-- A chunk in range ends within the image. -/
theorem Params.chunk_end {p : Params} (h : p.wf = true) {j : Nat} (hj : j < p.nChunk) : j * p.calChunk + p.calChunk ≤ p.calBytes := by
  obtain ⟨_, _, hn, _⟩ := p.wf_chunks h
  rw [← hn, ← Nat.succ_mul]
  exact Nat.mul_le_mul_right _ hj

/-- The last chunk ends at the end of the image. -/
theorem Params.last_chunk_end {p : Params} (h : p.wf = true) {j : Nat} (hj : j + 1 = p.nChunk) : j * p.calChunk + p.calChunk = p.calBytes := by
  obtain ⟨_, _, hn, _⟩ := p.wf_chunks h
  rw [← hn, ← hj, Nat.succ_mul]

@[simp] theorem tabulate_getElem {α : Type} (f : Pixel → α) (n : Nat) (h : n < 64) : (tabulate f)[n] = f ⟨n, h⟩ := by
  simp [tabulate]

theorem tabulate_get {α : Type} (f : Pixel → α) (k : Pixel) : (tabulate f)[k] = f k := by
  simp

namespace Machine

/-! ### Register reads (R62) -/

theorem memRead_int (s : State) (k : BitVec 6) : memRead s (addrInt k) = (gridAt s.gi k).signExtend 32 := by
  have key : ∀ k, addrInt k ≠ addrConfig ∧ addrInt k ≠ addrCmd ∧ addrInt k ≠ addrStatus ∧ (addrInt k).getLsbD 9 = false ∧
      (addrInt k).getLsbD 8 = true ∧ intIndex (addrInt k) = k := by decide +kernel
  obtain ⟨h1, h2, h3, h4, h5, h6⟩ := key k
  unfold memRead
  rw [if_neg h1, if_neg h2, if_neg h3, h4, h5, h6]
  rfl

theorem memRead_flt (s : State) (k : BitVec 6) (high : Bool) :
    memRead s (addrFlt k high) = (gridAt s.gf k).extractLsb' (if high then 32 else 0) 32 := by
  have key : ∀ k high, addrFlt k high ≠ addrConfig ∧ addrFlt k high ≠ addrCmd ∧ addrFlt k high ≠ addrStatus ∧
      (addrFlt k high).getLsbD 9 = true ∧ fltIndex (addrFlt k high) = k ∧ fltHigh (addrFlt k high) = high := by decide +kernel
  obtain ⟨h1, h2, h3, h4, h5, h6⟩ := key k high
  unfold memRead
  rw [if_neg h1, if_neg h2, if_neg h3, h4, h5, h6]
  cases high <;> rfl

theorem memRead_reserved (s : State) {a : HostAddr} (h : reservedOffset a = true) : memRead s a = 0#32 := by
  obtain ⟨h1, h2, h3, h4, h5⟩ := reservedOffset_bits h
  unfold memRead
  rw [if_neg h1, if_neg h2, if_neg h3, h4, h5]
  rfl

/-! ### Buffers -/

/-- The staging buffer with the bytes of chunk `j` in their place (R121). -/
def stageWith (p : Params) (j : Nat) (bytes stage : List Byte) : List Byte :=
  stage.take (j * p.calChunk) ++ bytes ++ stage.drop (j * p.calChunk + p.calChunk)

theorem calChunk_stored {p : Params} {j : Nat} {bytes stage : List Byte} (h : bytes.length = p.calChunk) :
    calChunk p j (.ok bytes) stage = .ok (stageWith p j bytes stage) := by
  simp [calChunk, stageWith, h]

theorem stageWith_length {p : Params} {j : Nat} {bytes stage : List Byte} (h : bytes.length = p.calChunk)
    (hj : j * p.calChunk + p.calChunk ≤ stage.length) : (stageWith p j bytes stage).length = stage.length := by
  unfold stageWith
  generalize j * p.calChunk = o at *
  simp only [List.length_append, List.length_take, List.length_drop, h]
  omega

/-- The chunks up to and with chunk `j`, as the buffer holds them after its read. -/
theorem stageWith_take {p : Params} {j : Nat} {bytes stage : List Byte} (h : bytes.length = p.calChunk)
    (hj : j * p.calChunk + p.calChunk ≤ stage.length) :
    (stageWith p j bytes stage).take (j * p.calChunk + p.calChunk) = stage.take (j * p.calChunk) ++ bytes := by
  unfold stageWith
  generalize j * p.calChunk = o at *
  rw [List.take_append_of_le_length (by simp only [List.length_append, List.length_take, h]; omega)]
  apply List.take_of_length_le
  simp only [List.length_append, List.length_take, h]
  omega

theorem stageWith_getElem? {p : Params} {j : Nat} {bytes stage : List Byte} (h : bytes.length = p.calChunk)
    (hj : j * p.calChunk + p.calChunk ≤ stage.length) (a : Nat) :
    (stageWith p j bytes stage)[a]? =
      if j * p.calChunk ≤ a ∧ a < j * p.calChunk + p.calChunk then bytes[a - j * p.calChunk]? else stage[a]? := by
  unfold stageWith
  generalize j * p.calChunk = o at *
  have ht : (stage.take o).length = o := by
    rw [List.length_take]
    omega
  split_ifs with hin
  · rw [List.append_assoc, List.getElem?_append_right (by omega), List.getElem?_append_left (by omega), ht]
  · rcases Nat.lt_or_ge a o with hlt | hge
    · rw [List.append_assoc, List.getElem?_append_left (by omega), List.getElem?_take_of_lt hlt]
    · rw [List.getElem?_append_right (by rw [List.length_append]; omega), List.getElem?_drop, List.length_append, ht]
      congr 1
      omega

@[simp] theorem frameWordsOf_length (n : Nat) (bytes : List Byte) : (frameWordsOf n bytes).length = n := by
  simp [frameWordsOf]

/-- `le16(b0, b1) = b0 + 256*b1` (R14). -/
theorem le16_toNat (b0 b1 : Byte) : (le16 b0 b1).toNat = b0.toNat + 256 * b1.toNat := by
  have h := BitVec.toNat_append b1 b0
  rw [← Nat.shiftLeft_add_eq_or_of_lt b0.isLt, Nat.shiftLeft_eq] at h
  refine Eq.trans h ?_
  omega

/-! ### Compensated values -/

theorem compensate_int (P : Profile) (w : List HalfWord) (image : List Byte) (k : Pixel) :
    (compensate P w image).1[k] = toFixed (compensate P w image).2[k] := by
  simp [compensate]

theorem compensate_flt (P : Profile) (w : List HalfWord) (image : List Byte) (k : Pixel) :
    (compensate P w image).2[k] = lane P (P.ambient (ptatRaw w) (P.decodeCal image)) w (P.decodeCal image) (devicePixel k) := by
  simp [compensate, floatGrid]

theorem isFinite_of_not {v : F64} (hn : Fp.isNaN v = false) (hi : Fp.isInf v = false) : Fp.isFinite v = true := by
  unfold Fp.isNaN at hn
  unfold Fp.isInf at hi
  unfold Fp.isFinite
  simp only [decide_eq_false_iff_not] at hn hi
  exact decide_eq_true (by omega)

/-- The object formula answers finite values or Domain. -/
theorem object_finite {p : Pixel} {vir vcp ta v : F64} {k : CalConsts} (h : object p vir vcp ta k = some v) : Fp.isFinite v = true := by
  unfold object at h
  simp only at h
  split_ifs at h
  split at h
  · cases h
  · split at h
    · cases h
    · unfold objectFrom at h
      simp only at h
      split_ifs at h with _ hf
      cases h
      simp only [Bool.or_eq_true, not_or, Bool.not_eq_true] at hf
      exact isFinite_of_not hf.1 hf.2

/-- The same of every profile (R259). -/
theorem profile_object_finite {id : ProfileId} {p : Pixel} {vir vcp ta v : F64} {k : (profileOf id).Consts}
    (h : (profileOf id).object p vir vcp ta k = some v) : Fp.isFinite v = true := by
  cases id with
  | mlx90621 => exact object_finite h
  | other id => exact (Option.filter_eq_some_iff.mp h).2

theorem inRange_tMin : inRange Config.tMin := ⟨by decide, by decide, by decide⟩

theorem inRange_tMax : inRange Config.tMax := ⟨by decide, by decide, by decide⟩

theorem inRange_zero : inRange 0#64 := ⟨by decide, by decide, by decide⟩

theorem toFixed_zero : toFixed 0#64 = 0#16 := by
  decide +kernel

/-- What `clamp` answers to a finite value or to Domain is in range (R246). -/
theorem clamp_inRange {r : Option F64} (h : ∀ v, r = some v → Fp.isFinite v = true) : inRange (clamp r) := by
  unfold clamp
  split
  · exact inRange_tMin
  · split_ifs with h1 h2
    · exact inRange_tMin
    · exact inRange_tMax
    · exact ⟨h _ rfl, by simpa using h1, by simpa using h2⟩

theorem lane_inRange (id : ProfileId) (ta : Option F64) (w : List HalfWord) (k : (profileOf id).Consts) (p : Pixel) :
    inRange (lane (profileOf id) ta w k p) := by
  unfold lane
  split
  · exact inRange_tMin
  · exact clamp_inRange fun _ h => profile_object_finite h

end Machine

end Sys2Proof
end

