-- ==== Sys2Proof/Laws/PerInstr.lean ====
section
/-! SUPPORT. The family `TableRow`: every well-formed instruction is encoded as its row of spec/opcode_table.json has it. -/

namespace Sys2Proof.Laws

/-- The format and the bits a row of spec/opcode_table.json fixes; a device frame (R97, R99, R100) has no bits, only the shape of its bytes. -/
inductive TableRow.Row where
  | cw (mask bits : BitVec 32)
  | ha (mask bits : BitVec 43)
  | bw (len : Nat)
  | br (len : Nat)

/-- The row of each constructor: `mask` and `match` as spec/opcode_table.json writes them. -/
def TableRow.row : Instr → TableRow.Row
  | .nop => .cw 0xFFFFFFFF#32 0x00000000#32
  | .init => .cw 0xFFFFFFFF#32 0x00000001#32
  | .read => .cw 0xFFFFFFFF#32 0x00000002#32
  | .illegalCmd _ _ => .cw 0x00000000#32 0x00000000#32
  | .wrConfig _ => .ha 0x7FF00000000#43 0x40000000000#43
  | .rdConfig => .ha 0x7FFFFFFFFFF#43 0x00000000000#43
  | .wrCmd _ => .ha 0x7FF00000000#43 0x40400000000#43
  | .rdCmd => .ha 0x7FFFFFFFFFF#43 0x00400000000#43
  | .wrStatus _ => .ha 0x7FF00000000#43 0x40800000000#43
  | .rdStatus => .ha 0x7FFFFFFFFFF#43 0x00800000000#43
  | .rdInt _ => .ha 0x703FFFFFFFF#43 0x10000000000#43
  | .rdFlo _ => .ha 0x607FFFFFFFF#43 0x20000000000#43
  | .rdFhi _ => .ha 0x607FFFFFFFF#43 0x20400000000#43
  | .wrInt _ _ => .ha 0x70300000000#43 0x50000000000#43
  | .wrFlt _ _ _ => .ha 0x60300000000#43 0x60000000000#43
  | .rdRsv _ => .ha 0x703FFFFFFFF#43 0x00000000000#43
  | .wrRsv _ _ => .ha 0x70300000000#43 0x40000000000#43
  | .cfgWrite _ _ => .bw 5
  | .eeRead _ => .br 1
  | .ramReadFrame => .br 4

/-- An encoded operation has the format of a row and the bits the row fixes. -/
def TableRow.Fits : TableRow.Row → Code → Prop
  | .cw mask bits, .cw w => w &&& mask = bits
  | .ha mask bits, .ha r => r &&& mask = bits
  | .bw len, .bus (.write _ bytes) => bytes.length = len
  | .br len, .bus (.read _ cmd _) => cmd.length = len
  | _, _ => False

/-- The encoding of a well-formed instruction fits its row. -/
def TableRow.Statement (i : Instr) : Prop := ∀ p : Params, i.wf p = true → TableRow.Fits (TableRow.row i) (encode p i)

/-- A mask over WE and ADDR, and over DATA, selects from a record what it selects from the fields. -/
theorem TableRow.record_and (write : Bool) (a : HostAddr) (data : Word) (mw : BitVec 1) (ma : HostAddr) (md : Word) :
    accessRecord write a data &&& (mw ++ ma ++ md : BitVec 43) = ((BitVec.ofBool write &&& mw) ++ (a &&& ma) ++ (data &&& md) : BitVec 43) := by
  unfold accessRecord
  rw [BitVec.and_append, BitVec.and_append]

/-- A write record fits a row whose mask ignores DATA, when WE and ADDR fit. -/
theorem TableRow.write_fits {a ma : HostAddr} {mask bits : BitVec 43} (data : Word) (hm : mask = (1#1 ++ ma ++ 0#32 : BitVec 43))
    (hb : bits = (1#1 ++ (a &&& ma) ++ 0#32 : BitVec 43)) : accessRecord true a data &&& mask = bits := by
  rw [hm, hb, TableRow.record_and, BitVec.and_zero]
  rfl

theorem TableRow.nop : TableRow.Statement .nop := fun _ _ => rfl

theorem TableRow.init : TableRow.Statement .init := fun _ _ => rfl

theorem TableRow.read : TableRow.Statement .read := fun _ _ => rfl

theorem TableRow.illegalCmd (rsv : BitVec 24) (opcode : BitVec 8) : TableRow.Statement (.illegalCmd rsv opcode) := fun _ _ => BitVec.and_zero

theorem TableRow.wrConfig (data : Word) : TableRow.Statement (.wrConfig data) := fun _ _ =>
  TableRow.write_fits (ma := 0x3FF#10) data (by decide) (by decide)

theorem TableRow.rdConfig : TableRow.Statement .rdConfig := fun _ _ => rfl

theorem TableRow.wrCmd (data : Word) : TableRow.Statement (.wrCmd data) := fun _ _ =>
  TableRow.write_fits (ma := 0x3FF#10) data (by decide) (by decide)

theorem TableRow.rdCmd : TableRow.Statement .rdCmd := fun _ _ => rfl

theorem TableRow.wrStatus (data : Word) : TableRow.Statement (.wrStatus data) := fun _ _ =>
  TableRow.write_fits (ma := 0x3FF#10) data (by decide) (by decide)

theorem TableRow.rdStatus : TableRow.Statement .rdStatus := fun _ _ => rfl

theorem TableRow.rdInt (k : BitVec 6) : TableRow.Statement (.rdInt k) := fun _ _ =>
  (by decide : ∀ k, accessRecord false (Machine.addrInt k) 0#32 &&& 0x703FFFFFFFF#43 = 0x10000000000#43) k

theorem TableRow.rdFlo (k : BitVec 6) : TableRow.Statement (.rdFlo k) := fun _ _ =>
  (by decide : ∀ k, accessRecord false (Machine.addrFlt k false) 0#32 &&& 0x607FFFFFFFF#43 = 0x20000000000#43) k

theorem TableRow.rdFhi (k : BitVec 6) : TableRow.Statement (.rdFhi k) := fun _ _ =>
  (by decide : ∀ k, accessRecord false (Machine.addrFlt k true) 0#32 &&& 0x607FFFFFFFF#43 = 0x20400000000#43) k

theorem TableRow.wrInt (k : BitVec 6) (data : Word) : TableRow.Statement (.wrInt k data) := fun _ _ =>
  TableRow.write_fits (ma := 0x303#10) data (by decide)
    ((by decide : ∀ k, 0x50000000000#43 = (1#1 ++ (Machine.addrInt k &&& 0x303#10) ++ 0#32 : BitVec 43)) k)

theorem TableRow.wrFlt (k : BitVec 6) (high : Bool) (data : Word) : TableRow.Statement (.wrFlt k high data) := fun _ _ =>
  TableRow.write_fits (ma := 0x203#10) data (by decide)
    ((by decide : ∀ k high, 0x60000000000#43 = (1#1 ++ (Machine.addrFlt k high &&& 0x203#10) ++ 0#32 : BitVec 43)) k high)

theorem TableRow.rdRsv (addr : HostAddr) : TableRow.Statement (.rdRsv addr) := by
  intro p h
  have h' : reservedOffset addr = true := h
  show accessRecord false addr 0#32 &&& 0x703FFFFFFFF#43 = 0x00000000000#43
  clear h
  revert addr
  decide +kernel

theorem TableRow.wrRsv (addr : HostAddr) (data : Word) : TableRow.Statement (.wrRsv addr data) := by
  intro p h
  have h' : reservedOffset addr = true := h
  refine TableRow.write_fits (ma := 0x303#10) data (by decide) ?_
  clear h
  revert addr
  decide +kernel

theorem TableRow.cfgWrite (low high : Byte) : TableRow.Statement (.cfgWrite low high) := fun _ _ => rfl

theorem TableRow.eeRead (off : Byte) : TableRow.Statement (.eeRead off) := fun _ _ => rfl

theorem TableRow.ramReadFrame : TableRow.Statement .ramReadFrame := fun _ _ => rfl

end Sys2Proof.Laws
end

