-- ==== Sys2Proof/Laws/Step.lean ====
section
/-! SUPPORT. What each shared operation, each agent and the step can do, said once: an inversion lemma per operation. -/

namespace Sys2Proof.Machine

/-! ### Shared operations -/

theorem unlessBusy_next {f : State → State} {s t : State} (h : unlessBusy f s = .next t) :
    (s.busy = true ∧ t = s) ∨ (s.busy = false ∧ t = f s) := by
  unfold unlessBusy at h
  cases hb : s.busy <;> simp [hb] at h <;> simp [h]

theorem hostRead_next {a : HostAddr} {s t : State} (h : hostRead a s = .next t) : t = { s with readData := memRead s a } := by
  simpa [hostRead] using h.symm

/-- `s1` is `s` once the DEVICE has answered the transaction `f` with `a`: the scripted answer, or a free one. -/
def Answered (f : BusFrame) (a : DevAnswer) (s s1 : State) : Prop :=
  (∃ rest, s.answers = .answer a :: rest ∧ s1 = { s with answers := rest, trace := ⟨f, a⟩ :: s.trace }) ∨
  (s.answers = [] ∧ a = Config.deviceAnswer s.draws f ∧ s1 = { s with draws := s.draws + 1, trace := ⟨f, a⟩ :: s.trace })

/-- A transaction is answered, or the ENGINE waits. -/
theorem transact_next {f : BusFrame} {k : DevAnswer → State → State} {s t : State} (h : transact f k s = .next t) :
    (t = s ∧ ∃ rest, s.answers = .withhold :: rest) ∨ ∃ a s1, Answered f a s s1 ∧ t = k a s1 := by
  unfold transact at h
  split at h
  · rename_i a rest hr
    right
    exact ⟨a, _, .inl ⟨rest, hr, rfl⟩, by simpa using h.symm⟩
  · rename_i rest hr
    left
    exact ⟨by simpa using h.symm, rest, hr⟩
  · rename_i hr
    right
    exact ⟨_, _, .inr ⟨hr, rfl, rfl⟩, by simpa using h.symm⟩

theorem engineTransaction_next {i : Instr} {f : BusFrame} {k : DevAnswer → State → State} {s t : State}
    (h : engineTransaction i f k s = .next t) : issued s = some i ∧ transact f k s = .next t := by
  unfold engineTransaction at h
  split at h
  · exact ⟨by assumption, h⟩
  · cases h

/-- What ENGINE issues, phase by phase. -/
theorem issued_cases {s : State} {i : Instr} (h : issued s = some i) :
    (s.phase = .initRate ∧ ∃ low, rateByte s.rateSel = some low ∧ i = .cfgWrite low s.params.cfgMsb) ∨
    (∃ j, s.phase = .initCal j ∧ i = .eeRead (eeOffset s.params j)) ∨
    (s.phase = .readFrame ∧ i = .ramReadFrame) := by
  unfold issued at h
  split at h
  · cases h
  · rename_i hp
    simp only [Option.map_eq_some_iff] at h
    obtain ⟨low, hl, rfl⟩ := h
    exact .inl ⟨hp, low, hl, rfl⟩
  · rename_i j hp
    cases h
    exact .inr (.inl ⟨j, hp, rfl⟩)
  · rename_i hp
    cases h
    exact .inr (.inr ⟨hp, rfl⟩)
  · cases h

/-- The block takes no notice of an answer's frame: `Answered` changes only the script, the trace and the draws. -/
theorem Answered.block {f : BusFrame} {a : DevAnswer} {s s1 : State} (h : Answered f a s s1) :
    ∃ answers draws, s1 = { s with answers := answers, trace := ⟨f, a⟩ :: s.trace, draws := draws } := by
  rcases h with ⟨rest, _, rfl⟩ | ⟨_, _, rfl⟩
  · exact ⟨rest, s.draws, rfl⟩
  · exact ⟨s.answers, s.draws + 1, rfl⟩

/-! ### The agents -/

/-- Everything a host instruction can do to a state. -/
inductive HostEffect (s : State) : State → Prop
  | nothing : HostEffect s s
  | readWord (w : Word) : HostEffect s { s with readData := w }
  | config (data : Word) : s.busy = false → HostEffect s (acceptConfig data s)
  | initAccepted : s.busy = false → HostEffect s (initAccept s)
  | readAccepted : s.busy = false → s.ready = true → HostEffect s (begin_ .read .readFrame s)
  | readRefused : s.busy = false → s.ready = false → HostEffect s { s with err := .notInitialized }
  | illegalCommand : s.busy = false → HostEffect s (illegal s)

/-- Everything the ENGINE can do to a state. -/
inductive EngineEffect (s : State) : State → Prop
  | idle : s.phase = .idle → EngineEffect s s
  | waits (rest : List DevScript) : s.answers = .withhold :: rest → EngineEffect s s
  | unsupported : s.phase = .initRate → rateByte s.rateSel = none → EngineEffect s (initFail .unsupportedRate s)
  | configFailed (low : Byte) (s1 : State) : s.phase = .initRate → rateByte s.rateSel = some low →
      Answered (cfgWriteFrame s.params low s.params.cfgMsb) .fail s s1 → EngineEffect s (initFail .transport s1)
  | configured (low : Byte) (bytes : List Byte) (s1 : State) : s.phase = .initRate → rateByte s.rateSel = some low →
      Answered (cfgWriteFrame s.params low s.params.cfgMsb) (.ok bytes) s s1 → EngineEffect s { s1 with phase := .initCal 0 }
  | chunkFailed (j : Nat) (s1 : State) : s.phase = .initCal j →
      Answered (eeReadFrame s.params (eeOffset s.params j)) .fail s s1 → EngineEffect s (initFail .transport s1)
  | chunkWrongLength (j : Nat) (bytes : List Byte) (s1 : State) : s.phase = .initCal j → bytes.length ≠ s.params.calChunk →
      Answered (eeReadFrame s.params (eeOffset s.params j)) (.ok bytes) s s1 → EngineEffect s (initFail .calDecode s1)
  | chunkStored (j : Nat) (bytes : List Byte) (s1 : State) : s.phase = .initCal j → bytes.length = s.params.calChunk →
      j + 1 < s.params.nChunk → Answered (eeReadFrame s.params (eeOffset s.params j)) (.ok bytes) s s1 →
      EngineEffect s { s1 with calStage := stageWith s.params j bytes s.calStage, phase := .initCal (j + 1) }
  | initCompleted (j : Nat) (bytes : List Byte) (s1 : State) : s.phase = .initCal j → bytes.length = s.params.calChunk →
      s.params.nChunk ≤ j + 1 → Answered (eeReadFrame s.params (eeOffset s.params j)) (.ok bytes) s s1 →
      EngineEffect s (initDone { s1 with calStage := stageWith s.params j bytes s.calStage })
  | frameFailed (a : DevAnswer) (s1 : State) : s.phase = .readFrame →
      (∀ bytes, a = .ok bytes → bytes.length ≠ 2 * s.params.frameWords) →
      Answered (ramReadFrameFrame s.params) a s s1 → EngineEffect s (readFail s1)
  | frameStored (bytes : List Byte) (s1 : State) : s.phase = .readFrame → bytes.length = 2 * s.params.frameWords →
      Answered (ramReadFrameFrame s.params) (.ok bytes) s s1 →
      EngineEffect s { s1 with raw := frameWordsOf s.params.frameWords bytes, phase := .readComp }
  | computed : s.phase = .readComp → EngineEffect s (readComp s)

/-- Everything a turn of the HOST can do: nothing past the end of its program, else one instruction and where the HOST goes next. -/
inductive HostTurn (s : State) : State → Prop
  | ended : s.program[s.line]? = none → HostTurn s s
  | ran (t : State) (line : Nat) : HostEffect (nextLine s) t → HostTurn s { t with line := line }

theorem readAccept_effect {s : State} (hb : s.busy = false) : HostEffect s (readAccept s) := by
  unfold readAccept
  split
  · rename_i hr
    exact .readAccepted hb hr
  · rename_i hr
    exact .readRefused hb (by simpa using hr)

theorem commandEffect_effect {s : State} (data : Word) (hb : s.busy = false) : HostEffect s (commandEffect data s) := by
  unfold commandEffect
  split
  · exact .illegalCommand hb
  · split
    · exact .nothing
    · split
      · exact .initAccepted hb
      · split
        · exact readAccept_effect hb
        · exact .illegalCommand hb

theorem unlessBusy_effect {f : State → State} {s t : State} (h : unlessBusy f s = .next t)
    (hf : s.busy = false → HostEffect s (f s)) : HostEffect s t := by
  rcases unlessBusy_next h with ⟨_, rfl⟩ | ⟨hb, rfl⟩
  · exact .nothing
  · exact hf hb

theorem hostRead_effect {a : HostAddr} {s t : State} (h : hostRead a s = .next t) : HostEffect s t := by
  rw [hostRead_next h]
  exact .readWord _

theorem hostWriteIgnored_effect {s t : State} (h : hostWriteIgnored s = .next t) : HostEffect s t := by
  cases h
  exact .nothing

/-- The formats CW and HA: the instructions a HOST line can decode to. -/
def isHostInstr : Instr → Bool
  | .cfgWrite _ _ => false
  | .eeRead _ => false
  | .ramReadFrame => false
  | _ => true

theorem exec_host_effect {i : Instr} {s t : State} (hi : isHostInstr i = true) (h : exec i s = .next t) : HostEffect s t := by
  cases i with
  | cfgWrite low high => exact absurd hi Bool.false_ne_true
  | eeRead off => exact absurd hi Bool.false_ne_true
  | ramReadFrame => exact absurd hi Bool.false_ne_true
  | nop => exact unlessBusy_effect (f := fun s => s) h fun _ => .nothing
  | init => exact unlessBusy_effect h fun hb => .initAccepted hb
  | read => exact unlessBusy_effect h readAccept_effect
  | illegalCmd rsv opcode => exact unlessBusy_effect h fun hb => .illegalCommand hb
  | wrConfig data => exact unlessBusy_effect h fun hb => .config data hb
  | rdConfig => exact hostRead_effect h
  | wrCmd data => exact unlessBusy_effect h fun hb => commandEffect_effect data hb
  | rdCmd => exact hostRead_effect h
  | wrStatus data => exact hostWriteIgnored_effect h
  | rdStatus => exact hostRead_effect h
  | rdInt k => exact hostRead_effect h
  | rdFlo k => exact hostRead_effect h
  | rdFhi k => exact hostRead_effect h
  | wrInt k data => exact hostWriteIgnored_effect h
  | wrFlt k high data => exact hostWriteIgnored_effect h
  | rdRsv addr => exact hostRead_effect h
  | wrRsv addr data => exact hostWriteIgnored_effect h

theorem decodeCommand_isHost (w : Word) : isHostInstr (decodeCommand w) = true := by
  unfold decodeCommand
  split_ifs <;> rfl

theorem decodeWrite_isHost (a : HostAddr) (data : Word) : isHostInstr (decodeWrite a data) = true := by
  unfold decodeWrite
  split_ifs <;> rfl

theorem decodeRead_isHost (a : HostAddr) : isHostInstr (decodeRead a) = true := by
  unfold decodeRead
  split_ifs <;> rfl

theorem decodeAccess_isHost {r : BitVec 43} {i : Instr} (h : decodeAccess r = .ok i) : isHostInstr i = true := by
  unfold decodeAccess at h
  split_ifs at h <;> cases h
  · exact decodeWrite_isHost _ _
  · exact decodeRead_isHost _

theorem runDecoded_effect {r : BitVec 43} {s t : State} (h : runDecoded (decodeAccess r) s = .next t) : HostEffect s t := by
  unfold runDecoded at h
  split at h
  · rename_i i hd
    exact exec_host_effect (decodeAccess_isHost hd) h
  · cases h

theorem hostStep_next {s t : State} (h : hostStep s = .next t) : HostTurn s t := by
  unfold hostStep at h
  split at h
  · cases h
    exact .ended (by assumption)
  · rename_i l _
    cases l with
    | access r => exact .ran t t.line (runDecoded_effect h)
    | command w => exact .ran t t.line (exec_host_effect (decodeCommand_isHost w) h)
    | branch addr mask target =>
      simp only [runLine, runBranch] at h
      split at h
      · rename_i u hu
        cases h
        have he := runDecoded_effect hu
        unfold branchTo
        split
        · exact .ran u target he
        · exact .ran u u.line he
      · cases h
      · cases h
    | sized width write addr => cases h

theorem afterCfgWrite_effect {s s1 : State} {low : Byte} {a : DevAnswer} (hp : s.phase = .initRate) (hl : rateByte s.rateSel = some low)
    (ha : Answered (cfgWriteFrame s.params low s.params.cfgMsb) a s s1) : EngineEffect s (afterCfgWrite a s1) := by
  cases a with
  | fail => exact .configFailed low s1 hp hl ha
  | ok bytes => exact .configured low bytes s1 hp hl ha

theorem afterEeRead_effect {s s1 : State} {j : Nat} {a : DevAnswer} (hp : s.phase = .initCal j)
    (ha : Answered (eeReadFrame s.params (eeOffset s.params j)) a s s1) : EngineEffect s (afterEeRead a s1) := by
  obtain ⟨answers, draws, rfl⟩ := ha.block
  have hj : chunkIndex { s with answers := answers, trace := ⟨eeReadFrame s.params (eeOffset s.params j), a⟩ :: s.trace, draws := draws } = j := by
    simp [chunkIndex, hp]
  unfold afterEeRead
  rw [hj]
  cases a with
  | fail => exact .chunkFailed j _ hp ha
  | ok bytes =>
    by_cases hlen : bytes.length = s.params.calChunk
    · simp only [calChunk, hlen, ne_eq, not_true_eq_false, if_false]
      split_ifs with hlt
      · exact .chunkStored j bytes _ hp hlen hlt ha
      · exact .initCompleted j bytes _ hp hlen (not_lt.mp hlt) ha
    · simp only [calChunk, ne_eq, hlen, not_false_eq_true, if_true]
      exact .chunkWrongLength j bytes _ hp hlen ha

theorem afterRamReadFrame_effect {s s1 : State} {a : DevAnswer} (hp : s.phase = .readFrame)
    (ha : Answered (ramReadFrameFrame s.params) a s s1) : EngineEffect s (afterRamReadFrame a s1) := by
  obtain ⟨answers, draws, rfl⟩ := ha.block
  unfold afterRamReadFrame
  cases a with
  | fail => exact .frameFailed .fail _ hp (fun _ h => by cases h) ha
  | ok bytes =>
    by_cases hlen : bytes.length = 2 * s.params.frameWords
    · simp only [readFrame, hlen, ne_eq, not_true_eq_false, if_false]
      exact .frameStored bytes _ hp hlen ha
    · simp only [readFrame, ne_eq, hlen, not_false_eq_true, if_true]
      exact .frameFailed _ _ hp (fun _ h => by cases h; exact hlen) ha

theorem engineStep_next {s t : State} (h : engineStep s = .next t) : EngineEffect s t := by
  unfold engineStep at h
  split at h
  · rename_i i hi
    rcases issued_cases hi with ⟨hp, low, hl, rfl⟩ | ⟨j, hp, rfl⟩ | ⟨hp, rfl⟩
    · rcases transact_next (engineTransaction_next h).2 with ⟨rfl, rest, hw⟩ | ⟨a, s1, ha, rfl⟩
      · exact .waits rest hw
      · exact afterCfgWrite_effect hp hl ha
    · rcases transact_next (engineTransaction_next h).2 with ⟨rfl, rest, hw⟩ | ⟨a, s1, ha, rfl⟩
      · exact .waits rest hw
      · exact afterEeRead_effect hp ha
    · rcases transact_next (engineTransaction_next h).2 with ⟨rfl, rest, hw⟩ | ⟨a, s1, ha, rfl⟩
      · exact .waits rest hw
      · exact afterRamReadFrame_effect hp ha
  · rename_i hi
    cases h
    unfold engineSilent
    cases hp : s.phase with
    | idle => exact .idle hp
    | initRate =>
      refine .unsupported hp ?_
      simpa [issued, hp] using hi
    | initCal j => simp [issued, hp] at hi
    | readFrame => simp [issued, hp] at hi
    | readComp => exact .computed hp

/-! ### The step -/

/-- Reset loses a withheld answer and nothing else of the agents around the block. -/
theorem dropWithheld_block (s : State) : ∃ answers, dropWithheld s = { s with answers := answers } := by
  unfold dropWithheld
  split
  · rename_i rest _ _
    exact ⟨rest, rfl⟩
  · exact ⟨s.answers, rfl⟩

/-- Whether a withheld entry leaves the script at reset, and that the rest of it stays. -/
theorem dropWithheld_answers (s : State) :
    (dropWithheld s).answers = if (issued s).isSome = true ∧ s.answers.head? = some .withhold then s.answers.tail else s.answers := by
  unfold dropWithheld
  split
  · rename_i i rest hi ha
    simp [hi, ha]
  · rename_i h
    split_ifs with hc
    · obtain ⟨i, hi⟩ := Option.isSome_iff_exists.mp hc.1
      obtain ⟨rest, ha⟩ := List.head?_eq_some_iff.mp hc.2
      exact absurd ha (h i rest hi)
    · rfl

/-- Taking a turn changes only the schedule and the draws. -/
theorem afterTurn_block (s : State) : ∃ schedule draws, afterTurn s = { s with schedule := schedule, draws := draws } := by
  unfold afterTurn
  split
  · rename_i rest _
    exact ⟨rest, s.draws, rfl⟩
  · exact ⟨s.schedule, s.draws + 1, rfl⟩

/-- Everything a step can do. -/
theorem step_next_cases {s t : State} (h : step s = .next t) :
    (turn s = .host ∧ HostTurn (afterTurn s) t) ∨ (turn s = .engine ∧ EngineEffect (afterTurn s) t) ∨
    (turn s = .reset ∧ t = resetStep (afterTurn s)) := by
  unfold step at h
  cases ht : turn s with
  | host => rw [ht] at h; exact .inl ⟨rfl, hostStep_next h⟩
  | engine => rw [ht] at h; exact .inr (.inl ⟨rfl, engineStep_next h⟩)
  | reset => rw [ht] at h; cases h; exact .inr (.inr ⟨rfl, rfl⟩)

/-! ### Runs -/

/-- A run of one step more, once its first step is known. -/
theorem run_step_of {M : Host.Core} {k : Nat} {s s' : M.State} (h : M.step s = .next s') : M.run (k + 1) s = M.run k s' := by
  simp only [Host.Core.run, h]

/-- The same of the block's machine. -/
theorem run_step {k : Nat} {s s' : State} (h : step s = .next s') :
    Host.Core.run Sys2Proof.core (k + 1) s = Host.Core.run Sys2Proof.core k s' :=
  run_step_of (M := Sys2Proof.core) h

/-- The runs of the block's machine compose. -/
theorem run_add {m : Nat} {t : State} (n : Nat) : ∀ {s : State}, Host.Core.run Sys2Proof.core m s = .next t →
    Host.Core.run Sys2Proof.core (m + n) s = Host.Core.run Sys2Proof.core n t := by
  induction m with
  | zero =>
    intro s h
    cases h
    rw [Nat.zero_add]
  | succ m ih =>
    intro s h
    cases hs : step s with
    | next s' =>
      rw [run_step hs] at h
      rw [Nat.succ_add_eq_add_succ, Nat.add_succ, run_step hs]
      exact ih h
    | fault r => cases r
    | refused r =>
      have : Host.Core.run Sys2Proof.core (m + 1) s = .refused r := by
        simp only [Host.Core.run]
        rw [show Sys2Proof.core.step s = .refused r from hs]
      rw [this] at h
      cases h

/-- Every ENGINE turn has a next state: a transaction that is due is answered or waited for. -/
theorem engineStep_total (s : State) : ∃ t, engineStep s = .next t := by
  have ht : ∀ f k, ∃ t, transact f k s = .next t := by
    intro f k
    unfold transact
    split <;> exact ⟨_, rfl⟩
  unfold engineStep
  split
  · rename_i i hi
    rcases issued_cases hi with ⟨hp, low, hl, rfl⟩ | ⟨j, hp, rfl⟩ | ⟨hp, rfl⟩ <;>
      simp [exec, execCfgWrite, execEeRead, execRamReadFrame, engineTransaction, hi, ht]
  · exact ⟨_, rfl⟩

end Sys2Proof.Machine
end

