-- ==== Sys2Proof/Tests/Slice0.lean ====
section
/-! SUPPORT. Tests. The expected values are those of spec/95_test_vectors.md (the vector is named at each test) or of the rule named. After them,
for every statement with hypotheses, a state and operands that meet the hypotheses. -/

namespace Sys2Proof.Tests

open Sys2Proof.Machine

/-! ### States and images -/

/-- The block after reset with `CAL_CHUNK` = 64, so that `NCHUNK` = 4 (V-INIT-9). -/
def chunked : State := State.resetWith { Params.default with calChunk := 64 }

/-- The block after reset, INIT accepted. -/
def initRunning : State := { State.reset with busy := true, active := .init, phase := .initRate }

/-- The same, the configuration write done: INIT reads its only chunk. -/
def chunkRunning : State := { initRunning with phase := .initCal 0 }

/-- INIT in `chunked`, reading chunk `j`. -/
def chunkedRunning (j : Nat) : State := { chunked with busy := true, active := .init, phase := .initCal j }

/-- The all-zero image (V-CAL-0). -/
def zeroImage : List Byte := List.replicate 256 0#8

/-- The bus events of the INIT that read the all-zero image at RATE_SEL = 1, latest first (V-INIT-8). -/
def initTrace : List BusEvent :=
  [⟨.read 0x50#7 [0x00#8] 256, .ok zeroImage⟩, ⟨.write 0x60#7 [0x03#8, 0xE9#8, 0x3E#8, 0xF1#8, 0x46#8], .ok []⟩]

/-- The block ready with the all-zero image. -/
def ready : State := { State.reset with ready := true, cal := some zeroImage, trace := initTrace }

/-- READ accepted in that block. -/
def readRunning : State := { ready with busy := true, active := .read, phase := .readFrame }

/-- The same, its frame read: every word is zero. -/
def compRunning : State := { readRunning with phase := .readComp }

theorem zeroImage_length : zeroImage.length = 256 := List.length_replicate

/-- CAL-S (V-CAL-S). -/
def calS : List Byte :=
  (List.range 64).map (BitVec.ofNat 8) ++ List.replicate 64 0xC0#8 ++ (List.range 64).map (fun i => BitVec.ofNat 8 (3 * i)) ++
    [0x09#8, 0#8, 0#8, 0#8, 0xF6#8] ++ List.replicate 11 0#8 ++
    [0x9C#8, 0xFF#8, 0x88#8, 0xCE#8, 0xFF#8, 0xF0#8, 0x00#8, 0x20#8, 0x10#8, 0x28#8, 0x00#8, 0x64#8, 0x80#8, 0x55#8, 0x00#8, 0xF0#8] ++
    [0x00#8, 0x40#8, 0x1E#8, 0x25#8, 0xE1#8, 0x7A#8, 0x00#8, 0x01#8] ++ List.replicate 24 0#8

/-- F-S (V-FRM-S). -/
def frameS : List HalfWord := (List.range 64).map (fun p => BitVec.ofNat 16 (100 + 10 * p)) ++ [26000#16, 0xFFF6#16]

/-- The state of a next outcome. -/
def after (o : Host.Outcome State Fault Refusal) : Option State :=
  match o with
  | .next t => some t
  | _ => none

/-- STATUS, read after a step. -/
def statusAfter (o : Host.Outcome State Fault Refusal) : Option Word := (after o).map (fun t => memRead t 0x008#10)

/-- The word a host read returned. -/
def readOf (o : Host.Outcome State Fault Refusal) : Option Word := (after o).map (fun t => t.readData)

/-! ### WellFormed: each check refuses an ill-formed term -/

/-- R268: the word of READ is no illegal command. -/
theorem test_wf_illegalCmd : (Instr.illegalCmd 0#24 2#8).wf Params.default = false := by decide

/-- R275: STATUS is no reserved offset. -/
theorem test_wf_rdRsv : (Instr.rdRsv 0x008#10).wf Params.default = false := by decide

/-- R275: neither is the first integer grid word, nor a misaligned offset. -/
theorem test_wf_wrRsv : (Instr.wrRsv 0x100#10 0#32).wf Params.default = false ∧ (Instr.wrRsv 0x00E#10 0#32).wf Params.default = false := by decide

/-- R97: 0x34 is no rate byte, and the upper byte is `CFG_MSB`. -/
theorem test_wf_cfgWrite :
    (Instr.cfgWrite 0x34#8 0x46#8).wf Params.default = false ∧ (Instr.cfgWrite 0x3E#8 0x47#8).wf Params.default = false := by decide

/-- R99: with one chunk only offset 0 is read. -/
theorem test_wf_eeRead : (Instr.eeRead 0x01#8).wf Params.default = false := by decide

/-! ### Decoding of words written out from the encodings (R90 to R101, R106, V-CFG-1, V-HOST-1, V-CMD-1) -/

theorem test_decode_nop : decodeTableWord 32 0x00000000 = some .nop := by decide
theorem test_decode_init : decodeTableWord 32 0x00000001 = some .init := by decide
theorem test_decode_read : decodeTableWord 32 0x00000002 = some .read := by decide
theorem test_decode_illegalCmd :
    decodeTableWord 32 0x00000003 = some (.illegalCmd 0#24 0x03#8) ∧ decodeTableWord 32 0x00000101 = some (.illegalCmd 1#24 0x01#8) := by decide
theorem test_decode_wrConfig : decodeTableWord 48 0x400FFFFFFF9 = some (.wrConfig 0xFFFFFFF9#32) := by decide
theorem test_decode_rdConfig : decodeTableWord 48 0x00000000000 = some .rdConfig := by decide
theorem test_decode_wrCmd : decodeTableWord 48 0x40400000101 = some (.wrCmd 0x101#32) := by decide
theorem test_decode_rdCmd : decodeTableWord 48 0x00400000000 = some .rdCmd := by decide
theorem test_decode_wrStatus : decodeTableWord 48 0x408FFFFFFFF = some (.wrStatus 0xFFFFFFFF#32) := by decide
theorem test_decode_rdStatus : decodeTableWord 48 0x00800000000 = some .rdStatus := by decide
theorem test_decode_rdInt :
    decodeTableWord 48 0x1FC00000000 = some (.rdInt 63#6) ∧ decodeTableWord 48 0x10400000000 = some (.rdInt 1#6) := by decide
theorem test_decode_rdFlo :
    decodeTableWord 48 0x22800000000 = some (.rdFlo 5#6) ∧ decodeTableWord 48 0x3F800000000 = some (.rdFlo 63#6) := by decide
theorem test_decode_rdFhi :
    decodeTableWord 48 0x3FC00000000 = some (.rdFhi 63#6) ∧ decodeTableWord 48 0x20C00000000 = some (.rdFhi 1#6) := by decide
theorem test_decode_wrInt : decodeTableWord 48 0x50000000005 = some (.wrInt 0#6 5#32) := by decide
theorem test_decode_wrFlt :
    decodeTableWord 48 0x60000000007 = some (.wrFlt 0#6 false 7#32) ∧ decodeTableWord 48 0x60C00000007 = some (.wrFlt 1#6 true 7#32) := by decide
theorem test_decode_rdRsv :
    decodeTableWord 48 0x0C000000000 = some (.rdRsv 0x0C0#10) ∧ decodeTableWord 48 0x00C00000000 = some (.rdRsv 0x00C#10) := by decide
theorem test_decode_wrRsv : decodeTableWord 48 0x4FC00000001 = some (.wrRsv 0x0FC#10 1#32) := by decide
theorem test_decode_cfgWrite :
    decode Params.default (.bus (.write 0x60#7 [0x03#8, 0xE1#8, 0x36#8, 0xF1#8, 0x46#8])) = .ok (.cfgWrite 0x36#8 0x46#8) := by decide
theorem test_decode_eeRead : decode Params.default (.bus (.read 0x50#7 [0x00#8] 256)) = .ok (.eeRead 0x00#8) := by decide
theorem test_decode_ramReadFrame :
    decode Params.default (.bus (.read 0x60#7 [0x02#8, 0x00#8, 0x01#8, 0x42#8] 132)) = .ok .ramReadFrame := by decide

/-- R91 and R101: a misaligned record, a read with data, and a frame the block never emits (start measurement, 0x01) are refused by name. -/
theorem test_decode_refused :
    decode Params.default (.ha 0x00200000000#43) = .error .misaligned ∧ decode Params.default (.ha 0x00800000001#43) = .error .readWithData ∧
      decode Params.default (.bus (.write 0x60#7 [0x01#8])) = .error .frameNotEmitted := by decide

/-- R104, R105: `init`, `wait` and `grid 1`, assembled. -/
theorem test_assemble :
    assemble [.init, .wait, .grid ⟨1, by decide⟩] =
      some [.access 0x40400000001#43, .branch 0x008#10 1#32 1, .access 0x10400000000#43, .access 0x20800000000#43, .access 0x20C00000000#43] := by
  decide

/-! ### One step of each instruction -/

/-- V-CMD-1: NOP keeps ERR = 4. -/
theorem test_exec_nop : statusAfter (exec .nop { State.reset with err := .notInitialized }) = some 0x013E0400#32 := by decide

/-- V-CMD-1. -/
theorem test_exec_init : statusAfter (exec .init State.reset) = some 0x013E0001#32 := by decide

/-- V-CMD-1: READ of a block that is not ready. -/
theorem test_exec_read_not_ready : statusAfter (exec .read State.reset) = some 0x013E0400#32 := by decide

/-- R263: READ of a ready block sets BUSY and keeps READY. -/
theorem test_exec_read_ready : statusAfter (exec .read ready) = some 0x013E0003#32 := by decide

/-- V-CMD-1, and the same word while BUSY = 1. -/
theorem test_exec_illegalCmd :
    statusAfter (exec (.illegalCmd 0#24 0x03#8) State.reset) = some 0x013E0500#32 ∧
      statusAfter (exec (.illegalCmd 0#24 0x03#8) initRunning) = some 0x013E0001#32 := by decide

/-- V-CFG-2, row 4: an unsupported selector is stored. -/
theorem test_exec_wrConfig : statusAfter (exec (.wrConfig 0xB#32) State.reset) = some 0x00000000#32 := by decide

/-- V-CFG-2, row 5: writing the value already held clears READY. -/
theorem test_exec_wrConfig_ready :
    statusAfter (.next ready) = some 0x013E0002#32 ∧ statusAfter (exec (.wrConfig 0x1#32) ready) = some 0x013E0000#32 := by decide

/-- V-CFG-2, row 2. -/
theorem test_exec_rdConfig : readOf (exec .rdConfig { State.reset with rateSel := 4#4 }) = some 0x00000004#32 := by decide

/-- V-CMD-1: RSV ≠ 0. -/
theorem test_exec_wrCmd : statusAfter (exec (.wrCmd 0x101#32) State.reset) = some 0x013E0500#32 := by decide

/-- V-CMD-1: a READ while BUSY = 1 is ignored. -/
theorem test_exec_wrCmd_busy : statusAfter (exec (.wrCmd 0x02#32) initRunning) = some 0x013E0001#32 := by decide

/-- V-HOST-1. -/
theorem test_exec_rdCmd : readOf (exec .rdCmd ready) = some 0x00000000#32 := by decide

/-- V-HOST-1. -/
theorem test_exec_wrStatus : statusAfter (exec (.wrStatus 0xFFFFFFFF#32) State.reset) = some 0x013E0000#32 := by decide

/-- V-HOST-1. -/
theorem test_exec_rdStatus : readOf (exec .rdStatus State.reset) = some 0x013E0000#32 := by decide

/-- R272: T_MIN and T_MAX, tenfold. -/
theorem test_exec_rdInt :
    readOf (exec (.rdInt 63#6) { State.reset with gi := tabulate (fun k => if k = 63 then 0xF554#16 else 0x7FFF#16) }) = some 0xFFFFF554#32 ∧
      readOf (exec (.rdInt 62#6) { State.reset with gi := tabulate (fun k => if k = 63 then 0xF554#16 else 0x7FFF#16) }) = some 0x00007FFF#32 := by
  decide

/-- R273: T_MIN. -/
theorem test_exec_rdFlo :
    readOf (exec (.rdFlo 5#6) { State.reset with gf := tabulate (fun k => if k = 5 then 0xC071133333333333#64 else 0#64) }) =
      some 0x33333333#32 := by decide

/-- R273: T_MIN. -/
theorem test_exec_rdFhi :
    readOf (exec (.rdFhi 5#6) { State.reset with gf := tabulate (fun k => if k = 5 then 0xC071133333333333#64 else 0#64) }) =
      some 0xC0711333#32 := by decide

/-- V-HOST-1: INT[0] stays 0. -/
theorem test_exec_wrInt : (after (exec (.wrInt 0#6 5#32) State.reset)).map (fun t => memRead t 0x100#10) = some 0x00000000#32 := by decide

/-- R275: FHI[0] stays 0. -/
theorem test_exec_wrFlt : (after (exec (.wrFlt 0#6 true 5#32) State.reset)).map (fun t => memRead t 0x204#10) = some 0x00000000#32 := by decide

/-- V-HOST-1. -/
theorem test_exec_rdRsv : readOf (exec (.rdRsv 0x0C0#10) ready) = some 0x00000000#32 := by decide

/-- R275. -/
theorem test_exec_wrRsv : (after (exec (.wrRsv 0x0C0#10 1#32) ready)).map (fun t => memRead t 0x0C0#10) = some 0x00000000#32 := by decide

/-- V-CFG-1, V-INIT-1: the frame, and the phase after it. -/
theorem test_exec_cfgWrite :
    (after (exec (.cfgWrite 0x3E#8 0x46#8) { initRunning with answers := [.answer (.ok [])] })).map (fun t => (t.phase, t.trace)) =
      some (.initCal 0, [⟨.write 0x60#7 [0x03#8, 0xE9#8, 0x3E#8, 0xF1#8, 0x46#8], .ok []⟩]) := by decide

/-- V-INIT-2. -/
theorem test_exec_cfgWrite_fails :
    statusAfter (exec (.cfgWrite 0x3E#8 0x46#8) { initRunning with answers := [.answer .fail] }) = some 0x013E0100#32 := by decide

/-- V-INIT-8: the last chunk. -/
theorem test_exec_eeRead :
    statusAfter (exec (.eeRead 0x00#8) { chunkRunning with answers := [.answer (.ok zeroImage)] }) = some 0x013E0002#32 := by decide +kernel

/-- V-INIT-9: 63 bytes at the third chunk, offset 0x80. -/
theorem test_exec_eeRead_short :
    statusAfter (exec (.eeRead 0x80#8) { chunkedRunning 2 with answers := [.answer (.ok (List.replicate 63 0#8))] }) = some 0x013E0200#32 := by
  decide +kernel

/-- R191, its example. -/
theorem test_exec_ramReadFrame :
    (after (exec .ramReadFrame { readRunning with
      answers := [.answer (.ok ((List.replicate 64 [0x10#8, 0x00#8]).flatten ++ [0x00#8, 0x64#8, 0xF6#8, 0xFF#8]))] })).map (fun t => t.raw) =
      some (List.replicate 64 0x0010#16 ++ [0x6400#16, 0xFFF6#16]) := by decide +kernel

/-- V-FRM-L: 131 bytes. READY stays 1. -/
theorem test_exec_ramReadFrame_short :
    statusAfter (exec .ramReadFrame { readRunning with answers := [.answer (.ok (List.replicate 131 0#8))] }) = some 0x013E0102#32 := by
  decide +kernel

/-! ### Agents and fetch -/

/-- A table word runs as the first instruction after reset: V-CMD-1, V-HOST-1. -/
theorem test_fetch :
    statusAfter (step (State.reset.withFetchWord 48 0x40400000001)) = some 0x013E0001#32 ∧
      statusAfter (step (State.reset.withFetchWord 32 0x00000003)) = some 0x013E0500#32 ∧
      readOf (step (State.reset.withFetchWord 48 0x00800000000)) = some 0x013E0000#32 := by decide

/-- V-CFG-3: INIT with an unsupported selector. -/
theorem test_unsupported_rate :
    statusAfter (step { initRunning with rateSel := 15#4, schedule := [.engine] }) = some 0x00000300#32 := by decide +kernel

/-- V-DOM-1: the all-zero image clamps every pixel; GRID_VALID = 1, READY = 1. -/
theorem test_readComp :
    (after (step { compRunning with schedule := [.engine] })).map (fun t => (memRead t 0x008#10, memRead t 0x100#10, memRead t 0x3FC#10)) =
      some (0x013E0006#32, 0xFFFFF554#32, 0xC0711333#32) := by decide +kernel

/-- R320: reset during a command. -/
theorem test_reset_step : statusAfter (step { compRunning with rateSel := 7#4, schedule := [.reset] }) = some 0x013E0000#32 := by decide +kernel

/-- R320 and I13, log entry 9: reset drops the withheld answer of the transaction that is due, and none in READ_COMP or for an unsupported rate. -/
theorem test_reset_withheld :
    (after (step { readRunning with answers := [.withhold], schedule := [.reset] })).map (fun t => t.answers) = some [] ∧
      (after (step { compRunning with answers := [.withhold], schedule := [.reset] })).map (fun t => t.answers) = some [.withhold] ∧
      (after (step { initRunning with rateSel := 11#4, answers := [.withhold], schedule := [.reset] })).map (fun t => t.answers) =
        some [.withhold] := by decide +kernel

/-! ### Arithmetic and compensation -/

/-- V-RND. -/
theorem test_roundTiesEven :
    Fp.roundTiesEven (Fp.mul 0x3FD0000000000000#64 (Fp.ofInt 10)) = 2 ∧ Fp.roundTiesEven (Fp.mul 0x3FD6666666666666#64 (Fp.ofInt 10)) = 4 ∧
      Fp.roundTiesEven (Fp.mul 0xBFD0000000000000#64 (Fp.ofInt 10)) = -2 ∧ Fp.roundTiesEven (Fp.mul Config.tMin (Fp.ofInt 10)) = -2732 := by
  decide +kernel

/-- V-AMB: PTAT = 0, 25600 (exactly 25) and 65535. -/
theorem test_ambient :
    ambient (Fp.ofInt 0) (decodeCal calS) = some 0xC07039CA2C304DE0#64 ∧ ambient (Fp.ofInt 25600) (decodeCal calS) = some 0x4039000000000000#64 ∧
      ambient (Fp.ofInt 65535) (decodeCal calS) = some 0x4080E5607404D638#64 := by decide +kernel

/-- V-PIX-0. -/
theorem test_object :
    object 0 (Fp.ofInt 100) (Fp.ofInt (-10)) 0x403DAEAFC0708D00#64 (decodeCal calS) = some 0x403DD4AC6E793390#64 := by decide +kernel

/-- V-READ-S, k = 5: device pixel 20. -/
theorem test_compensate :
    (compensate Profile.mlx90621 frameS calS).2[5] = 0x403DEDD281E20DF0#64 ∧ ((compensate Profile.mlx90621 frameS calS).1[5]).toInt = 299 := by
  decide +kernel

/-- R240: a radicand of -0.0 gives -273.15. -/
theorem test_root4_negative_zero : Fp.sub (Fp.root4 (Fp.zero true)) Fp.kelvin = 0xC071126666666666#64 := by decide +kernel

/-- V-RAS. -/
theorem test_raster : rasterIndex 5 = 17 ∧ rasterIndex 60 = 15 ∧ rasterIndex 63 = 63 ∧ devicePixel 48 = 3 := by decide

/-! ### For each statement with hypotheses, a state and operands that meet them, clause by clause -/

/-- A host access to come: `l` at the HOST's line. -/
def hostTurn (s : State) (l : HostLine) : State := { s with program := [l], line := 0, schedule := [.host] }

/-- An ENGINE step to come, the DEVICE answering `answers`. -/
def engineTurn (s : State) (answers : List DevScript) : State := { s with schedule := [.engine], answers := answers }

/-- A state whose grids are those of reset meets the invariants when the rest of them holds. -/
theorem inv_of_resetGrids (s : State) (h1 : s.params.wf = true) (h2 : s.busy = decide (s.phase ≠ .idle)) (h3 : s.active = activeOf s.phase)
    (h4 : s.ready = true → s.cal ≠ none) (h5 : s.active = .init → s.ready = false) (h6 : s.active = .read → s.ready = true)
    (h7 : ∀ image, s.cal = some image → image.length = s.params.calBytes) (h8 : s.calStage.length = s.params.calBytes)
    (h9 : s.raw.length = s.params.frameWords) (h10 : ∀ j, s.phase = .initCal j → j < s.params.nChunk ∧ rateSupported s.rateSel = true)
    (h11 : s.gridValid = false) (h12 : resetGrids s) : s.Inv := by
  have hg : ∀ k : Pixel, s.gi[k] = 0#16 ∧ s.gf[k] = 0#64 := fun k => by
    rw [h12.1, h12.2]
    simp [tabulate]
  refine ⟨h1, by simp [h2], h3, h4, h5, h6, h7, h8, h9, fun j h => (h10 j h).1, fun j h => (h10 j h).2, fun k => ?_, fun k => ?_,
    Or.inl ⟨h11, h12⟩⟩
  · rw [(hg k).1, (hg k).2]
    decide +kernel
  · rw [(hg k).2]
    exact ⟨by decide, by decide, by decide⟩

theorem default_wf : Params.default.wf = true := by decide

theorem default_chunk : 0 < Params.default.nChunk ∧ rateSupported 1#4 = true := by decide

theorem stage_length (p : Params) : (State.resetWith p).calStage.length = p.calBytes := List.length_replicate

theorem raw_length (p : Params) : (State.resetWith p).raw.length = p.frameWords := List.length_replicate

theorem inv_ready (turns : List Turn) (answers : List DevScript) (prog : List HostLine) :
    State.Inv { ready with schedule := turns, answers := answers, program := prog } :=
  inv_of_resetGrids _ default_wf rfl rfl (by simp [ready]) (by simp [ready, State.reset, State.resetWith])
    (by simp [ready, State.reset, State.resetWith]) (fun image h => by cases h; exact zeroImage_length) (stage_length _) (raw_length _)
    (by simp [ready, State.reset, State.resetWith]) rfl ⟨rfl, rfl⟩

theorem inv_compRunning (turns : List Turn) (answers : List DevScript) :
    State.Inv { compRunning with schedule := turns, answers := answers } :=
  inv_of_resetGrids _ default_wf rfl rfl (by simp [compRunning, readRunning, ready]) (by simp [compRunning, readRunning])
    (by simp [compRunning, readRunning, ready]) (fun image h => by cases h; exact zeroImage_length) (stage_length _) (raw_length _)
    (by simp [compRunning]) rfl ⟨rfl, rfl⟩

theorem inv_readRunning (turns : List Turn) (answers : List DevScript) :
    State.Inv { readRunning with schedule := turns, answers := answers } :=
  inv_of_resetGrids _ default_wf rfl rfl (by simp [readRunning, ready]) (by simp [readRunning]) (by simp [readRunning, ready])
    (fun image h => by cases h; exact zeroImage_length) (stage_length _) (raw_length _) (by simp [readRunning]) rfl ⟨rfl, rfl⟩

theorem inv_initRunning (turns : List Turn) (answers : List DevScript) :
    State.Inv { initRunning with schedule := turns, answers := answers } :=
  inv_of_resetGrids _ default_wf rfl rfl (by simp [initRunning, State.reset, State.resetWith]) (fun _ => rfl) (by simp [initRunning])
    (fun image h => by cases h) (stage_length _) (raw_length _) (by simp [initRunning]) rfl ⟨rfl, rfl⟩

theorem inv_chunkRunning (turns : List Turn) (answers : List DevScript) :
    State.Inv { chunkRunning with schedule := turns, answers := answers } :=
  inv_of_resetGrids _ default_wf rfl rfl (by simp [chunkRunning, initRunning, State.reset, State.resetWith]) (fun _ => rfl)
    (by simp [chunkRunning, initRunning]) (fun image h => by cases h) (stage_length _) (raw_length _)
    (fun j h => by
      cases h
      exact default_chunk) rfl ⟨rfl, rfl⟩

theorem witness_DecodeOfEncode :
    Params.default.wf = true ∧ (Instr.illegalCmd 0#24 3#8).wf Params.default = true ∧ (Instr.illegalCmd 1#24 0#8).wf Params.default = true ∧
      (Instr.rdRsv 0x00C#10).wf Params.default = true ∧ (Instr.wrRsv 0x0FC#10 0#32).wf Params.default = true ∧
      (Instr.cfgWrite 0x35#8 0x46#8).wf Params.default = true ∧ (Instr.cfgWrite 0x3F#8 0x46#8).wf Params.default = true ∧
      (Instr.eeRead 0x00#8).wf Params.default = true := by decide

theorem witness_EncodeOfDecode :
    decode Params.default (.cw 0xFFFFFFFF#32) = .ok (.illegalCmd 0xFFFFFF#24 0xFF#8) ∧
      decode Params.default (.ha 0x4FC00000001#43) = .ok (.wrRsv 0x0FC#10 1#32) ∧
      decode Params.default (.bus (.read 0x50#7 [0x00#8] 256)) = .ok (.eeRead 0x00#8) := by decide

theorem witness_AccessRecordsDecode :
    (0x3FD#10).toNat % 4 ≠ 0 ∧ (0x001#10).toNat % 4 ≠ 0 ∧ ((0x3FC#10).toNat % 4 = 0 ∧ 1#32 ≠ 0#32) ∧
      ((0x000#10).toNat % 4 = 0 ∧ 0x004#10 ≠ 0x000#10) ∧ (0x3FC#10 ≠ 0x000#10 ∧ 0x3FC#10 ≠ 0x004#10) := by decide

theorem witness_CommandOpcodeMap : 3 ≤ (0x03#8).toNat ∧ 3 ≤ (0xFF#8).toNat ∧ 1#24 ≠ 0#24 := by decide

theorem witness_RateBytesDistinct : (10#4).toNat ≤ 10 ∧ 11 ≤ (11#4).toNat ∧ rateByte 10#4 = some 0x35#8 := by decide

theorem witness_StepRunsDecodedInstruction :
    (hostTurn State.reset (.access 0x00800000000#43)).schedule = .host :: [] ∧
      (hostTurn State.reset (.access 0x00800000000#43)).program[(hostTurn State.reset (.access 0x00800000000#43)).line]? =
        some (.access 0x00800000000#43) ∧
      decodeAccess 0x00800000000#43 = .ok .rdStatus ∧
      (hostTurn State.reset (.command 1#32)).program[(hostTurn State.reset (.command 1#32)).line]? = some (.command 1#32) := by decide

theorem witness_UnadmittedAccessesRefused :
    (0x002#10).toNat % 4 ≠ 0 ∧ (hostTurn State.reset (.access (accessRecord false 0x002#10 0#32))).schedule = .host :: [] ∧
      (hostTurn State.reset (.access (accessRecord false 0x002#10 0#32))).program[0]? = some (.access (accessRecord false 0x002#10 0#32)) ∧
      (hostTurn State.reset (.branch 0x3FF#10 1#32 0)).program[0]? = some (.branch 0x3FF#10 1#32 0) ∧
      (hostTurn State.reset (.sized .w8 true 0x004#10)).program[0]? = some (.sized .w8 true 0x004#10) := by decide

theorem witness_BranchReadsAndBranches :
    (hostTurn initRunning (.branch 0x008#10 1#32 0)).schedule = .host :: [] ∧
      (hostTurn initRunning (.branch 0x008#10 1#32 0)).program[0]? = some (.branch 0x008#10 1#32 0) ∧
      decodeAccess (accessRecord false 0x008#10 0#32) = .ok .rdStatus ∧
      (∃ t, exec .rdStatus { hostTurn initRunning (.branch 0x008#10 1#32 0) with schedule := [], line := 1 } = .next t ∧
        t.readData &&& 1#32 ≠ 0#32) ∧
      (∃ t, exec .rdStatus { hostTurn State.reset (.branch 0x008#10 1#32 0) with schedule := [], line := 1 } = .next t ∧
        t.readData &&& 1#32 = 0#32) :=
  ⟨rfl, rfl, rfl, ⟨_, rfl, by decide⟩, ⟨_, rfl, by decide⟩⟩

theorem witness_StepRunsDueTransaction :
    ((engineTurn initRunning []).schedule = .engine :: [] ∧ initRunning.phase = .initRate ∧ rateByte initRunning.rateSel = some 0x3E#8) ∧
      (chunkedRunning 3).phase = .initCal 3 ∧ readRunning.phase = .readFrame := by decide

theorem witness_EngineIdleChangesNothing : (engineTurn ready []).schedule = .engine :: [] ∧ (engineTurn ready []).phase = .idle := by decide

theorem witness_ResetEventRestoresBlock : { compRunning with schedule := [.reset] }.schedule = .reset :: [] := rfl

/-- With a withheld answer that is due, which the event drops, and one that is not, in READ_COMP. -/
theorem witness_ResetEventKeepsHost :
    { readRunning with schedule := [.reset], answers := [.withhold] }.schedule = .reset :: [] ∧
      ((issued readRunning).isSome = true ∧ [DevScript.withhold].head? = some .withhold) ∧ ¬ (issued compRunning).isSome = true := by decide

theorem witness_ConfigWriteAccepted : initRunning.busy = true ∧ ready.busy = false := by decide

theorem witness_ReadOnlyAndReservedAccesses :
    ((0x00C#10).toNat % 4 = 0 ∧ 0x00C ≤ (0x00C#10).toNat ∧ (0x00C#10).toNat ≤ 0x0FC) ∧
      ((0x0FC#10).toNat % 4 = 0 ∧ 0x00C ≤ (0x0FC#10).toNat ∧ (0x0FC#10).toNat ≤ 0x0FC) := by decide

theorem witness_InitAcceptance : ready.busy = false ∧ initRunning.busy = true := by decide

theorem witness_ReadAcceptance : (ready.busy = false ∧ ready.ready = true) ∧ (State.reset.busy = false ∧ State.reset.ready = false) := by decide

theorem witness_IllegalCommandSetsErr : State.reset.busy = false ∧ 3 ≤ (0x03#8).toNat ∧ 3 ≤ (0xFF#8).toNat ∧ 0x800000#24 ≠ 0#24 := by decide

theorem witness_CommandWriteDispatch :
    initRunning.busy = true ∧ (State.reset.busy = false ∧ 3 ≤ (3#32).toNat ∧ 3 ≤ (0xFFFFFFFF#32).toNat ∧ State.reset.ready = false) ∧
      ready.ready = true := by decide

theorem witness_BusyIgnoresWrites : readRunning.busy = true := rfl

theorem witness_ConfigurationWriteGoesOn :
    initRunning.phase = .initRate ∧ rateByte initRunning.rateSel = some 0x3E#8 ∧
      (engineTurn initRunning [.answer (.ok [])]).answers = .answer (.ok []) :: [] := by decide

theorem witness_ConfigurationWriteFails :
    initRunning.phase = .initRate ∧ rateByte initRunning.rateSel = some 0x3E#8 ∧
      (engineTurn initRunning [.answer .fail]).answers = .answer .fail :: [] := by decide

theorem witness_UnsupportedRateEndsInit :
    (engineTurn { initRunning with rateSel := 11#4 } []).schedule = .engine :: [] ∧ initRunning.phase = .initRate ∧ 11 ≤ (11#4).toNat := by decide

theorem witness_ChunkReadFillsStage :
    (chunkedRunning 2).phase = .initCal 2 ∧ 2 + 1 < chunked.params.nChunk ∧
      (engineTurn (chunkedRunning 2) [.answer (.ok (List.replicate 64 1#8))]).answers = .answer (.ok (List.replicate 64 1#8)) :: [] ∧
      (List.replicate 64 1#8).length = chunked.params.calChunk ∧ (chunkedRunning 2).calStage.length = chunked.params.calBytes ∧
      chunked.params.wf = true :=
  ⟨rfl, by decide, rfl, List.length_replicate, stage_length _, by decide⟩

theorem witness_LastChunkCompletesInit :
    (chunkedRunning 3).phase = .initCal 3 ∧ 3 + 1 = chunked.params.nChunk ∧
      (engineTurn (chunkedRunning 3) [.answer (.ok (List.replicate 64 1#8))]).answers = .answer (.ok (List.replicate 64 1#8)) :: [] ∧
      (List.replicate 64 1#8).length = chunked.params.calChunk ∧ (chunkedRunning 3).calStage.length = chunked.params.calBytes ∧
      chunked.params.wf = true :=
  ⟨rfl, by decide, rfl, List.length_replicate, stage_length _, by decide⟩

theorem witness_ChunkReadFails :
    (chunkedRunning 3).phase = .initCal 3 ∧ (engineTurn (chunkedRunning 3) [.answer .fail]).answers = .answer .fail :: [] ∧
      (engineTurn (chunkedRunning 3) [.answer (.ok (List.replicate 63 1#8))]).answers = .answer (.ok (List.replicate 63 1#8)) :: [] ∧
      (List.replicate 63 1#8).length ≠ chunked.params.calChunk ∧ (List.replicate 65 1#8).length ≠ chunked.params.calChunk := by
  decide +kernel

theorem witness_FrameReadDecodesWords :
    readRunning.phase = .readFrame ∧
      (engineTurn readRunning [.answer (.ok (List.replicate 132 1#8))]).answers = .answer (.ok (List.replicate 132 1#8)) :: [] ∧
      (List.replicate 132 1#8).length = 2 * readRunning.params.frameWords := ⟨rfl, rfl, List.length_replicate⟩

theorem witness_FrameReadFails :
    readRunning.phase = .readFrame ∧ (engineTurn readRunning [.answer .fail]).answers = .answer .fail :: [] ∧
      (engineTurn readRunning [.answer (.ok (List.replicate 133 1#8))]).answers = .answer (.ok (List.replicate 133 1#8)) :: [] ∧
      (List.replicate 131 1#8).length ≠ 2 * readRunning.params.frameWords ∧
      (List.replicate 133 1#8).length ≠ 2 * readRunning.params.frameWords :=
  ⟨rfl, rfl, rfl, by decide +kernel, by decide +kernel⟩

theorem witness_ReadCompCommits :
    (engineTurn compRunning []).schedule = .engine :: [] ∧ compRunning.phase = .readComp ∧ compRunning.cal = some zeroImage := ⟨rfl, rfl, rfl⟩

theorem witness_TransactionsOnlyWhenDue :
    (¬ (initRunning.phase = .initRate ∧ rateByte initRunning.rateSel = some 0x3F#8 ∧ 0x46#8 = initRunning.params.cfgMsb)) ∧
      (¬ ∃ j, State.reset.phase = .initCal j ∧ 0x00#8 = BitVec.ofNat 8 (j * State.reset.params.calChunk)) ∧ compRunning.phase ≠ .readFrame :=
  ⟨by decide, fun ⟨_, h, _⟩ => (nomatch h), by decide⟩

theorem witness_WithheldAnswerWaits :
    (engineTurn readRunning [.withhold]).schedule = .engine :: [] ∧ (engineTurn readRunning [.withhold]).answers = .withhold :: [] ∧
      issued (engineTurn readRunning [.withhold]) = some .ramReadFrame := ⟨rfl, rfl, rfl⟩

theorem witness_GridLayout : (48 : Pixel).val = (3 : Pixel).val % 4 * 16 + (3 : Pixel).val / 4 := by decide

theorem witness_AmbientDomainClampsAll :
    (profileOf .mlx90621).ambient (ptatRaw frameS) ((profileOf .mlx90621).decodeCal zeroImage) = none := by
  show ambient (ptatRaw frameS) (decodeCal zeroImage) = none
  decide +kernel

/-- A finite object temperature, one above T_MAX (V-DOM-9, with LA40), and a domain error (the all-zero image). -/
theorem witness_LowerClampNeverFires :
    object 0 (Fp.ofInt 100) (Fp.ofInt (-10)) 0x403DAEAFC0708D00#64 (decodeCal calS) = some 0x403DD4AC6E793390#64 ∧
      ((object 0 (Fp.ofInt 100) (Fp.ofInt (-10)) 0x403DAEAFC0708D00#64
        { decodeCal calS with alpha := fun _ => 0x3D70000000000000#64, alphaCp := 0#64 }).map (Fp.lt Config.tMax)) = some true ∧
      object 0 (Fp.ofInt 100) (Fp.ofInt (-10)) 0x403DAEAFC0708D00#64 (decodeCal zeroImage) = none := by decide +kernel

/-- Frames that differ in word 1, and images that differ in byte 1, seen at device pixel 0. -/
theorem witness_LanesIndependent :
    ((0 : Pixel).val = (0 : Pixel).val % 4 * 16 + (0 : Pixel).val / 4 ∧ frameS.getD 0 0#16 = (frameS.set 1 0#16).getD 0 0#16 ∧
      frameS.getD 64 0#16 = (frameS.set 1 0#16).getD 64 0#16 ∧ frameS.getD 65 0#16 = (frameS.set 1 0#16).getD 65 0#16) ∧
      (decodeCal calS).a 0 = (decodeCal (calS.set 1 0#8)).a 0 ∧ (decodeCal calS).b 0 = (decodeCal (calS.set 1 0#8)).b 0 ∧
      (decodeCal calS).alpha 0 = (decodeCal (calS.set 1 0#8)).alpha 0 ∧
      { decodeCal calS with a := fun _ => 0#64, b := fun _ => 0#64, alpha := fun _ => 0#64 } =
        { decodeCal (calS.set 1 0#8) with a := fun _ => 0#64, b := fun _ => 0#64, alpha := fun _ => 0#64 } := by
  refine ⟨by decide +kernel, by decide +kernel, by decide +kernel, by decide +kernel, ?_⟩
  rfl

theorem witness_ZeroDivisorsClampAll : zeroImage.getD 0xDE 0#8 = 0#8 ∧ zeroImage.getD 0xDF 0#8 = 0#8 ∧ zeroImage.getD 0xE4 0#8 = 0#8 ∧
    zeroImage.getD 0xE5 0#8 = 0#8 := by decide

/-- The largest finite value, and a divisor that is not zero. -/
theorem witness_SumsRoundToNearestEven : Fp.isFinite 0x7FEFFFFFFFFFFFFF#64 = true ∧ Fp.isFinite 0x8000000000000001#64 = true := by decide

theorem witness_ProductsAndQuotientsRoundToNearestEven :
    Fp.isFinite 0x7FEFFFFFFFFFFFFF#64 = true ∧ Fp.isFinite (Fp.ofInt 10) = true ∧ Fp.toRat (Fp.ofInt 10) ≠ 0 := by
  refine ⟨by decide, by decide +kernel, ?_⟩
  have h : Fp.unpack (Fp.ofInt 10) = .fin false (5 * 2 ^ 50) (-49) := by decide +kernel
  simp [Fp.toRat, h, Fp.sign]

theorem witness_RootsRoundToNearestEven : Fp.isFinite (Fp.ofInt 10) = true ∧ 0 ≤ Fp.toRat (Fp.ofInt 10) ∧
    Fp.isFinite (Fp.zero true) = true ∧ 0 ≤ Fp.toRat (Fp.zero true) := by
  have h : Fp.unpack (Fp.ofInt 10) = .fin false (5 * 2 ^ 50) (-49) := by decide +kernel
  have h0 : Fp.unpack (Fp.zero true) = .fin true 0 (-1074) := by decide +kernel
  refine ⟨by decide +kernel, ?_, by decide +kernel, ?_⟩
  · simp [Fp.toRat, h, Fp.sign]
  · simp [Fp.toRat, h0, Fp.sign]

theorem witness_RoundTiesEvenIsNearest : Fp.isFinite 0x4004000000000000#64 = true ∧ Fp.roundTiesEven 0x4004000000000000#64 = 2 := by decide +kernel

theorem witness_StepKeepsInvariant :
    State.Inv { compRunning with schedule := [.engine], answers := [] } ∧
      ∃ t, step { compRunning with schedule := [.engine], answers := [] } = .next t := ⟨inv_compRunning _ _, _, rfl⟩

/-- The block that INIT made ready, and INIT reading its first chunk. -/
theorem witness_StepKeepsInitHistory :
    (State.Inv { ready with schedule := [.engine], answers := [], program := [] } ∧
      State.InitHistory { ready with schedule := [.engine], answers := [], program := [] } ∧
      ∃ t, step { ready with schedule := [.engine], answers := [], program := [] } = .next t) := by
  refine ⟨inv_ready _ _ _, ⟨fun _ => ⟨[zeroImage], rfl, ⟨?_, 0x3E#8, [], [], by decide, by decide +kernel⟩, ?_⟩, fun j h => by cases h⟩, _, rfl⟩
  · intro c hc
    rw [List.mem_singleton.mp hc]
    exact zeroImage_length
  · simp [ready]

/-- The commit, the reset event, and a step that leaves the grids. -/
theorem witness_GridsChangeOnlyAtCommit :
    (State.Inv { compRunning with schedule := [.engine], answers := [] } ∧
      ∃ t, step { compRunning with schedule := [.engine], answers := [] } = .next t) ∧
      (State.Inv { compRunning with schedule := [.reset], answers := [] } ∧
        ∃ t, step { compRunning with schedule := [.reset], answers := [] } = .next t) ∧
      (State.Inv { ready with schedule := [.host], answers := [], program := [] } ∧
        ∃ t, step { ready with schedule := [.host], answers := [], program := [] } = .next t) :=
  ⟨⟨inv_compRunning _ _, _, rfl⟩, ⟨inv_compRunning _ _, _, rfl⟩, ⟨inv_ready _ _ _, _, rfl⟩⟩

/-- The last chunk, and the reset event. -/
theorem witness_ImageChangesOnlyAtInitEnd :
    (State.Inv { chunkRunning with schedule := [.engine], answers := [.answer (.ok zeroImage)] } ∧
      ∃ t, step { chunkRunning with schedule := [.engine], answers := [.answer (.ok zeroImage)] } = .next t ∧ t.cal ≠ chunkRunning.cal ∧
        chunkRunning.ready = false ∧ t.ready = true) ∧
      (State.Inv { ready with schedule := [.reset], answers := [], program := [] } ∧
        ∃ t, step { ready with schedule := [.reset], answers := [], program := [] } = .next t ∧ t.cal ≠ ready.cal) := by
  have h1 : (after (step { chunkRunning with schedule := [.engine], answers := [.answer (.ok zeroImage)] })).map (fun t => (t.cal, t.ready)) =
      some (some zeroImage, true) := by decide +kernel
  refine ⟨⟨inv_chunkRunning _ _, ?_⟩, ⟨inv_ready _ _ _, _, rfl, by simp [resetStep, ready]⟩⟩
  generalize step { chunkRunning with schedule := [.engine], answers := [.answer (.ok zeroImage)] } = o at h1
  cases o with
  | next t =>
    simp only [after, Option.map_some, Option.some.injEq, Prod.mk.injEq] at h1
    exact ⟨t, rfl, by simp [h1.1, chunkRunning, initRunning, State.reset, State.resetWith], rfl, h1.2⟩
  | fault _ => cases h1
  | refused _ => cases h1

/-- A refused READ, a failed frame read, and the reset event after an error. -/
theorem witness_ErrWrittenOnlyAtEnds :
    (State.Inv { readRunning with schedule := [.engine], answers := [.answer .fail] } ∧
      ∃ t, step { readRunning with schedule := [.engine], answers := [.answer .fail] } = .next t ∧ t.err ≠ readRunning.err) ∧
      (State.Inv { ready with schedule := [.host], answers := [], program := [.command 3#32] } ∧
        ∃ t, step { ready with schedule := [.host], answers := [], program := [.command 3#32] } = .next t ∧ t.err ≠ ready.err) := by
  refine ⟨⟨inv_readRunning _ _, _, rfl, ?_⟩, ⟨inv_ready _ _ _, _, rfl, ?_⟩⟩
  · decide
  · decide

theorem witness_SelectorFixedWhileBusy :
    readRunning.busy = true ∧ (∃ t, step (engineTurn readRunning [.answer .fail]) = .next t) ∧
      turn (engineTurn readRunning [.answer .fail]) ≠ .reset := ⟨rfl, ⟨_, rfl⟩, by decide⟩

/-- The three transactions. -/
theorem witness_BusCarriesOnlyDueFrames :
    (State.Inv { initRunning with schedule := [.engine], answers := [.answer (.ok [])] } ∧
      ∃ t, step { initRunning with schedule := [.engine], answers := [.answer (.ok [])] } = .next t) ∧
      (State.Inv { chunkRunning with schedule := [.engine], answers := [.answer .fail] } ∧
        ∃ t, step { chunkRunning with schedule := [.engine], answers := [.answer .fail] } = .next t) ∧
      (State.Inv { readRunning with schedule := [.engine], answers := [.answer .fail] } ∧
        ∃ t, step { readRunning with schedule := [.engine], answers := [.answer .fail] } = .next t) :=
  ⟨⟨inv_initRunning _ _, _, rfl⟩, ⟨inv_chunkRunning _ _, _, rfl⟩, ⟨inv_readRunning _ _, _, rfl⟩⟩

theorem next_of_after {α : Type} {o : Host.Outcome State Fault Refusal} {f : State → α} {b : α} (h : (after o).map f = some b) :
    ∃ t, o = .next t ∧ f t = b := by
  cases o with
  | next t => exact ⟨t, rfl, by simpa [after] using h⟩
  | fault _ => cases h
  | refused _ => cases h

/-- With no program and no command, no step of any agent starts one. -/
theorem run_stays_idle (n : Nat) : ∀ {s t : State}, s.busy = false → s.phase = .idle → s.program = [] →
    Sys2Proof.core.run n s = .next t → t.busy = false := by
  induction n with
  | zero =>
    intro s t hb _ _ h
    cases h
    exact hb
  | succ n ih =>
    intro s t hb hp hprog h
    have hs : ∃ u, step s = .next u ∧ u.busy = false ∧ u.phase = .idle ∧ u.program = [] := by
      unfold step
      cases turn s with
      | host => exact ⟨afterTurn s, by simp [runTurn, hostStep, hprog], by simpa using hb, by simpa using hp, by simpa using hprog⟩
      | engine => exact ⟨afterTurn s, by simp [runTurn, engineStep, issued, engineSilent, hp], by simpa using hb, by simpa using hp, by simpa using hprog⟩
      | reset => exact ⟨_, rfl, rfl, rfl, by simpa [resetStep, State.resetBlock] using hprog⟩
    obtain ⟨u, hu, h1, h2, h3⟩ := hs
    exact ih h1 h2 h3 ((run_step hu).symm.trans h)

/-- INIT with a configuration write that fails at ENGINE's first turn. -/
def failingInit : State := { initRunning with schedule := [.engine], answers := [.answer .fail] }

theorem failingInit_fair : failingInit.fairToEngine := by
  intro n t h
  refine ⟨0, fun ⟨u, hu, hb, ht⟩ => ?_⟩
  cases hu
  cases n with
  | zero =>
    cases h
    cases ht
  | succ n =>
    have hs : step failingInit = .next (initFail .transport { initRunning with
        schedule := [], answers := [], trace := [⟨cfgWriteFrame Params.default 0x3E#8 0x46#8, .fail⟩] }) := rfl
    have hrun := (run_step hs).symm.trans h
    rw [run_stays_idle n rfl rfl rfl hrun] at hb
    cases hb

/-- Each clause: INIT and READ still running after a HOST and an ENGINE turn (the most ENGINE turns they can take so), a fair scheduler, ENGINE alone. -/
theorem witness_CommandsEnd :
    (State.Inv { initRunning with schedule := [.host, .engine], answers := [.answer (.ok [])] } ∧
      State.deviceAnswers { initRunning with schedule := [.host, .engine], answers := [.answer (.ok [])] } ∧ initRunning.active = .init ∧
      ∀ m, m ≤ 2 → ∃ t, Sys2Proof.core.run m { initRunning with schedule := [.host, .engine], answers := [.answer (.ok [])] } = .next t ∧
        t.busy = true) ∧
      (State.Inv { readRunning with schedule := [.engine], answers := [.answer (.ok (List.replicate 132 0#8))] } ∧
        State.deviceAnswers { readRunning with schedule := [.engine], answers := [.answer (.ok (List.replicate 132 0#8))] } ∧
        readRunning.active = .read ∧
        ∀ m, m ≤ 1 → ∃ t, Sys2Proof.core.run m { readRunning with
          schedule := [.engine], answers := [.answer (.ok (List.replicate 132 0#8))] } = .next t ∧ t.busy = true) ∧
      (failingInit.Inv ∧ failingInit.deviceAnswers ∧ failingInit.fairToEngine ∧ failingInit.busy = true) ∧
      (State.Inv { initRunning with schedule := [.engine, .engine], answers := [] } ∧
        State.deviceAnswers { initRunning with schedule := [.engine, .engine], answers := [] } ∧ initRunning.phase = .initRate ∧
        [Turn.engine, .engine] = List.replicate (1 + initRunning.params.nChunk) .engine ++ []) ∧
      (State.Inv { readRunning with schedule := [.engine, .engine], answers := [.answer .fail] } ∧
        State.deviceAnswers { readRunning with schedule := [.engine, .engine], answers := [.answer .fail] } ∧ readRunning.phase = .readFrame) := by
  refine ⟨⟨inv_initRunning _ _, by simp [State.deviceAnswers], rfl, fun m hm => ?_⟩,
    ⟨inv_readRunning _ _, by simp [State.deviceAnswers], rfl, fun m hm => ?_⟩,
    ⟨inv_initRunning _ _, by simp [State.deviceAnswers, failingInit], failingInit_fair, rfl⟩,
    ⟨inv_initRunning _ _, by simp [State.deviceAnswers], rfl, by decide⟩, ⟨inv_readRunning _ _, by simp [State.deviceAnswers], rfl⟩⟩
  · refine next_of_after (f := fun t => t.busy) ?_
    revert m
    decide +kernel
  · refine next_of_after (f := fun t => t.busy) ?_
    revert m
    decide +kernel

theorem witness_InitSucceedsFromEveryIdleState :
    State.Inv { ready with
      schedule := [.host, .engine, .engine], answers := [.answer (.ok []), .answer (.ok zeroImage)], program := [.command 0x00000001#32] } ∧
      ready.busy = false ∧ ready.rateSel.toNat ≤ 10 ∧ [HostLine.command 0x00000001#32][ready.line]? = some (.command 0x00000001#32) ∧
      [Turn.host, .engine, .engine] = .host :: List.replicate (1 + ready.params.nChunk) .engine ++ [] ∧
      [DevScript.answer (.ok []), .answer (.ok zeroImage)] = .answer (.ok []) :: [zeroImage].map (fun c => DevScript.answer (.ok c)) ++ [] ∧
      [zeroImage].length = ready.params.nChunk ∧ ∀ c ∈ [zeroImage], c.length = ready.params.calChunk := by
  refine ⟨inv_ready _ _ _, rfl, by decide, rfl, by decide, rfl, by decide, fun c hc => ?_⟩
  rw [List.mem_singleton.mp hc]
  exact zeroImage_length

end Sys2Proof.Tests
end

section
/-! PROOFS. The block's arithmetic rounds to nearest, ties to even (spec/00_scope.md R17): each operation hands `Fp.round` the exact result, or the
exact result with a sticky bit, and `Fp.round_nearest` does the rest. -/

namespace Sys2Proof.Machine

/-! ### Finite values as reals -/

theorem Fp.cast_signed (neg : Bool) (m : Nat) : ((Fp.signed neg m : Int) : ℝ) = Fp.sign neg * m := by
  cases neg <;> simp [Fp.signed, Fp.sign]

theorem Fp.sign_xor (a b : Bool) : Fp.sign (a ^^ b) = Fp.sign a * Fp.sign b := by
  cases a <;> cases b <;> simp [Fp.sign]

/-- The inverse of a sign is the sign: what a quotient's sign needs. -/
theorem Fp.inv_sign (neg : Bool) : (Fp.sign neg : ℝ)⁻¹ = Fp.sign neg := by
  cases neg <;> simp [Fp.sign]

/-- An integer is its sign times its magnitude, as `Fp.add` and `Fp.ofInt` take it apart. -/
theorem Fp.sign_mul_natAbs (z : Int) : (Fp.sign (decide (z < 0)) : ℝ) * z.natAbs = z := by
  rw [Nat.cast_natAbs]
  rcases lt_or_ge z 0 with h | h
  · simp [Fp.sign, h, abs_of_neg h]
  · simp [Fp.sign, not_lt.mpr h, abs_of_nonneg h]

theorem Fp.toReal_of_unpack {x : F64} {neg : Bool} {m : Nat} {e : Int} (h : Fp.unpack x = .fin neg m e) :
    (Fp.toRat x : ℝ) = Fp.sign neg * (m * 2 ^ e) := by
  rw [Fp.toRat_of_unpack h]
  push_cast
  rfl

/-- An integer of fewer than 54 bits is converted exactly (R17). -/
theorem Fp.ofInt_exact {z : Int} (hz : z.natAbs < 2 ^ 53) : Fp.isFinite (Fp.ofInt z) = true ∧ (Fp.toRat (Fp.ofInt z) : ℝ) = z := by
  obtain ⟨hf, hv⟩ := Fp.round_exact (decide (z < 0)) (e := 0) hz (by norm_num) (by norm_num)
  refine ⟨hf, ?_⟩
  rw [Fp.ofInt, hv]
  push_cast
  rw [mul_one, Fp.sign_mul_natAbs]

/-! ### What `Fp.round` is handed -/

/-- A finite value is its own rounding. -/
theorem nearestEven_toRat {c : F64} (h : Fp.isFinite c = true) : Fp.NearestEven (Fp.toRat c) c := by
  have hb := Fp.finite_lt_overflow h
  refine ⟨fun _ => ⟨h, fun d _ => ?_, fun d _ hne heq => ?_⟩, fun hx => ?_, fun hx => ?_⟩
  · simp
  · rw [sub_self, abs_zero, abs_eq_zero, sub_eq_zero] at heq
    exact absurd (by exact_mod_cast heq.symm) hne
  · exact absurd hb (not_lt.mpr (hx.trans (le_abs_self _)))
  · exact absurd hb (not_lt.mpr ((le_neg.mp hx).trans (neg_le_abs _)))

theorem nearestEven_zero (neg : Bool) : Fp.NearestEven 0 (Fp.zero neg) := by
  simpa using nearestEven_toRat (Fp.isFinite_zero neg)

/-- `Fp.round` of an exact magnitude, zero included. -/
theorem Fp.round_nearest_exact (neg : Bool) (m : Nat) (e : Int) :
    Fp.NearestEven ((Fp.sign neg : ℝ) * (m * 2 ^ e)) (Fp.round neg m e) := by
  by_cases h0 : m = 0
  · subst h0
    simpa [Fp.round] using nearestEven_zero neg
  · exact Fp.round_nearest h0 (Or.inl rfl)

/-- `Fp.round` of a digit string `q` with a sticky bit rounds every `t · 2^e` whose whole part is `q`, when `q` has more than 53 bits. -/
theorem Fp.round_nearest_sticky (neg : Bool) {p : Prop} [Decidable p] {q : Nat} {e : Int} {t : ℝ} (hq : 2 ^ 53 ≤ q)
    (hexact : p → t = q) (hrest : ¬ p → (q : ℝ) < t ∧ t < q + 1) :
    Fp.NearestEven ((Fp.sign neg : ℝ) * (t * 2 ^ e)) (Fp.round neg (Fp.sticky q (decide p)) (e - 1)) := by
  have hunit : t * (2 : ℝ) ^ e = 2 * t * 2 ^ (e - 1) := by
    rw [zpow_sub_one₀ (by norm_num)]
    ring
  rw [hunit]
  by_cases h : p
  · have hm : Fp.sticky q (decide p) = 2 * q := by simp [Fp.sticky, h]
    rw [hm, hexact h]
    exact Fp.round_nearest (by omega) (Or.inl (by push_cast; rfl))
  · have hm : Fp.sticky q (decide p) = 2 * q + 1 := by simp [Fp.sticky, h]
    obtain ⟨hlo, hhi⟩ := hrest h
    rw [hm]
    refine Fp.round_nearest (by omega) (Or.inr ⟨by omega, abs_lt.mpr ⟨?_, ?_⟩, by omega⟩) <;> push_cast <;> linarith

/-! ### Sums and differences -/

/-- The integer that `Fp.add` rounds, in units of the smaller exponent, is the exact sum. -/
theorem Fp.sum_in_common_units (a b : Bool) (m n : Nat) (d e : Int) :
    ((Fp.signed a (m * 2 ^ (d - min d e).toNat) + Fp.signed b (n * 2 ^ (e - min d e).toNat) : Int) : ℝ) * 2 ^ min d e =
      Fp.sign a * (m * 2 ^ d) + Fp.sign b * (n * 2 ^ e) := by
  have hunit : ∀ f : Int, min d e ≤ f → (2 : ℝ) ^ (f - min d e).toNat * 2 ^ min d e = 2 ^ f := fun f hf => by
    rw [← zpow_natCast, ← zpow_add₀ (by norm_num), Int.toNat_of_nonneg (by omega), sub_add_cancel]
  rw [← hunit d (min_le_left d e), ← hunit e (min_le_right d e)]
  push_cast [Fp.cast_signed]
  ring

theorem Fp.add_nearest {x y : F64} (hx : Fp.isFinite x = true) (hy : Fp.isFinite y = true) :
    Fp.NearestEven (Fp.toRat x + Fp.toRat y) (Fp.add x y) := by
  obtain ⟨m, d, hux, -⟩ := Fp.unpack_of_finite hx
  obtain ⟨n, e, huy, -⟩ := Fp.unpack_of_finite hy
  rw [Fp.toReal_of_unpack hux, Fp.toReal_of_unpack huy, ← Fp.sum_in_common_units]
  simp only [Fp.add, hux, huy]
  split_ifs with h0
  · rw [h0, Int.cast_zero, zero_mul]
    exact nearestEven_zero _
  · rw [← Fp.sign_mul_natAbs, mul_assoc]
    exact Fp.round_nearest_exact _ _ _

theorem Fp.sub_nearest {x y : F64} (hx : Fp.isFinite x = true) (hy : Fp.isFinite y = true) :
    Fp.NearestEven (Fp.toRat x - Fp.toRat y) (Fp.sub x y) := by
  have h := Fp.add_nearest hx ((Fp.isFinite_neg y).trans hy)
  rwa [Fp.toRat_neg hy, Rat.cast_neg, ← sub_eq_add_neg] at h

/-- Settles O46: the exact sum is an integer number of common units, and a difference is the sum with the negated operand. -/
theorem sumsRoundToNearestEven : Obligations.SumsRoundToNearestEven :=
  fun _ _ hx hy => ⟨Fp.add_nearest hx hy, Fp.sub_nearest hx hy⟩

/-! ### Products and quotients -/

theorem Fp.mul_nearest {x y : F64} (hx : Fp.isFinite x = true) (hy : Fp.isFinite y = true) :
    Fp.NearestEven (Fp.toRat x * Fp.toRat y) (Fp.mul x y) := by
  obtain ⟨m, d, hux, -⟩ := Fp.unpack_of_finite hx
  obtain ⟨n, e, huy, -⟩ := Fp.unpack_of_finite hy
  have hprod : (Fp.toRat x * Fp.toRat y : ℝ) =
      Fp.sign (Fp.signBit x ^^ Fp.signBit y) * ((m * n : Nat) * 2 ^ (d + e)) := by
    rw [Fp.toReal_of_unpack hux, Fp.toReal_of_unpack huy, Fp.sign_xor, zpow_add₀ (by norm_num)]
    push_cast
    ring
  rw [hprod]
  simp only [Fp.mul, hux, huy]
  exact Fp.round_nearest_exact _ _ _

/-- Where an integer division leaves a rest, the exact quotient lies strictly between two integers. -/
theorem natDiv_lt_div_lt_succ {a n : Nat} (hn : 0 < n) (h : a % n ≠ 0) : ((a / n : Nat) : ℝ) < a / n ∧ (a / n : ℝ) < (a / n : Nat) + 1 := by
  have hn' : (0 : ℝ) < n := by exact_mod_cast hn
  have hdiv := Nat.div_add_mod' a n
  rw [lt_div_iff₀ hn', div_lt_iff₀ hn']
  constructor
  · exact_mod_cast (by omega : a / n * n < a)
  · exact_mod_cast Nat.lt_mul_of_div_lt (Nat.lt_succ_self (a / n)) hn

theorem Fp.div_nearest {x y : F64} (hx : Fp.isFinite x = true) (hy : Fp.isFinite y = true) (h0 : Fp.toRat y ≠ 0) :
    Fp.NearestEven (Fp.toRat x / Fp.toRat y) (Fp.div x y) := by
  obtain ⟨m, d, hux, -⟩ := Fp.unpack_of_finite hx
  obtain ⟨n, e, huy, hn53, -⟩ := Fp.unpack_of_finite hy
  have hn : n ≠ 0 := by
    rintro rfl
    exact h0 (by simp [Fp.toRat_of_unpack huy])
  have hquot : (Fp.toRat x / Fp.toRat y : ℝ) = Fp.sign (Fp.signBit x ^^ Fp.signBit y) *
      (((m * 2 ^ Fp.guardBits : Nat) : ℝ) / n * 2 ^ (d - e - Fp.guardBits)) := by
    rw [Fp.toReal_of_unpack hux, Fp.toReal_of_unpack huy, mul_div_mul_comm, div_eq_mul_inv (Fp.sign _ : ℝ), Fp.inv_sign, Fp.sign_xor,
      zpow_sub₀ (by norm_num), zpow_sub₀ (by norm_num), zpow_natCast]
    push_cast
    field_simp
  rw [hquot]
  simp only [Fp.div, hux, huy, if_neg hn]
  by_cases hm : m = 0
  · subst hm
    simpa [Fp.sticky, Fp.round] using nearestEven_zero _
  · have hq : 2 ^ 53 ≤ m * 2 ^ Fp.guardBits / n := by
      rw [Nat.le_div_iff_mul_le (Nat.pos_of_ne_zero hn)]
      calc 2 ^ 53 * n ≤ 2 ^ 53 * 2 ^ 53 := by gcongr
        _ ≤ 1 * 2 ^ Fp.guardBits := by decide
        _ ≤ m * 2 ^ Fp.guardBits := by gcongr; omega
    exact Fp.round_nearest_sticky _ hq (fun h => (Nat.cast_div_charZero (Nat.dvd_of_mod_eq_zero h)).symm) (natDiv_lt_div_lt_succ (Nat.pos_of_ne_zero hn))

/-- Settles O47: a product is rounded from the exact product of the significands, a quotient from its first digits and a sticky bit. -/
theorem productsAndQuotientsRoundToNearestEven : Obligations.ProductsAndQuotientsRoundToNearestEven :=
  fun _ _ hx hy => ⟨Fp.mul_nearest hx hy, Fp.div_nearest hx hy⟩

/-! ### Square roots -/

/-- The root of an integer lies strictly between its integer root and the next integer, unless the integer is a square. -/
theorem sqrt_between_isqrt {n r : Nat} (hlo : r * r ≤ n) (hhi : n < (r + 1) * (r + 1)) (h : r * r ≠ n) : (r : ℝ) < √n ∧ √n < r + 1 := by
  rw [Real.lt_sqrt (by positivity), Real.sqrt_lt' (by positivity), sq, sq]
  constructor
  · exact_mod_cast lt_of_le_of_ne hlo h
  · exact_mod_cast hhi

theorem Fp.signBit_of_nonneg {x : F64} {m : Nat} {e : Int} (hux : Fp.unpack x = .fin (Fp.signBit x) m e) (hm : m ≠ 0)
    (h0 : 0 ≤ Fp.toRat x) : Fp.signBit x = false := by
  by_contra hneg
  rw [Fp.toRat_of_unpack hux, eq_true_of_ne_false hneg] at h0
  have : (0 : ℚ) < m * 2 ^ e := by positivity
  simp only [Fp.sign, if_true] at h0
  linarith

/-- The shift that `Fp.sqrt` takes leaves an even exponent, whose half comes out of the root. -/
theorem sqrt_of_even_exponent (m : Nat) {e : Int} {shift : Nat} (heven : (e - shift) % 2 = 0) :
    √((m : ℝ) * 2 ^ e) = √((m * 2 ^ shift : Nat) : ℝ) * 2 ^ ((e - shift) / 2) := by
  have hsq : (2 : ℝ) ^ (e - shift) = (2 ^ ((e - shift) / 2)) ^ 2 := by
    rw [← zpow_natCast, ← zpow_mul]
    congr 1
    push_cast
    omega
  have hval : (m : ℝ) * 2 ^ e = (m * 2 ^ shift : Nat) * (2 ^ ((e - shift) / 2)) ^ 2 := by
    rw [← hsq, zpow_sub₀ (by norm_num), zpow_natCast]
    push_cast
    field_simp
  rw [hval, Real.sqrt_mul (by positivity), Real.sqrt_sq (by positivity)]

/-- The shift that `Fp.sqrt` takes gives the integer root its range and more digits than rounding needs. -/
theorem Fp.isqrt_shifted {m shift : Nat} (hm : m ≠ 0) (hm53 : m < 2 ^ 53) (hs1 : Fp.guardBits ≤ shift) (hs2 : shift ≤ Fp.guardBits + 1) :
    m * 2 ^ shift < 2 ^ 172 ∧ 2 ^ 53 ≤ Fp.isqrt (m * 2 ^ shift) := by
  have hn : m * 2 ^ shift < 2 ^ 172 :=
    calc m * 2 ^ shift < 2 ^ 53 * 2 ^ shift := by gcongr
      _ ≤ 2 ^ 53 * 2 ^ (Fp.guardBits + 1) := by gcongr; norm_num
      _ < 2 ^ 172 := by decide
  have hlarge : 2 ^ 53 * 2 ^ 53 ≤ m * 2 ^ shift :=
    calc 2 ^ 53 * 2 ^ 53 ≤ 1 * 2 ^ Fp.guardBits := by decide
      _ ≤ m * 2 ^ shift := by gcongr <;> omega
  have hhi := (Fp.isqrt_spec hn).2
  exact ⟨hn, Nat.lt_succ_iff.mp (Nat.mul_self_lt_mul_self_iff.mp (hlarge.trans_lt hhi))⟩

theorem Fp.sqrt_nearest {x : F64} (hx : Fp.isFinite x = true) (h0 : 0 ≤ Fp.toRat x) : Fp.NearestEven √(Fp.toRat x) (Fp.sqrt x) := by
  obtain ⟨m, e, hux, hm53, -⟩ := Fp.unpack_of_finite hx
  simp only [Fp.sqrt, hux]
  by_cases hm : m = 0
  · subst hm
    simpa [Fp.toRat_of_unpack hux] using nearestEven_zero _
  have hpos := Fp.signBit_of_nonneg hux hm h0
  rw [if_neg hm, hpos, if_neg Bool.false_ne_true]
  generalize hs : (if e % 2 = 0 then Fp.guardBits else Fp.guardBits + 1) = shift
  have hshift : Fp.guardBits ≤ shift ∧ shift ≤ Fp.guardBits + 1 ∧ (e - shift) % 2 = 0 := by
    rw [← hs, Fp.guardBits]
    split_ifs <;> omega
  obtain ⟨hs1, hs2, heven⟩ := hshift
  obtain ⟨hn, hq⟩ := Fp.isqrt_shifted hm hm53 hs1 hs2
  obtain ⟨hlo, hhi⟩ := Fp.isqrt_spec hn
  have hroot : √(Fp.toRat x : ℝ) = Fp.sign false * (√((m * 2 ^ shift : Nat) : ℝ) * 2 ^ ((e - shift) / 2)) := by
    rw [Fp.toReal_of_unpack hux, hpos, ← sqrt_of_even_exponent m heven]
    simp [Fp.sign]
  rw [hroot]
  refine Fp.round_nearest_sticky false hq (fun h => ?_) (sqrt_between_isqrt hlo hhi)
  nth_rewrite 1 [← h]
  rw [Nat.cast_mul, Real.sqrt_mul_self (by positivity)]

/-- Settles O48: the root is rounded from the integer root of the significand, shifted to an even exponent, and a sticky bit. -/
theorem rootsRoundToNearestEven : Obligations.RootsRoundToNearestEven :=
  fun _ hx h0 => Fp.sqrt_nearest hx h0

/-! ### Decimal constants -/

/-- A fraction of two integers is rounded by the block's own division. -/
theorem nearestEven_fraction {a b : Int} {c : F64} (hc : c = Fp.div (Fp.ofInt a) (Fp.ofInt b)) (ha : a.natAbs < 2 ^ 53)
    (hb : b.natAbs < 2 ^ 53) (h0 : b ≠ 0) : Fp.NearestEven (a / b) c := by
  obtain ⟨hfa, hva⟩ := Fp.ofInt_exact ha
  obtain ⟨hfb, hvb⟩ := Fp.ofInt_exact hb
  rw [hc, ← hva, ← hvb]
  refine Fp.div_nearest hfa hfb fun h => h0 ?_
  rw [h] at hvb
  exact_mod_cast hvb.symm

/-- Settles O50: each constant is the quotient that the block itself computes of its decimal fraction's two integers. -/
theorem decimalConstantsNearest : Obligations.DecimalConstantsNearest := by
  have hmin := nearestEven_fraction (a := -2732) (b := 10) (c := Config.tMin) (by decide) (by decide) (by decide) (by decide)
  have hmax := nearestEven_fraction (a := 32767) (b := 10) (c := Config.tMax) (by decide) (by decide) (by decide) (by decide)
  have hkelvin := nearestEven_fraction (a := 27315) (b := 100) (c := Fp.kelvin) (by decide) (by decide) (by decide) (by decide)
  push_cast at hmin hmax hkelvin
  exact ⟨by rwa [← neg_div], hmax, hkelvin⟩

end Sys2Proof.Machine
end

section
/-! PROOFS. What every step keeps (spec/10_state.md R29 to R41): which steps write the grids, the image and ERR, the invariants of R39 in three parts
(control, shapes, grids), and the INIT history of R40. -/

namespace Sys2Proof.Machine

/-! ### What an effect leaves as it was -/

/-- The grids and GRID_VALID are as they were. -/
def GridsKept (s t : State) : Prop := t.gi = s.gi ∧ t.gf = s.gf ∧ t.gridValid = s.gridValid

theorem HostEffect.keeps {s t : State} (h : HostEffect s t) :
    GridsKept s t ∧ t.params = s.params ∧ t.cal = s.cal ∧ t.calStage = s.calStage ∧ t.raw = s.raw := by
  cases h <;> exact ⟨⟨rfl, rfl, rfl⟩, rfl, rfl, rfl, rfl⟩

theorem HostTurn.keeps {s t : State} (h : HostTurn s t) :
    GridsKept s t ∧ t.params = s.params ∧ t.cal = s.cal ∧ t.calStage = s.calStage ∧ t.raw = s.raw := by
  cases h with
  | ended _ => exact ⟨⟨rfl, rfl, rfl⟩, rfl, rfl, rfl, rfl⟩
  | ran u line he => exact he.keeps

/-- READY does not rise in a turn of the HOST. -/
theorem HostEffect.ready_of_ready {s t : State} (h : HostEffect s t) (hr : t.ready = true) : s.ready = true := by
  cases h with
  | config _ _ | initAccepted _ => cases hr
  | nothing | readWord _ | readAccepted _ _ | readRefused _ _ | illegalCommand _ => exact hr

theorem HostTurn.ready_of_ready {s t : State} (h : HostTurn s t) (hr : t.ready = true) : s.ready = true := by
  cases h with
  | ended _ => exact hr
  | ran u line he => exact he.ready_of_ready (s := nextLine s) hr

/-- The HOST writes ERR by a READ that is refused or by an illegal command word, and only while BUSY = 0 (R262, R268). -/
theorem HostEffect.err_written {s t : State} (h : HostEffect s t) (he : t.err ≠ s.err) :
    s.busy = false ∧ t.busy = false ∧ ((t.err = .notInitialized ∧ s.ready = false) ∨ t.err = .illegalCmd) := by
  cases h with
  | readRefused hb hr => exact ⟨hb, hb, .inl ⟨rfl, hr⟩⟩
  | illegalCommand hb => exact ⟨hb, hb, .inr rfl⟩
  | nothing | readWord _ | config _ _ | initAccepted _ | readAccepted _ _ => exact absurd rfl he

theorem HostTurn.err_written {s t : State} (h : HostTurn s t) (he : t.err ≠ s.err) :
    s.busy = false ∧ t.busy = false ∧ ((t.err = .notInitialized ∧ s.ready = false) ∨ t.err = .illegalCmd) := by
  cases h with
  | ended _ => exact absurd rfl he
  | ran u line hu => exact hu.err_written (s := nextLine s) he

theorem EngineEffect.params {s t : State} (h : EngineEffect s t) : t.params = s.params := by
  cases h with
  | idle _ | waits _ _ | unsupported _ _ | computed _ => rfl
  | configFailed _ _ _ _ ha | configured _ _ _ _ _ ha | chunkFailed _ _ _ ha | chunkWrongLength _ _ _ _ _ ha | chunkStored _ _ _ _ _ _ ha
  | initCompleted _ _ _ _ _ _ ha | frameFailed _ _ _ _ ha | frameStored _ _ _ _ ha =>
    obtain ⟨_, _, rfl⟩ := ha.block
    rfl

/-- ENGINE writes the grids in its READ_COMP step only (R266). -/
theorem EngineEffect.grids {s t : State} (h : EngineEffect s t) : (s.phase = .readComp ∧ t = readComp s) ∨ GridsKept s t := by
  cases h with
  | computed hp => exact .inl ⟨hp, rfl⟩
  | idle _ | waits _ _ | unsupported _ _ => exact .inr ⟨rfl, rfl, rfl⟩
  | configFailed _ _ _ _ ha | configured _ _ _ _ _ ha | chunkFailed _ _ _ ha | chunkWrongLength _ _ _ _ _ ha | chunkStored _ _ _ _ _ _ ha
  | initCompleted _ _ _ _ _ _ ha | frameFailed _ _ _ _ ha | frameStored _ _ _ _ ha =>
    obtain ⟨_, _, rfl⟩ := ha.block
    exact .inr ⟨rfl, rfl, rfl⟩

/-- ENGINE writes `st.CAL` and raises READY in the step that completes INIT only (R125, R176). -/
theorem EngineEffect.image {s t : State} (h : EngineEffect s t) :
    (∃ j, s.phase = .initCal j ∧ s.params.nChunk ≤ j + 1 ∧ t.ready = true ∧ t.err = .ok ∧ t.busy = false) ∨
    (t.cal = s.cal ∧ (t.ready = true → s.ready = true)) := by
  cases h with
  | initCompleted j bytes s1 hp hlen hj ha => exact .inl ⟨j, hp, hj, rfl, rfl, rfl⟩
  | idle _ | waits _ _ | computed _ => exact .inr ⟨rfl, id⟩
  | unsupported _ _ => exact .inr ⟨rfl, fun hr => by cases hr⟩
  | configFailed _ _ _ _ ha | chunkFailed _ _ _ ha | chunkWrongLength _ _ _ _ _ ha =>
    obtain ⟨_, _, rfl⟩ := ha.block
    exact .inr ⟨rfl, fun hr => by cases hr⟩
  | configured _ _ _ _ _ ha | chunkStored _ _ _ _ _ _ ha | frameFailed _ _ _ _ ha | frameStored _ _ _ _ ha =>
    obtain ⟨_, _, rfl⟩ := ha.block
    exact .inr ⟨rfl, id⟩

/-- ENGINE writes ERR in a step that ends a command only (R18). -/
theorem EngineEffect.err_written {s t : State} (h : EngineEffect s t) (he : t.err ≠ s.err) : s.phase ≠ .idle ∧ t.busy = false := by
  cases h with
  | idle _ | waits _ _ => exact absurd rfl he
  | configured _ _ _ _ _ ha | chunkStored _ _ _ _ _ _ ha | frameStored _ _ _ _ ha =>
    obtain ⟨_, _, rfl⟩ := ha.block
    exact absurd rfl he
  | unsupported hp _ | configFailed _ _ hp _ _ | chunkFailed _ _ hp _ | chunkWrongLength _ _ _ hp _ _ | initCompleted _ _ _ hp _ _ _
  | frameFailed _ _ hp _ _ | computed hp => exact ⟨by simp [hp], rfl⟩

/-! ### Who writes the grids, the image and ERR -/

/-- Settles O54: the HOST writes no grid, ENGINE only in READ_COMP, where READY vouches for the image. -/
theorem gridsChangeOnlyAtCommit : Obligations.GridsChangeOnlyAtCommit := by
  intro s t hi h
  rcases step_next_cases h with ⟨_, ht⟩ | ⟨hturn, ht⟩ | ⟨hturn, rfl⟩
  · right; right
    simpa [GridsKept] using ht.keeps.1
  · rcases ht.grids with ⟨hp, rfl⟩ | hk
    · rw [afterTurn_phase] at hp
      have hr : s.ready = true := hi.readyInRead (by rw [hi.activeIs, hp]; rfl)
      obtain ⟨image, hc⟩ := Option.ne_none_iff_exists'.mp (hi.readyHasImage hr)
      exact .inr (.inl ⟨hturn, hp, rfl, image, hc, by simp [readComp, hc]⟩)
    · right; right
      simpa [GridsKept] using hk
  · exact .inl ⟨hturn, ⟨rfl, rfl⟩, rfl⟩

/-- Settles O55: the HOST neither writes `st.CAL` nor raises READY, and ENGINE does so only after the last chunk. -/
theorem imageChangesOnlyAtInitEnd : Obligations.ImageChangesOnlyAtInitEnd := by
  intro s t hi h hchange
  have contra (hc : t.cal = s.cal) (hr : t.ready = true → s.ready = true) : False := by
    rcases hchange with hne | ⟨hr0, hr1⟩
    · exact hne hc
    · exact Bool.false_ne_true (hr0.symm.trans (hr hr1))
  rcases step_next_cases h with ⟨_, ht⟩ | ⟨hturn, ht⟩ | ⟨hturn, _⟩
  · obtain ⟨_, _, hc, _, _⟩ := ht.keeps
    exact (contra (by simpa using hc) (by simpa using ht.ready_of_ready)).elim
  · rcases ht.image with ⟨j, hp, hj, hend⟩ | ⟨hc, hr⟩
    · rw [afterTurn_phase] at hp
      rw [afterTurn_params] at hj
      exact .inr ⟨hturn, ⟨j, hp, Nat.le_antisymm (hi.chunkInRange j hp) hj⟩, hend⟩
    · exact (contra (by simpa using hc) (by simpa using hr)).elim
  · exact .inl hturn

/-- Settles O56: by the agent whose turn it is; a phase that is not IDLE means BUSY = 1. -/
theorem errWrittenOnlyAtEnds : Obligations.ErrWrittenOnlyAtEnds := by
  intro s t hi h he
  rcases step_next_cases h with ⟨hturn, ht⟩ | ⟨hturn, ht⟩ | ⟨hturn, _⟩
  · exact .inr (.inr ⟨hturn, by simpa using ht.err_written (by simpa using he)⟩)
  · obtain ⟨hp, hb⟩ := ht.err_written (by simpa using he)
    exact .inr (.inl ⟨hturn, hi.busyIff.mpr (by simpa using hp), hb⟩)
  · exact .inl hturn

/-! ### The three parts of the invariant -/

/-- BUSY, PHASE and ACTIVE agree, and what a running command says of READY, the image, the chunk and the rate (R21, R29, R37). -/
def State.ControlSound (s : State) : Prop :=
  (s.busy = true ↔ s.phase ≠ .idle) ∧ s.active = activeOf s.phase ∧ (s.ready = true → s.cal ≠ none) ∧
  (s.active = .init → s.ready = false) ∧ (s.active = .read → s.ready = true) ∧
  ∀ j, s.phase = .initCal j → j < s.params.nChunk ∧ rateSupported s.rateSel = true

/-- The parameters are admitted, and the image and the buffers have their lengths (R33 to R35). -/
def State.ShapesSound (s : State) : Prop :=
  s.params.wf = true ∧ (∀ image, s.cal = some image → image.length = s.params.calBytes) ∧ s.calStage.length = s.params.calBytes ∧
  s.raw.length = s.params.frameWords

/-- The two grids agree, are in range, and are those of reset or of one frame (R39, statements 4 and 5). -/
def State.GridsSound (s : State) : Prop :=
  (∀ k : Pixel, s.gi[k] = toFixed s.gf[k]) ∧ (∀ k : Pixel, inRange s.gf[k]) ∧
  ((s.gridValid = false ∧ resetGrids s) ∨ (s.gridValid = true ∧ gridsOfOneFrame s))

theorem State.inv_iff (s : State) : s.Inv ↔ s.ControlSound ∧ s.ShapesSound ∧ s.GridsSound := by
  constructor
  · intro h
    exact ⟨⟨h.busyIff, h.activeIs, h.readyHasImage, h.notReadyInInit, h.readyInRead, fun j hp => ⟨h.chunkInRange j hp, h.supportedInCal j hp⟩⟩,
      ⟨h.paramsWf, h.imageLength, h.stageLength, h.rawLength⟩, ⟨h.gridsAgree, h.gridsInRange, h.gridsWhole⟩⟩
  · rintro ⟨⟨hbusy, hactive, hready, hinit, hread, hchunk⟩, ⟨hwf, himage, hstage, hraw⟩, ⟨hagree, hrange, hwhole⟩⟩
    exact ⟨hwf, hbusy, hactive, hready, hinit, hread, himage, hstage, hraw, fun j hp => (hchunk j hp).1, fun j hp => (hchunk j hp).2,
      hagree, hrange, hwhole⟩

theorem State.Inv.controlSound {s : State} (h : s.Inv) : s.ControlSound := ((State.inv_iff s).mp h).1

theorem State.Inv.shapesSound {s : State} (h : s.Inv) : s.ShapesSound := ((State.inv_iff s).mp h).2.1

theorem State.Inv.gridsSound {s : State} (h : s.Inv) : s.GridsSound := ((State.inv_iff s).mp h).2.2

/-- The invariant reads nothing of the agents around the block. -/
theorem State.Inv.afterTurn {s : State} (h : s.Inv) : (afterTurn s).Inv := by
  obtain ⟨_, _, hs⟩ := afterTurn_block s
  rw [hs]
  exact (State.inv_iff _).mpr ((State.inv_iff s).mp h)

theorem State.Inv.nextLine {s : State} (h : s.Inv) : (nextLine s).Inv :=
  (State.inv_iff _).mpr ((State.inv_iff s).mp h)

theorem State.Inv.idle_of_not_busy {s : State} (h : s.Inv) (hb : s.busy = false) : s.phase = .idle :=
  not_not.mp (mt h.busyIff.mpr (by simp [hb]))

theorem State.Inv.not_ready_of_init {s : State} (h : s.Inv) (hp : activeOf s.phase = .init) : s.ready = false :=
  h.notReadyInInit (h.activeIs.trans hp)

theorem State.Inv.ready_of_read {s : State} (h : s.Inv) (hp : activeOf s.phase = .read) : s.ready = true :=
  h.readyInRead (h.activeIs.trans hp)

/-! ### Control -/

/-- With no command running, only READY and the image have to agree. -/
theorem controlSound_of_idle {s : State} (hb : s.busy = false) (hp : s.phase = .idle) (ha : s.active = .none)
    (hr : s.ready = true → s.cal ≠ none) : s.ControlSound := by
  simpa [State.ControlSound, hb, hp, ha, activeOf] using hr

theorem HostEffect.controlSound {s t : State} (h : HostEffect s t) (hi : s.Inv) : t.ControlSound := by
  cases h with
  | nothing | readWord _ | readRefused _ _ | illegalCommand _ => exact hi.controlSound
  | config data hb =>
    have hp := hi.idle_of_not_busy hb
    exact controlSound_of_idle hb hp (by rw [acceptConfig_active, hi.activeIs, hp]; rfl) (by simp)
  | initAccepted _ => simp [State.ControlSound, activeOf]
  | readAccepted _ hr => simp [State.ControlSound, activeOf, hr, hi.readyHasImage hr]

theorem HostTurn.controlSound {s t : State} (h : HostTurn s t) (hi : s.Inv) : t.ControlSound := by
  cases h with
  | ended _ => exact hi.controlSound
  | ran u line he => exact he.controlSound hi.nextLine

theorem rateSupported_of_rateByte {sel : BitVec 4} {low : Byte} (h : rateByte sel = some low) : rateSupported sel = true := by
  unfold rateByte at h
  split at h
  · assumption
  · cases h

theorem EngineEffect.controlSound {s t : State} (h : EngineEffect s t) (hi : s.Inv) : t.ControlSound := by
  cases h with
  | idle _ | waits _ _ => exact hi.controlSound
  | unsupported _ _ | configFailed _ _ _ _ _ | chunkFailed _ _ _ _ | chunkWrongLength _ _ _ _ _ _ | initCompleted _ _ _ _ _ _ _ =>
    exact controlSound_of_idle rfl rfl rfl (by simp)
  | computed _ => exact controlSound_of_idle rfl rfl rfl hi.readyHasImage
  | frameFailed _ _ _ _ ha =>
    obtain ⟨_, _, rfl⟩ := ha.block
    exact controlSound_of_idle rfl rfl rfl hi.readyHasImage
  | configured low _ _ hp hl ha =>
    have hr := hi.not_ready_of_init (by rw [hp]; rfl)
    have hb := hi.busyIff.mpr (by simp [hp])
    obtain ⟨_, _, _, hn⟩ := Params.wf_chunks hi.paramsWf
    obtain ⟨_, _, rfl⟩ := ha.block
    simp [State.ControlSound, hi.activeIs, hp, hr, hb, activeOf, hn, rateSupported_of_rateByte hl]
  | chunkStored j _ _ hp _ hj ha =>
    have hr := hi.not_ready_of_init (by rw [hp]; rfl)
    have hb := hi.busyIff.mpr (by simp [hp])
    obtain ⟨_, _, rfl⟩ := ha.block
    simp [State.ControlSound, hi.activeIs, hp, hr, hb, activeOf, hj, hi.supportedInCal j hp]
  | frameStored _ _ hp _ ha =>
    have hr := hi.ready_of_read (by rw [hp]; rfl)
    have hb := hi.busyIff.mpr (by simp [hp])
    obtain ⟨_, _, rfl⟩ := ha.block
    simp [State.ControlSound, hi.activeIs, hp, hr, hb, activeOf, hi.readyHasImage hr]

/-! ### Shapes -/

theorem HostTurn.shapesSound {s t : State} (h : HostTurn s t) (hs : s.ShapesSound) : t.ShapesSound := by
  obtain ⟨_, hp, hc, hst, hr⟩ := h.keeps
  rwa [State.ShapesSound, hp, hc, hst, hr]

/-- The buffers with their free contents have their lengths too. -/
theorem State.ShapesSound.freeStage {s : State} (h : s.ShapesSound) : (freeStage s).ShapesSound := by
  obtain ⟨hwf, himage, _, hraw⟩ := h
  exact ⟨hwf, himage, by simp, hraw⟩

theorem State.ShapesSound.freeRaw {s : State} (h : s.ShapesSound) : (freeRaw s).ShapesSound := by
  obtain ⟨hwf, himage, hstage, _⟩ := h
  exact ⟨hwf, himage, hstage, by simp⟩

theorem State.ShapesSound.stageWith {s : State} (h : s.ShapesSound) {j : Nat} {bytes : List Byte} (hj : j < s.params.nChunk)
    (hlen : bytes.length = s.params.calChunk) : (stageWith s.params j bytes s.calStage).length = s.params.calBytes := by
  obtain ⟨hwf, _, hstage, _⟩ := h
  rw [stageWith_length hlen (hstage ▸ Params.chunk_end hwf hj), hstage]

theorem EngineEffect.shapesSound {s t : State} (h : EngineEffect s t) (hi : s.Inv) : t.ShapesSound := by
  have hs : s.ShapesSound := hi.shapesSound
  have ⟨hwf, himage, hstage, hraw⟩ := hs
  cases h with
  | idle _ | waits _ _ | computed _ => exact hs
  | unsupported _ _ => exact State.ShapesSound.freeStage hs
  | configFailed _ _ _ _ ha | chunkFailed _ _ _ ha | chunkWrongLength _ _ _ _ _ ha =>
    obtain ⟨_, _, rfl⟩ := ha.block
    exact State.ShapesSound.freeStage hs
  | configured _ _ _ _ _ ha =>
    obtain ⟨_, _, rfl⟩ := ha.block
    exact hs
  | chunkStored j _ _ hp hlen _ ha =>
    have hl := hs.stageWith (hi.chunkInRange j hp) hlen
    obtain ⟨_, _, rfl⟩ := ha.block
    exact ⟨hwf, himage, hl, hraw⟩
  | initCompleted j _ _ hp hlen _ ha =>
    have hl := hs.stageWith (hi.chunkInRange j hp) hlen
    obtain ⟨_, _, rfl⟩ := ha.block
    exact State.ShapesSound.freeStage ⟨hwf, fun image h => Option.some.inj h ▸ hl, hl, hraw⟩
  | frameFailed _ _ _ _ ha =>
    obtain ⟨_, _, rfl⟩ := ha.block
    exact State.ShapesSound.freeRaw hs
  | frameStored _ _ _ _ ha =>
    obtain ⟨_, _, rfl⟩ := ha.block
    exact ⟨hwf, himage, hstage, frameWordsOf_length _ _⟩

/-! ### Grids -/

theorem gridsSound_of_resetGrids {s : State} (hv : s.gridValid = false) (hg : resetGrids s) : s.GridsSound := by
  refine ⟨fun k => ?_, fun k => ?_, .inl ⟨hv, hg⟩⟩
  · rw [hg.1, hg.2, tabulate_get, tabulate_get, toFixed_zero]
  · rw [hg.2, tabulate_get]
    exact inRange_zero

theorem gridsSound_of_frame {s : State} (hv : s.gridValid = true) (hg : gridsOfOneFrame s) : s.GridsSound := by
  have ⟨w, image, _, _, hc⟩ := hg
  have hgi : s.gi = (compensate (profileOf s.params.profile) w image).1 := congrArg Prod.fst hc
  have hgf : s.gf = (compensate (profileOf s.params.profile) w image).2 := congrArg Prod.snd hc
  refine ⟨fun k => ?_, fun k => ?_, .inr ⟨hv, hg⟩⟩
  · rw [hgi, hgf, compensate_int]
  · rw [hgf, compensate_flt]
    exact lane_inRange _ _ _ _ _

theorem gridsSound_of_kept {s t : State} (hp : t.params = s.params) (hk : GridsKept s t) (h : s.GridsSound) : t.GridsSound := by
  obtain ⟨hgi, hgf, hv⟩ := hk
  simpa only [State.GridsSound, resetGrids, gridsOfOneFrame, hp, hgi, hgf, hv] using h

theorem step_params {s t : State} (h : step s = .next t) : t.params = s.params := by
  rcases step_next_cases h with ⟨_, ht⟩ | ⟨_, ht⟩ | ⟨_, rfl⟩
  · obtain ⟨_, hp, _⟩ := ht.keeps
    exact hp.trans (afterTurn_params s)
  · exact ht.params.trans (afterTurn_params s)
  · simp [resetStep]

/-- The three ways the grids can go (`gridsChangeOnlyAtCommit`) all leave them sound. -/
theorem step_gridsSound {s t : State} (hi : s.Inv) (h : step s = .next t) : t.GridsSound := by
  have hp := step_params h
  rcases gridsChangeOnlyAtCommit s t hi h with ⟨_, hg, hv⟩ | ⟨_, _, hv, image, hc, hg⟩ | hk
  · exact gridsSound_of_resetGrids hv hg
  · exact gridsSound_of_frame hv ⟨s.raw, image, by rw [hp]; exact ⟨hi.rawLength, hi.imageLength image hc, hg⟩⟩
  · exact gridsSound_of_kept hp hk hi.gridsSound

/-! ### The invariant, at reset and after a step -/

/-- A block at its reset values meets the invariants, whatever its agents are doing. -/
theorem inv_resetBlock {s : State} (hwf : s.params.wf = true) : s.resetBlock.Inv :=
  (State.inv_iff _).mpr ⟨controlSound_of_idle rfl rfl rfl (by simp), ⟨hwf, fun _ h => (by cases h), by simp, by simp⟩,
    gridsSound_of_resetGrids rfl ⟨rfl, rfl⟩⟩

/-- Settles O52: the reset event apart, the agent's effect keeps control and shapes, and the step keeps the grids. -/
theorem stepKeepsInvariant : Obligations.StepKeepsInvariant := by
  intro s t hi h
  have hgrids := step_gridsSound hi h
  have hi' := hi.afterTurn
  rcases step_next_cases h with ⟨_, ht⟩ | ⟨_, ht⟩ | ⟨_, rfl⟩
  · exact (State.inv_iff t).mpr ⟨ht.controlSound hi', ht.shapesSound hi'.shapesSound, hgrids⟩
  · exact (State.inv_iff t).mpr ⟨ht.controlSound hi', ht.shapesSound hi', hgrids⟩
  · exact inv_resetBlock (by simpa using hi.paramsWf)

/-! ### The history of INIT (R40) -/

theorem lastInit_congr {s t : State} {chunks : List (List Byte)} (hp : t.params = s.params) (hr : t.rateSel = s.rateSel)
    (ht : t.trace.filter (fun e => isInitFrame e.frame) = s.trace.filter (fun e => isInitFrame e.frame)) (h : s.lastInit chunks) :
    t.lastInit chunks := by
  rwa [State.lastInit, hp, hr, ht]

/-- Where READY is 0 and no chunk is being read, the history says nothing. -/
theorem initHistory_of_silent {t : State} (hr : t.ready = false) (hp : ∀ j, t.phase ≠ .initCal j) : t.InitHistory :=
  ⟨fun h => absurd (hr.symm.trans h) Bool.false_ne_true, fun j h => absurd h (hp j)⟩

/-- A step that adds no transaction of INIT, raises no READY and enters no chunk phase keeps the history. -/
theorem initHistory_of_kept {s t : State} (h : s.InitHistory) (hp : t.params = s.params) (hr : t.rateSel = s.rateSel)
    (ht : t.trace.filter (fun e => isInitFrame e.frame) = s.trace.filter (fun e => isInitFrame e.frame)) (hc : t.cal = s.cal)
    (hready : t.ready = true → s.ready = true)
    (hread : ∀ j, t.phase = .initCal j → s.phase = .initCal j ∧ t.calStage = s.calStage) : t.InitHistory where
  whileReady hrt := by
    obtain ⟨chunks, hn, hl, hcs⟩ := h.whileReady (hready hrt)
    exact ⟨chunks, hp ▸ hn, lastInit_congr hp hr ht hl, hc.trans hcs⟩
  whileReading j hj := by
    obtain ⟨hps, hst⟩ := hread j hj
    obtain ⟨chunks, hn, hl, hcs⟩ := h.whileReading j hps
    exact ⟨chunks, hn, lastInit_congr hp hr ht hl, by rw [hst, hp]; exact hcs⟩

theorem initEvents_cons {f : BusFrame} (hf : isInitFrame f = true) (a : DevAnswer) (trace : List BusEvent) :
    (⟨f, a⟩ :: trace : List BusEvent).filter (fun e => isInitFrame e.frame) = ⟨f, a⟩ :: trace.filter (fun e => isInitFrame e.frame) :=
  List.filter_cons_of_pos hf

/-- A write of the present rate begins the history anew. -/
theorem lastInit_cfgWrite {t : State} {low : Byte} {bytes : List Byte} {before : List BusEvent} (hl : rateByte t.rateSel = some low)
    (ht : t.trace = ⟨cfgWriteFrame t.params low t.params.cfgMsb, .ok bytes⟩ :: before) : t.lastInit [] := by
  have hinit : isInitFrame (cfgWriteFrame t.params low t.params.cfgMsb) = true := rfl
  refine ⟨fun c hc => (by cases hc), low, bytes, before.filter (fun e => isInitFrame e.frame), hl, ?_⟩
  rw [ht, initEvents_cons hinit]
  rfl

theorem chunkEvents_concat (p : Params) (chunks : List (List Byte)) (bytes : List Byte) :
    chunkEvents p (chunks ++ [bytes]) = chunkEvents p chunks ++ [⟨eeReadFrame p (eeOffset p chunks.length), .ok bytes⟩] :=
  List.mapIdx_concat

/-- A successful read of the next chunk lengthens it. -/
theorem lastInit_eeRead {s t : State} {chunks : List (List Byte)} {bytes : List Byte} (h : s.lastInit chunks) (hp : t.params = s.params)
    (hr : t.rateSel = s.rateSel) (ht : t.trace = ⟨eeReadFrame s.params (eeOffset s.params chunks.length), .ok bytes⟩ :: s.trace)
    (hlen : bytes.length = s.params.calChunk) : t.lastInit (chunks ++ [bytes]) := by
  obtain ⟨hall, low, ack, before, hl, hs⟩ := h
  have hinit : isInitFrame (eeReadFrame s.params (eeOffset s.params chunks.length)) = true := rfl
  rw [State.lastInit, hp, hr, ht]
  refine ⟨fun c hc => ?_, low, ack, before, hl, ?_⟩
  · rcases List.mem_append.mp hc with hc | hc
    · exact hall c hc
    · rw [List.mem_singleton.mp hc]
      exact hlen
  · rw [chunkEvents_concat, List.reverse_concat, initEvents_cons hinit, hs, List.cons_append]

/-- The chunks read so far, once chunk `j` is stored: the history and the staging buffer grow by the same bytes. -/
theorem chunks_after_store {s s1 : State} (hi : s.Inv) (h : s.InitHistory) {j : Nat} {bytes : List Byte} (hp : s.phase = .initCal j)
    (hlen : bytes.length = s.params.calChunk) (ha : Answered (eeReadFrame s.params (eeOffset s.params j)) (.ok bytes) s s1) :
    ∃ chunks, chunks.length = j + 1 ∧ s1.lastInit chunks ∧
      (stageWith s.params j bytes s.calStage).take ((j + 1) * s.params.calChunk) = chunks.flatten := by
  obtain ⟨chunks, rfl, hl, hst⟩ := h.whileReading j hp
  have hend := Params.chunk_end hi.paramsWf (hi.chunkInRange _ hp)
  obtain ⟨_, _, rfl⟩ := ha.block
  refine ⟨chunks ++ [bytes], by simp, lastInit_eeRead hl rfl rfl rfl hlen, ?_⟩
  rw [Nat.succ_mul, stageWith_take hlen (hi.stageLength ▸ hend), hst]
  simp

theorem HostEffect.initHistory {s t : State} (h : HostEffect s t) (hi : s.Inv) (hh : s.InitHistory) : t.InitHistory := by
  cases h with
  | nothing | readWord _ | readRefused _ _ | illegalCommand _ =>
    exact initHistory_of_kept hh rfl rfl rfl rfl id fun _ hj => ⟨hj, rfl⟩
  | config _ hb => exact initHistory_of_silent rfl fun j => by simp [hi.idle_of_not_busy hb]
  | initAccepted _ => exact initHistory_of_silent rfl fun j => by simp
  | readAccepted _ _ => exact initHistory_of_kept hh rfl rfl rfl rfl id fun _ hj => by cases hj

theorem HostTurn.initHistory {s t : State} (h : HostTurn s t) (hi : s.Inv) (hh : s.InitHistory) : t.InitHistory := by
  cases h with
  | ended _ => exact hh
  | ran u line he =>
    have hn : (nextLine s).InitHistory := initHistory_of_kept hh rfl rfl rfl rfl id fun _ hj => ⟨hj, rfl⟩
    exact initHistory_of_kept (he.initHistory hi.nextLine hn) rfl rfl rfl rfl id fun _ hj => ⟨hj, rfl⟩

theorem EngineEffect.initHistory {s t : State} (h : EngineEffect s t) (hi : s.Inv) (hh : s.InitHistory) : t.InitHistory := by
  cases h with
  | idle _ | waits _ _ => exact hh
  | unsupported _ _ | configFailed _ _ _ _ _ | chunkFailed _ _ _ _ | chunkWrongLength _ _ _ _ _ _ =>
    exact initHistory_of_silent rfl fun j => by simp
  | computed _ => exact initHistory_of_kept hh rfl rfl rfl rfl id fun _ hj => by cases hj
  | frameFailed _ _ _ _ ha | frameStored _ _ _ _ ha =>
    obtain ⟨_, _, rfl⟩ := ha.block
    exact initHistory_of_kept hh rfl rfl rfl rfl id fun _ hj => by cases hj
  | configured _ _ _ hp hl ha =>
    have hr := hi.not_ready_of_init (by rw [hp]; rfl)
    obtain ⟨_, _, rfl⟩ := ha.block
    refine ⟨fun h => absurd (hr.symm.trans h) Bool.false_ne_true, fun j hj => ?_⟩
    cases hj
    exact ⟨[], rfl, lastInit_cfgWrite hl rfl, by simp⟩
  | chunkStored j _ _ hp hlen _ ha =>
    have hr := hi.not_ready_of_init (by rw [hp]; rfl)
    obtain ⟨chunks, hn, hl, hst⟩ := chunks_after_store hi hh hp hlen ha
    obtain ⟨_, _, rfl⟩ := ha.block
    refine ⟨fun h => absurd (hr.symm.trans h) Bool.false_ne_true, fun i hj => ?_⟩
    cases hj
    exact ⟨chunks, hn, lastInit_congr rfl rfl rfl hl, hst⟩
  | initCompleted j bytes _ hp hlen hlast ha =>
    have hj : j + 1 = s.params.nChunk := Nat.le_antisymm (hi.chunkInRange j hp) hlast
    have hlength := hi.shapesSound.stageWith (hi.chunkInRange j hp) hlen
    obtain ⟨chunks, hn, hl, hst⟩ := chunks_after_store hi hh hp hlen ha
    rw [Nat.succ_mul, Params.last_chunk_end hi.paramsWf hj, List.take_of_length_le hlength.le] at hst
    obtain ⟨_, _, rfl⟩ := ha.block
    exact ⟨fun _ => ⟨chunks, hn.trans hj, lastInit_congr rfl rfl rfl hl, congrArg some hst⟩, fun i hc => by cases hc⟩

theorem initHistory_resetBlock (s : State) : s.resetBlock.InitHistory :=
  initHistory_of_silent rfl fun j => by simp

/-- Settles O53: by the agent whose turn it is; a reset event leaves READY = 0 and no command. -/
theorem stepKeepsInitHistory : Obligations.StepKeepsInitHistory := by
  intro s t hi hh h
  have hh' : (afterTurn s).InitHistory :=
    initHistory_of_kept hh (by simp) (by simp) (by simp) (by simp) (by simp) fun _ hj => ⟨by simpa using hj, by simp⟩
  rcases step_next_cases h with ⟨_, ht⟩ | ⟨_, ht⟩ | ⟨_, rfl⟩
  · exact ht.initHistory hi.afterTurn hh'
  · exact ht.initHistory hi.afterTurn hh'
  · exact initHistory_resetBlock _

/-! ### Right after reset -/

/-- Settles O51: the state after reset is a block at its reset values. -/
theorem invariantAtReset : Obligations.InvariantAtReset :=
  ⟨inv_resetBlock (s := State.reset) (by decide), initHistory_resetBlock State.reset⟩

/-- Settles O14: the register words are computed, the grids are constant. -/
theorem resetValues : Obligations.ResetValues := by
  have hgrids (k : Pixel) : State.reset.gi[k] = 0#16 ∧ State.reset.gf[k] = 0#64 := ⟨tabulate_get _ k, tabulate_get _ k⟩
  exact ⟨by decide, by decide, by decide, hgrids, rfl, rfl, rfl⟩

end Sys2Proof.Machine
end

section
/-! PROOFS. Whose turn it is and what it runs (spec/20_memory.md R65, R74, R75, R79): a HOST turn runs the line its program stands at, an ENGINE turn
the transaction of the present phase, and the device bus carries what ENGINE issues and nothing else. -/

namespace Sys2Proof.Machine

/-! ### A scripted turn -/

theorem step_of_host_line {s : State} {rest : List Turn} {l : HostLine} (hs : s.schedule = .host :: rest)
    (hl : s.program[s.line]? = some l) : step s = runLine l { s with schedule := rest } := by
  simp only [step, turn, afterTurn, hs, runTurn, hostStep, hl]

theorem step_of_engine_turn {s : State} {rest : List Turn} (hs : s.schedule = .engine :: rest) :
    step s = engineStep { s with schedule := rest } := by
  simp only [step, turn, afterTurn, hs, runTurn]

theorem engineStep_of_issued {s : State} {i : Instr} (h : issued s = some i) : engineStep s = exec i s := by
  simp only [engineStep, h]

theorem engineStep_idle {s : State} (hp : s.phase = .idle) : engineStep s = .next s := by
  simp only [engineStep, issued, engineSilent, hp]

/-! ### What ENGINE issues -/

theorem issued_initRate {s : State} {low : Byte} (hp : s.phase = .initRate) (hl : rateByte s.rateSel = some low) :
    issued s = some (.cfgWrite low s.params.cfgMsb) := by
  simp only [issued, hp, hl, Option.map_some]

theorem issued_initCal {s : State} {j : Nat} (hp : s.phase = .initCal j) : issued s = some (.eeRead (eeOffset s.params j)) := by
  simp only [issued, hp]

theorem issued_readFrame {s : State} (hp : s.phase = .readFrame) : issued s = some .ramReadFrame := by
  simp only [issued, hp]

/-- An ENGINE turn where a transaction is due; what is due does not depend on the schedule. -/
theorem step_of_issued {s : State} {rest : List Turn} {i : Instr} (hs : s.schedule = .engine :: rest) (hi : issued s = some i) :
    step s = exec i { s with schedule := rest } :=
  (step_of_engine_turn hs).trans (engineStep_of_issued hi)

theorem isRateByte_of_rateByte {sel : BitVec 4} {low : Byte} (h : rateByte sel = some low) : isRateByte low = true :=
  (by decide : ∀ sel, ∀ b ∈ rateByte sel, isRateByte b = true) sel low h

theorem wf_eeRead {p : Params} {j : Nat} (hj : j < p.nChunk) : (Instr.eeRead (eeOffset p j)).wf p = true :=
  List.any_eq_true.mpr ⟨j, List.mem_range.mpr hj, beq_self_eq_true _⟩

/-- ENGINE issues well-formed transactions only: the rate byte is one of R151, and the chunk lies in the image (R97, R99). -/
theorem issued_wf {s : State} (hi : s.Inv) {i : Instr} (h : issued s = some i) : i.wf s.params = true := by
  rcases issued_cases h with ⟨_, low, hl, rfl⟩ | ⟨j, hp, rfl⟩ | ⟨_, rfl⟩
  · simp [Instr.wf, isRateByte_of_rateByte hl]
  · exact wf_eeRead (hi.chunkInRange j hp)
  · rfl

/-! ### Misaligned records and device frames -/

theorem decodeAccess_misaligned (write : Bool) {a : HostAddr} (data : Word) (h : a.toNat % 4 ≠ 0) :
    decodeAccess (accessRecord write a data) = .error .misaligned := by
  have ha : aligned a = false := Bool.eq_false_iff.mpr (mt (aligned_iff a).mp h)
  rw [decodeAccess_record, ha]
  rfl

theorem decodeFrame_cfgWriteFrame {p : Params} {low high : Byte} (h : (Instr.cfgWrite low high).wf p = true) :
    decodeFrame p (cfgWriteFrame p low high) = .ok (.cfgWrite low high) :=
  if_pos ⟨rfl, rfl, rfl, rfl, h⟩

theorem decodeFrame_eeReadFrame {p : Params} {off : Byte} (h : (Instr.eeRead off).wf p = true) :
    decodeFrame p (eeReadFrame p off) = .ok (.eeRead off) :=
  if_pos ⟨rfl, rfl, h⟩

theorem decodeFrame_ramReadFrameFrame (p : Params) : decodeFrame p (ramReadFrameFrame p) = .ok .ramReadFrame :=
  if_pos ⟨rfl, rfl, rfl, rfl, rfl, rfl⟩

/-- A well-formed instruction that is encoded as a device frame is decoded from that frame (R96 to R101). -/
theorem decode_busFrame {p : Params} {i : Instr} {f : BusFrame} (hw : i.wf p = true) (h : encode p i = .bus f) :
    decode p (.bus f) = .ok i := by
  cases i with
  | cfgWrite low high => cases h; exact decodeFrame_cfgWriteFrame hw
  | eeRead off => cases h; exact decodeFrame_eeReadFrame hw
  | ramReadFrame => cases h; exact decodeFrame_ramReadFrameFrame p
  | _ => cases h

/-! ### The bus history -/

/-- Between `s` and `t` one transaction took place: the one ENGINE issues at `s`, whatever the DEVICE answered (R79). -/
def AddsIssued (s t : State) : Prop := ∃ i f a, issued s = some i ∧ encode s.params i = .bus f ∧ t.trace = ⟨f, a⟩ :: s.trace

theorem Answered.trace {f : BusFrame} {a : DevAnswer} {s s1 : State} (h : Answered f a s s1) : s1.trace = ⟨f, a⟩ :: s.trace := by
  obtain ⟨_, _, rfl⟩ := h.block
  rfl

theorem HostEffect.trace {s t : State} (h : HostEffect s t) : t.trace = s.trace := by
  cases h <;> rfl

theorem HostTurn.trace {s t : State} (h : HostTurn s t) : t.trace = s.trace := by
  cases h with
  | ended _ => rfl
  | ran u line he => exact he.trace

theorem EngineEffect.trace {s t : State} (h : EngineEffect s t) : t.trace = s.trace ∨ AddsIssued s t := by
  cases h with
  | idle _ | waits _ _ | unsupported _ _ | computed _ => exact .inl rfl
  | configFailed _ _ hp hl ha | configured _ _ _ hp hl ha => exact .inr ⟨_, _, _, issued_initRate hp hl, rfl, ha.trace⟩
  | chunkFailed _ _ hp ha | chunkWrongLength _ _ _ hp _ ha | chunkStored _ _ _ hp _ _ ha | initCompleted _ _ _ hp _ _ ha =>
    exact .inr ⟨_, _, _, issued_initCal hp, rfl, ha.trace⟩
  | frameFailed _ _ hp _ ha | frameStored _ _ hp _ ha => exact .inr ⟨_, _, _, issued_readFrame hp, rfl, ha.trace⟩

/-- Settles O58: only ENGINE adds to the history, and what it issues in a phase is well formed, so its frame decodes to it. -/
theorem busCarriesOnlyDueFrames : Obligations.BusCarriesOnlyDueFrames := by
  intro s t hi h
  rcases step_next_cases h with ⟨_, ht⟩ | ⟨hturn, ht⟩ | ⟨_, rfl⟩
  · exact .inl (ht.trace.trans (afterTurn_trace s))
  · rcases ht.trace with hk | ⟨i, f, a, hiss, hf, htr⟩
    · exact .inl (hk.trans (afterTurn_trace s))
    · have hdec := decode_busFrame (issued_wf hi.afterTurn hiss) hf
      rw [afterTurn_params] at hdec
      rw [afterTurn_trace] at htr
      refine .inr ⟨hturn, ⟨f, a⟩, i, htr, hdec, ?_⟩
      rcases issued_cases hiss with ⟨hp, low, _, rfl⟩ | ⟨j, hp, rfl⟩ | ⟨hp, rfl⟩ <;> rw [afterTurn_phase] at hp
      · exact .inl ⟨hp, low, _, rfl⟩
      · exact .inr (.inl ⟨j, _, hp, rfl⟩)
      · exact .inr (.inr ⟨hp, rfl⟩)
  · exact .inl (by simp [resetStep])

/-! ### What a turn runs -/

/-- Settles O7: the line at the program's position runs at the next line. -/
theorem stepRunsDecodedInstruction : Obligations.StepRunsDecodedInstruction := by
  intro s rest hs
  refine ⟨fun r i hl hd => ?_, fun w hl => ?_⟩
  · simp only [step_of_host_line hs hl, runLine, hd, runDecoded, nextLine]
  · simp only [step_of_host_line hs hl, runLine, nextLine]

/-- Settles O8: the decoder refuses a misaligned record, of a `bnz` too, and a line of another width never reaches it. -/
theorem unadmittedAccessesRefused : Obligations.UnadmittedAccessesRefused := by
  intro s rest hs
  refine ⟨fun write a data ha hl => ?_, fun a mask target ha hl => ?_, fun width write a hl => ?_⟩
  · simp only [step_of_host_line hs hl, runLine, decodeAccess_misaligned write data ha, runDecoded, refusalOf]
  · simp only [step_of_host_line hs hl, runLine, runBranch, decodeAccess_misaligned false _ ha, runDecoded, refusalOf]
  · exact step_of_host_line hs hl

/-- Settles O10: in each phase with a transaction, ENGINE's step is that of the instruction it issues. -/
theorem stepRunsDueTransaction : Obligations.StepRunsDueTransaction := fun _ _ hs =>
  ⟨fun _ hp hl => step_of_issued hs (issued_initRate hp hl), fun _ hp => step_of_issued hs (issued_initCal hp),
    fun hp => step_of_issued hs (issued_readFrame hp)⟩

/-- Settles O11: nothing is issued in IDLE, and the silent step of IDLE is none (R75). -/
theorem engineIdleChangesNothing : Obligations.EngineIdleChangesNothing := fun _ _ hs hp =>
  (step_of_engine_turn hs).trans (engineStep_idle hp)

end Sys2Proof.Machine
end

section
/-! PROOFS. Encodings (spec/30_encoding.md R90 to R104): each format decodes what it encodes and encodes what it decodes; the access that a record
stands for, and the read of a `bnz`; and the transactions that ENGINE does not issue. -/

namespace Sys2Proof.Machine

/-! ### Command words -/

theorem decodeCommand_commandWord {rsv : BitVec 24} {opcode : BitVec 8} (h : legalCommand (commandWord rsv opcode) = false) :
    decodeCommand (commandWord rsv opcode) = .illegalCmd rsv opcode := by
  rw [decodeCommand_illegal h, commandWord_rsv, commandWord_opcode]

/-- A command word outside the three of R93: RSV is set, or OPCODE is reserved. -/
theorem legalCommand_commandWord {rsv : BitVec 24} {opcode : BitVec 8} (h : rsv ≠ 0#24 ∨ 3 ≤ opcode.toNat) :
    legalCommand (commandWord rsv opcode) = false := by
  have hr : rsv ≠ 0#24 ↔ rsv.toNat ≠ 0 := by rw [ne_eq, BitVec.toNat_eq]; rfl
  rw [hr] at h
  rw [Bool.eq_false_iff, ne_eq, legalCommand_iff, commandWord_toNat]
  omega

/-- A decoded command is well formed, and its word is the one it was decoded from. -/
theorem encode_decodeCommand (p : Params) (w : Word) : (decodeCommand w).wf p = true ∧ encode p (decodeCommand w) = .cw w := by
  cases hl : legalCommand w with
  | false =>
    rw [decodeCommand_illegal hl]
    simp only [Instr.wf, encode, commandWord_fields, hl, Bool.not_false, and_self]
  | true =>
    simp only [legalCommand, Bool.or_eq_true, beq_iff_eq] at hl
    rcases hl with (rfl | rfl) | rfl <;> exact ⟨rfl, rfl⟩

/-- Settles O4: the reserved words are those with RSV or a reserved OPCODE, and the fields read back. -/
theorem commandOpcodeMap : Obligations.CommandOpcodeMap :=
  ⟨rfl, rfl, rfl, fun _ _ h => decodeCommand_commandWord (legalCommand_commandWord h)⟩

/-! ### Host offsets (R22) -/

/-- What an aligned offset can be: a register, a word of a grid, or reserved. -/
inductive HostOffset : HostAddr → Prop
  | config : HostOffset addrConfig
  | cmd : HostOffset addrCmd
  | status : HostOffset addrStatus
  | int (k : BitVec 6) : HostOffset (addrInt k)
  | flt (k : BitVec 6) (high : Bool) : HostOffset (addrFlt k high)
  | reserved {a : HostAddr} (h : reservedOffset a = true) : HostOffset a

theorem hostOffset_of_aligned {a : HostAddr} (h : aligned a = true) : HostOffset a := by
  by_cases hconfig : a = addrConfig
  · exact hconfig ▸ .config
  by_cases hcmd : a = addrCmd
  · exact hcmd ▸ .cmd
  by_cases hstatus : a = addrStatus
  · exact hstatus ▸ .status
  have hk := aligned_offset h hconfig hcmd hstatus
  split_ifs at hk
  · exact hk ▸ .flt _ _
  · exact hk ▸ .int _
  · exact .reserved hk

theorem aligned_addrInt (k : BitVec 6) : aligned (addrInt k) = true := by
  rw [aligned_iff, addrInt_toNat]
  omega

theorem aligned_addrFlt (k : BitVec 6) (high : Bool) : aligned (addrFlt k high) = true := by
  rw [aligned_iff, addrFlt_toNat]
  split_ifs <;> omega

theorem aligned_of_reservedOffset {a : HostAddr} (h : reservedOffset a = true) : aligned a = true := by
  simp only [reservedOffset, Bool.and_eq_true] at h
  exact h.1.1

/-- An INT_GRID offset is no register's, and its bits select the grid and give the index back (R103). -/
theorem addrInt_fields (k : BitVec 6) :
    (addrInt k ≠ addrConfig ∧ addrInt k ≠ addrCmd ∧ addrInt k ≠ addrStatus) ∧
      (addrInt k).getLsbD 9 = false ∧ (addrInt k).getLsbD 8 = true ∧ intIndex (addrInt k) = k := by
  revert k
  decide +kernel

/-- A FLT_GRID offset is no register's, and its bits select the grid and give the index and the half back (R103). -/
theorem addrFlt_fields (k : BitVec 6) (high : Bool) :
    (addrFlt k high ≠ addrConfig ∧ addrFlt k high ≠ addrCmd ∧ addrFlt k high ≠ addrStatus) ∧
      (addrFlt k high).getLsbD 9 = true ∧ fltIndex (addrFlt k high) = k ∧ fltHigh (addrFlt k high) = high := by
  revert k high
  decide +kernel

@[simp] theorem decodeRead_addrInt (k : BitVec 6) : decodeRead (addrInt k) = .rdInt k := by
  obtain ⟨⟨h1, h2, h3⟩, h9, h8, hk⟩ := addrInt_fields k
  simp only [decodeRead, if_neg h1, if_neg h2, if_neg h3, h9, h8, hk, Bool.false_eq_true, if_false, if_true]

@[simp] theorem decodeRead_addrFlt (k : BitVec 6) (high : Bool) : decodeRead (addrFlt k high) = if high then .rdFhi k else .rdFlo k := by
  obtain ⟨⟨h1, h2, h3⟩, h9, hk, hh⟩ := addrFlt_fields k high
  simp only [decodeRead, if_neg h1, if_neg h2, if_neg h3, h9, hk, hh, if_true]

@[simp] theorem decodeWrite_addrInt (k : BitVec 6) (data : Word) : decodeWrite (addrInt k) data = .wrInt k data := by
  obtain ⟨⟨h1, h2, h3⟩, h9, h8, hk⟩ := addrInt_fields k
  simp only [decodeWrite, if_neg h1, if_neg h2, if_neg h3, h9, h8, hk, Bool.false_eq_true, if_false, if_true]

@[simp] theorem decodeWrite_addrFlt (k : BitVec 6) (high : Bool) (data : Word) :
    decodeWrite (addrFlt k high) data = .wrFlt k high data := by
  obtain ⟨⟨h1, h2, h3⟩, h9, hk, hh⟩ := addrFlt_fields k high
  simp only [decodeWrite, if_neg h1, if_neg h2, if_neg h3, h9, hk, hh, if_true]

/-! ### Access records (R91) -/

theorem decodeAccess_write {a : HostAddr} {data : Word} {i : Instr} (ha : aligned a = true) (hd : decodeWrite a data = i) :
    decodeAccess (accessRecord true a data) = .ok i := by
  simp [decodeAccess_record, ha, hd]

theorem decodeAccess_read {a : HostAddr} {i : Instr} (ha : aligned a = true) (hd : decodeRead a = i) :
    decodeAccess (accessRecord false a 0#32) = .ok i := by
  simp [decodeAccess_record, ha, hd]

theorem decodeAccess_readWithData {a : HostAddr} {data : Word} (ha : aligned a = true) (hd : data ≠ 0#32) :
    decodeAccess (accessRecord false a data) = .error .readWithData := by
  simp [decodeAccess_record, ha, hd]

/-- The records that decode: an aligned write, and an aligned read without data. -/
theorem decodeAccess_cases {r : BitVec 43} {i : Instr} (h : decodeAccess r = .ok i) :
    ∃ a, aligned a = true ∧
      ((r = accessRecord false a 0#32 ∧ i = decodeRead a) ∨ ∃ data, r = accessRecord true a data ∧ i = decodeWrite a data) := by
  have hr := accessRecord_fields r
  unfold decodeAccess at h
  split_ifs at h with ha hw hd <;> cases h
  · rw [hw] at hr
    exact ⟨recAddr r, by simpa using ha, .inr ⟨recData r, hr.symm, rfl⟩⟩
  · rw [hd, Bool.eq_false_iff.mpr hw] at hr
    exact ⟨recAddr r, by simpa using ha, .inl ⟨hr.symm, rfl⟩⟩

theorem encode_decodeAccess (p : Params) {r : BitVec 43} {i : Instr} (h : decodeAccess r = .ok i) :
    i.wf p = true ∧ encode p i = .ha r := by
  obtain ⟨a, ha, ⟨rfl, rfl⟩ | ⟨data, rfl, rfl⟩⟩ := decodeAccess_cases h
  · exact encode_decodeRead p ha
  · exact encode_decodeWrite p data ha

/-! ### Device frames (R96 to R101) -/

/-- The frames that decode are the three the block emits, each to the transaction that emits it. -/
theorem encode_decodeFrame {p : Params} {f : BusFrame} {i : Instr} (h : decodeFrame p f = .ok i) :
    i.wf p = true ∧ encode p i = .bus f := by
  unfold decodeFrame at h
  split at h
  · split_ifs at h with hc
    obtain ⟨rfl, rfl, rfl, rfl, hw⟩ := hc
    cases h
    exact ⟨hw, rfl⟩
  · split_ifs at h with hc
    obtain ⟨rfl, rfl, hw⟩ := hc
    cases h
    exact ⟨hw, rfl⟩
  · split_ifs at h with hc
    obtain ⟨rfl, rfl, rfl, rfl, rfl, rfl⟩ := hc
    cases h
    exact ⟨rfl, rfl⟩
  · cases h

/-! ### The round trip -/

/-- Settles O1, format by format: command words, access records at each kind of offset, device frames. -/
theorem decodeOfEncode : Obligations.DecodeOfEncode := by
  intro p i _ hw
  cases i with
  | nop | init | read => rfl
  | illegalCmd rsv opcode => exact congrArg Except.ok (decodeCommand_commandWord (by simpa [Instr.wf] using hw))
  | wrConfig data | wrCmd data | wrStatus data => exact decodeAccess_write rfl rfl
  | rdConfig | rdCmd | rdStatus => exact decodeAccess_read rfl rfl
  | rdInt k => exact decodeAccess_read (aligned_addrInt k) (decodeRead_addrInt k)
  | rdFlo k => exact decodeAccess_read (aligned_addrFlt k false) (decodeRead_addrFlt k false)
  | rdFhi k => exact decodeAccess_read (aligned_addrFlt k true) (decodeRead_addrFlt k true)
  | wrInt k data => exact decodeAccess_write (aligned_addrInt k) (decodeWrite_addrInt k data)
  | wrFlt k high data => exact decodeAccess_write (aligned_addrFlt k high) (decodeWrite_addrFlt k high data)
  | rdRsv addr => exact decodeAccess_read (aligned_of_reservedOffset hw) (decodeRead_reserved hw)
  | wrRsv addr data => exact decodeAccess_write (aligned_of_reservedOffset hw) (decodeWrite_reserved data hw)
  | cfgWrite _ _ | eeRead _ | ramReadFrame => exact decode_busFrame hw rfl

/-- Settles O2, format by format. -/
theorem encodeOfDecode : Obligations.EncodeOfDecode := by
  intro p c i h
  cases c with
  | cw w =>
    cases h
    exact encode_decodeCommand p w
  | ha r => exact encode_decodeAccess p h
  | bus f => exact encode_decodeFrame h

/-- Settles O5: the words by computation, the frames as the encodings of what they stand for. -/
theorem sampleWordsDecode : Obligations.SampleWordsDecode := by
  refine ⟨by decide, by decide, by decide, by decide, by decide, by decide, ?_, ?_, ?_⟩
  · exact decode_busFrame (i := .cfgWrite 0x3E#8 0x46#8) (by decide) rfl
  · exact decode_busFrame (i := .eeRead 0x00#8) (by decide) rfl
  · exact decode_busFrame (i := .ramReadFrame) rfl rfl

/-! ### What an access does -/

/-- The operation that an aligned read record stands for is the read of its offset, whatever the offset is (R62, R91). -/
theorem exec_decodeRead {a : HostAddr} (h : aligned a = true) (s : State) : exec (decodeRead a) s = hostRead a s := by
  cases hostOffset_of_aligned h with
  | config | cmd | status => rfl
  | int k => rw [decodeRead_addrInt]; rfl
  | flt k high => rw [decodeRead_addrFlt]; cases high <;> rfl
  | reserved hr => rw [decodeRead_reserved hr]; rfl

/-- A write anywhere but to CONFIG and CMD is ignored (R63). -/
theorem exec_decodeWrite_ignored {a : HostAddr} (h : aligned a = true) (hconfig : a ≠ addrConfig) (hcmd : a ≠ addrCmd) (data : Word)
    (s : State) : exec (decodeWrite a data) s = .next s := by
  cases hostOffset_of_aligned h with
  | config => exact absurd rfl hconfig
  | cmd => exact absurd rfl hcmd
  | status => rfl
  | int k => rw [decodeWrite_addrInt]; rfl
  | flt k high => rw [decodeWrite_addrFlt]; rfl
  | reserved hr => rw [decodeWrite_reserved data hr]; rfl

/-- Settles O3: each clause of R91, then what the decoded access does. -/
theorem accessRecordsDecode : Obligations.AccessRecordsDecode := by
  intro write a data
  refine ⟨decodeAccess_misaligned write data, fun ha hw hd => ?_, fun ha hwd => ?_⟩
  · subst hw
    exact decodeAccess_readWithData ((aligned_iff a).mpr ha) hd
  · have ha := (aligned_iff a).mpr ha
    cases write with
    | false =>
      obtain rfl : data = 0#32 := hwd.resolve_left Bool.false_ne_true
      exact ⟨_, decodeAccess_read ha rfl, fun _ => exec_decodeRead ha, nofun⟩
    | true =>
      refine ⟨_, decodeAccess_write ha rfl, nofun, fun _ => ⟨?_, ?_, fun h0 h4 => exec_decodeWrite_ignored ha h0 h4 data⟩⟩
      · rintro rfl
        rfl
      · rintro rfl
        rfl

/-- What the read record of a `bnz` decodes to reads its offset. -/
theorem exec_decodedRead {a : HostAddr} {i : Instr} (h : decodeAccess (accessRecord false a 0#32) = .ok i) (s : State) :
    exec i s = hostRead a s := by
  by_cases ha : aligned a = true
  · rw [decodeAccess_read ha rfl] at h
    cases h
    exact exec_decodeRead ha s
  · rw [decodeAccess_misaligned false _ (mt (aligned_iff a).mpr ha)] at h
    cases h

theorem branchTo_eq (mask : Word) (target : Nat) (s : State) :
    branchTo mask target s = { s with line := if s.readData &&& mask ≠ 0#32 then target else s.line } := by
  unfold branchTo
  split_ifs <;> rfl

/-- Settles O9: the read leaves the HOST at its next line, from where the branch goes on. -/
theorem branchReadsAndBranches : Obligations.BranchReadsAndBranches := by
  intro s rest a mask target i t hs hl hd ht
  have hline : t.line = s.line + 1 := by
    rw [hostRead_next ((exec_decodedRead hd _).symm.trans ht)]
  have hread : runDecoded (decodeAccess (accessRecord false a 0#32)) (nextLine { s with schedule := rest }) = .next t := by
    rw [hd]
    exact ht
  simp only [step_of_host_line hs hl, runLine, runBranch, hread, branchTo_eq, hline]

/-! ### Transactions that are not due -/

theorem engineTransaction_refused {i : Instr} {f : BusFrame} {k : DevAnswer → State → State} {s : State} (h : issued s ≠ some i) :
    engineTransaction i f k s = .refused .notIssued := if_neg h

/-- Settles O36: by `issued_cases`, ENGINE issues each transaction in its own phase and with its own bytes only. -/
theorem transactionsOnlyWhenDue : Obligations.TransactionsOnlyWhenDue := by
  refine fun s => ⟨fun low high h => engineTransaction_refused fun hi => h ?_, fun off h => engineTransaction_refused fun hi => h ?_,
    fun h => engineTransaction_refused fun hi => h ?_⟩
  · rcases issued_cases hi with ⟨hp, low', hl, he⟩ | ⟨_, _, he⟩ | ⟨_, he⟩ <;> cases he
    exact ⟨hp, hl, rfl⟩
  · rcases issued_cases hi with ⟨_, _, _, he⟩ | ⟨j, hp, he⟩ | ⟨_, he⟩ <;> cases he
    exact ⟨j, hp, rfl⟩
  · rcases issued_cases hi with ⟨_, _, _, he⟩ | ⟨_, _, he⟩ | ⟨hp, he⟩ <;> cases he
    exact hp

end Sys2Proof.Machine
end

section
/-! PROOFS. The calibration store (spec/41_calibration_store.md R120 to R138): what phase INIT_CAL does with the DEVICE's answer, and that the
decode of an image computes with exact numbers up to the sum in ALPHA. -/

namespace Sys2Proof.Machine

/-! ### A calibration read that is answered -/

/-- A transaction that is due takes the scripted answer off the script and is recorded with it. -/
theorem engineTransaction_scripted {i : Instr} {f : BusFrame} {k : DevAnswer → State → State} {s : State} {a : DevAnswer}
    {rest : List DevScript} (hi : issued s = some i) (ha : s.answers = .answer a :: rest) :
    engineTransaction i f k s = .next (k a { s with answers := rest, trace := ⟨f, a⟩ :: s.trace }) := by
  simp only [engineTransaction, if_pos hi, transact, ha]

theorem exec_eeRead_scripted {s : State} {j : Nat} {a : DevAnswer} {rest : List DevScript} (hp : s.phase = .initCal j)
    (ha : s.answers = .answer a :: rest) :
    exec (.eeRead (eeOffset s.params j)) s = .next (afterEeRead a
      { s with answers := rest, trace := ⟨eeReadFrame s.params (eeOffset s.params j), a⟩ :: s.trace }) :=
  engineTransaction_scripted (issued_initCal hp) ha

theorem chunkIndex_of_phase {s : State} {j : Nat} (hp : s.phase = .initCal j) : chunkIndex s = j := by
  simp only [chunkIndex, hp]

theorem afterEeRead_of_error {s : State} {j : Nat} {a : DevAnswer} {e : Err} (hp : s.phase = .initCal j)
    (he : calChunk s.params j a s.calStage = .error e) : afterEeRead a s = initFail e s := by
  simp only [afterEeRead, chunkIndex_of_phase hp, he]

theorem afterEeRead_of_more_chunks {s : State} {j : Nat} {bytes : List Byte} (hp : s.phase = .initCal j)
    (hj : j + 1 < s.params.nChunk) (hlen : bytes.length = s.params.calChunk) :
    afterEeRead (.ok bytes) s = { s with calStage := stageWith s.params j bytes s.calStage, phase := .initCal (j + 1) } := by
  simp only [afterEeRead, chunkIndex_of_phase hp, calChunk_stored hlen, if_pos hj]

theorem calChunk_wrong_length {p : Params} {j : Nat} {bytes stage : List Byte} (h : bytes.length ≠ p.calChunk) :
    calChunk p j (.ok bytes) stage = .error .calDecode := if_pos h

/-- Settles O30: the chunk lies within the buffer, so `stageWith` puts it in its place and nowhere else. -/
theorem chunkReadFillsStage : Obligations.ChunkReadFillsStage := by
  intro s j bytes rest hp hj ha hlen hstage hwf
  have hend : j * s.params.calChunk + s.params.calChunk ≤ s.calStage.length := hstage ▸ Params.chunk_end hwf (by omega)
  refine ⟨stageWith s.params j bytes s.calStage, ?_, (stageWith_length hlen hend).trans hstage, fun a => ?_⟩
  · exact (exec_eeRead_scripted hp ha).trans (congrArg _ (afterEeRead_of_more_chunks hp hj hlen))
  · rw [Nat.succ_mul]
    exact stageWith_getElem? hlen hend a

/-- Settles O32: both answers make `cal_chunk` return its error, with which INIT fails. -/
theorem chunkReadFails : Obligations.ChunkReadFails := by
  intro s j a e rest hp ha hae
  have herr : calChunk s.params j a s.calStage = .error e := by
    rcases hae with ⟨rfl, rfl⟩ | ⟨bytes, rfl, hlen, rfl⟩
    · rfl
    · exact calChunk_wrong_length hlen
  exact ⟨_, _, (exec_eeRead_scripted hp ha).trans (congrArg _ (afterEeRead_of_error hp herr))⟩

/-! ### Operations without rounding error -/

/-- `x` is finite and stands for exactly the number `q`. -/
def Fp.StandsFor (x : F64) (q : ℚ) : Prop := Fp.isFinite x = true ∧ Fp.toRat x = q

theorem Fp.standsFor_ofInt {n : Int} (hn : n.natAbs < 2 ^ 53) : Fp.StandsFor (Fp.ofInt n) n := by
  obtain ⟨hf, hv⟩ := Fp.ofInt_exact hn
  exact ⟨hf, by exact_mod_cast hv⟩

theorem Fp.standsFor_pow2 {k : Nat} (hk : k ≤ 971) : Fp.StandsFor (Fp.pow2 k) (2 ^ k) := by
  obtain ⟨hf, hv⟩ := Fp.round_exact false (m := 1) (e := k) (by norm_num) (by omega) (by omega)
  exact ⟨hf, by simpa [Fp.pow2, Fp.sign] using hv⟩

/-- A quotient that some finite pattern stands for is computed exactly. -/
theorem Fp.StandsFor.div {x y c : F64} {p q r : ℚ} (hx : Fp.StandsFor x p) (hy : Fp.StandsFor y q) (hc : Fp.StandsFor c r)
    (hq : q ≠ 0) (hr : r = p / q) : Fp.StandsFor (Fp.div x y) r := by
  obtain ⟨hfx, rfl⟩ := hx
  obtain ⟨hfy, rfl⟩ := hy
  obtain ⟨hfc, rfl⟩ := hc
  exact nearestEven_exact (Fp.div_nearest hfx hfy hq) hfc (by rw [hr, Rat.cast_div])

/-- Division of an integer by a power of two only lowers its exponent, which stays in the range of binary64. -/
theorem Fp.StandsFor.div_two_pow {x y : F64} {n : Int} {k : Nat} (hx : Fp.StandsFor x n) (hy : Fp.StandsFor y (2 ^ k))
    (hn : n.natAbs < 2 ^ 53) (hk : k ≤ 971) : Fp.StandsFor (Fp.div x y) (n / 2 ^ k) := by
  obtain ⟨c, hfc, hc⟩ := Fp.exists_units (z := n) (e := -k) (by rw [Int.abs_eq_natAbs]; omega) (by omega) (by omega)
  have hshift : (n : ℚ) * 2 ^ (-k : Int) = n / 2 ^ k := by rw [zpow_neg, zpow_natCast, div_eq_mul_inv]
  exact hx.div hy ⟨hfc, hc.trans hshift⟩ (by positivity) rfl

/-- `RES_DIV` is 1 (R128), and division by it changes no number. -/
theorem Fp.StandsFor.div_resDiv {x : F64} {q : ℚ} (hx : Fp.StandsFor x q) : Fp.StandsFor (Fp.div x resDiv) q := by
  have hone : Fp.StandsFor resDiv (2 ^ 0) := Fp.standsFor_pow2 (k := 0) (by norm_num)
  exact hx.div hone hx (by norm_num) (by norm_num)

theorem standsFor_scaled {n : Int} {k : Nat} (hn : n.natAbs < 2 ^ 53) (hk : k ≤ 971) : Fp.StandsFor (scaled n k) (n / 2 ^ k) :=
  (Fp.standsFor_ofInt hn).div_two_pow (Fp.standsFor_pow2 hk) hn hk

/-! ### The numbers of an image -/

theorem natAbs_calS16_le (image : List Byte) (a : Nat) : (calS16 image a).natAbs ≤ 2 ^ 15 := by
  have hlo := BitVec.le_toInt (le16 (calByte image a) (calByte image (a + 1)))
  have hhi := BitVec.toInt_lt (x := le16 (calByte image a) (calByte image (a + 1)))
  unfold calS16 sext16
  omega

theorem natAbs_calS8_le (image : List Byte) (a : Nat) : (calS8 image a).natAbs ≤ 2 ^ 7 := by
  have hlo := BitVec.le_toInt (calByte image a)
  have hhi := BitVec.toInt_lt (x := calByte image a)
  unfold calS8 sext8
  omega

theorem natAbs_calU16_lt (image : List Byte) (a : Nat) : (calU16 image a).natAbs < 2 ^ 16 :=
  (le16 (calByte image a) (calByte image (a + 1))).isLt

theorem natAbs_calU8_lt (image : List Byte) (a : Nat) : (calU8 image a).natAbs < 2 ^ 8 := (calByte image a).isLt

theorem calLow4_lt (image : List Byte) (a : Nat) : calLow4 image a < 16 := Nat.mod_lt _ (by norm_num)

theorem calHigh4_lt (image : List Byte) (a : Nat) : calHigh4 image a < 16 :=
  Nat.div_lt_of_lt_mul (calByte image a).isLt

/-! ### ALPHA, the one sum -/

/-- The terms of ALPHA are far below the overflow threshold. -/
theorem abs_scaled_lt (n : Int) (k : Nat) (hn : n.natAbs < 2 ^ 16) : |(n : ℝ) / 2 ^ k| < 2 ^ 16 := by
  have habs : |(n : ℝ)| < 2 ^ 16 := by
    rw [← Int.cast_abs, Int.abs_eq_natAbs]
    exact_mod_cast hn
  rw [abs_div, abs_of_pos (by positivity : (0 : ℝ) < 2 ^ k)]
  exact (div_le_self (abs_nonneg _) (one_le_pow₀ (by norm_num))).trans_lt habs

theorem two_pow_17_lt_overflow : (2 : ℝ) ^ 17 < Fp.overflow := by
  obtain ⟨hf, hv⟩ := Fp.standsFor_pow2 (k := 17) (by norm_num)
  have h := Fp.finite_lt_overflow hf
  rw [hv] at h
  push_cast at h
  exact (le_abs_self _).trans_lt h

/-- The sum is rounded by `+.`, and the division by `RES_DIV` leaves the rounded number as it is. -/
theorem alpha_nearest {m n : Int} {j k : Nat} (hm : m.natAbs < 2 ^ 16) (hn : n.natAbs < 2 ^ 16) (hj : j ≤ 971) (hk : k ≤ 971) :
    Fp.NearestEven ((m : ℝ) / 2 ^ j + (n : ℝ) / 2 ^ k) (Fp.div (Fp.add (scaled m j) (scaled n k)) resDiv) := by
  obtain ⟨hfm, hvm⟩ := standsFor_scaled (hm.trans (by norm_num)) hj
  obtain ⟨hfn, hvn⟩ := standsFor_scaled (hn.trans (by norm_num)) hk
  have hsum := Fp.add_nearest hfm hfn
  rw [hvm, hvn] at hsum
  push_cast at hsum
  have hbound : |(m : ℝ) / 2 ^ j + (n : ℝ) / 2 ^ k| < Fp.overflow :=
    calc |(m : ℝ) / 2 ^ j + (n : ℝ) / 2 ^ k| ≤ |(m : ℝ) / 2 ^ j| + |(n : ℝ) / 2 ^ k| := abs_add_le _ _
      _ < 2 ^ 16 + 2 ^ 16 := add_lt_add (abs_scaled_lt m j hm) (abs_scaled_lt n k hn)
      _ = 2 ^ 17 := by norm_num
      _ < Fp.overflow := two_pow_17_lt_overflow
  obtain ⟨hfr, -⟩ := hsum.1 hbound
  obtain ⟨hfd, hvd⟩ := Fp.StandsFor.div_resDiv ⟨hfr, rfl⟩
  exact nearestEven_congr hsum hbound hfd hvd

/-! ### The decode -/

/-- A[i] is a whole number below `2^24`, so its sum and shift are exact. -/
theorem standsFor_decodeCal_a (image : List Byte) (i : Pixel) :
    Fp.StandsFor ((decodeCal image).a i) (calS16 image 0xD0 + calU8 image i.val * 2 ^ calHigh4 image 0xD9) := by
  have hshift : 2 ^ calHigh4 image 0xD9 ≤ 2 ^ 15 :=
    pow_le_pow_right₀ (by norm_num) (Nat.le_of_lt_succ (calHigh4_lt image 0xD9))
  have hprod : (calU8 image i.val * 2 ^ calHigh4 image 0xD9).natAbs ≤ 2 ^ 8 * 2 ^ 15 := by
    rw [Int.natAbs_mul, Int.natAbs_pow]
    exact Nat.mul_le_mul (natAbs_calU8_lt image i.val).le hshift
  have hs := natAbs_calS16_le image 0xD0
  have h := Fp.standsFor_ofInt (n := calS16 image 0xD0 + calU8 image i.val * 2 ^ calHigh4 image 0xD9)
    ((Int.natAbs_add_le _ _).trans_lt (by omega))
  push_cast at h
  simpa only [decodeCal, zero_add] using h.div_resDiv

/-- Settles O45: every constant but ALPHA[i] is an integer of few bits over a power of two, which the block's division computes exactly. -/
theorem calibrationDecodeExact : Obligations.CalibrationDecodeExact := by
  intro image i
  have hs16 (a : Nat) : (calS16 image a).natAbs < 2 ^ 53 := (natAbs_calS16_le image a).trans_lt (by norm_num)
  have hs8 (a : Nat) : (calS8 image a).natAbs < 2 ^ 53 := (natAbs_calS8_le image a).trans_lt (by norm_num)
  have hu16 (a : Nat) : (calU16 image a).natAbs < 2 ^ 53 := (natAbs_calU16_lt image a).trans (by norm_num)
  have hlow (a c : Nat) (hc : c ≤ 10) : calLow4 image a + c ≤ 971 := by
    have := calLow4_lt image a
    omega
  have hhigh (a : Nat) : calHigh4 image a ≤ 971 := (calHigh4_lt image a).le.trans (by norm_num)
  have hbyte (a : Nat) : (calByte image a).toNat ≤ 971 := (calByte image a).isLt.le.trans (by norm_num)
  have htgc : Fp.StandsFor (decodeCal image).tgc (calS8 image 0xD8 / 2 ^ 5) :=
    (Fp.standsFor_ofInt (hs8 _)).div_two_pow (by exact_mod_cast Fp.standsFor_ofInt (n := 32) (by norm_num)) (hs8 _) (by norm_num)
  have heps : Fp.StandsFor (decodeCal image).eps (calU16 image 0xE4 / 2 ^ 15) :=
    (Fp.standsFor_ofInt (hu16 _)).div_two_pow (by exact_mod_cast Fp.standsFor_ofInt (n := 32768) (by norm_num)) (hu16 _) (by norm_num)
  norm_num at htgc heps
  exact ⟨(Fp.standsFor_ofInt (hs16 _)).div_resDiv.2,
    (standsFor_scaled (hs16 _) (hhigh _)).div_resDiv.2,
    (standsFor_scaled (hs16 _) (hlow _ 10 le_rfl)).div_resDiv.2,
    (standsFor_decodeCal_a image i).2,
    (standsFor_scaled (hs8 _) (hlow _ 0 (by norm_num))).div_resDiv.2,
    alpha_nearest (natAbs_calU16_lt _ _) ((natAbs_calU8_lt _ _).trans (by norm_num)) (hbyte _) (hbyte _),
    (Fp.standsFor_ofInt (hs16 _)).div_resDiv.2,
    (standsFor_scaled (hs8 _) (hlow _ 0 (by norm_num))).div_resDiv.2,
    htgc.2,
    (standsFor_scaled (hu16 _) (hbyte _)).div_resDiv.2,
    heps.2,
    (standsFor_scaled (hs16 _) (by norm_num)).2,
    (standsFor_scaled (hs8 _) (hlow _ 8 (by norm_num))).2⟩

end Sys2Proof.Machine
end

section
/-! PROOFS. The configuration (spec/42_configuration.md R150 to R161): the rate byte of a selector, the CONFIG register as the HOST writes and reads
it, an INIT with an unsupported selector, and who may change RATE_SEL. -/

namespace Sys2Proof.Machine

/-! ### The rate byte (R151, R153) -/

theorem rateSupported_iff (sel : BitVec 4) : rateSupported sel = true ↔ sel.toNat ≤ 10 := decide_eq_true_iff.trans Nat.lt_succ_iff

theorem rateByte_eq_none_iff {sel : BitVec 4} : rateByte sel = none ↔ 11 ≤ sel.toNat := by
  have hsel := rateSupported_iff sel
  unfold rateByte
  split_ifs with h
  · exact iff_of_false (by simp) (by have := hsel.mp h; omega)
  · exact iff_of_true rfl (by have := mt hsel.mpr h; omega)

/-- The byte of a supported selector is `0x3F − s`: the two halves of `0x30 | (15 − s)` share no bit. -/
theorem toNat_of_rateByte {sel : BitVec 4} {b : Byte} (h : rateByte sel = some b) : sel.toNat ≤ 10 ∧ b.toNat = 0x30 + (15 - sel.toNat) := by
  obtain ⟨hs, ⟨⟩⟩ := Option.ite_none_right_eq_some.mp h
  have happend := BitVec.toNat_append 0x3#4 (15#4 - sel)
  rw [← Nat.shiftLeft_add_eq_or_of_lt (15#4 - sel).isLt] at happend
  exact ⟨(rateSupported_iff sel).mp hs, happend.trans (by bv_omega)⟩

/-- Settles O6: the byte of a supported selector determines it, since `0x30 + (15 − s)` falls as `s` grows. -/
theorem rateBytesDistinct : Obligations.RateBytesDistinct := by
  refine ⟨fun sel hsel => ?_, fun sel => rateByte_eq_none_iff.mpr, fun sel sel' b h h' => ?_⟩
  · obtain ⟨b, hb⟩ := Option.ne_none_iff_exists'.mp (mt rateByte_eq_none_iff.mp (by omega : ¬ 11 ≤ sel.toNat))
    have hor : 0x30 + (15 - sel.toNat) = 0x30 ||| (15 - sel.toNat) :=
      Nat.shiftLeft_add_eq_or_of_lt (a := 3) (i := 4) (by omega)
    exact ⟨b, hb, (toNat_of_rateByte hb).2.trans hor⟩
  · obtain ⟨hsel, hb⟩ := toNat_of_rateByte h
    obtain ⟨hsel', hb'⟩ := toNat_of_rateByte h'
    exact BitVec.eq_of_toNat_eq (by omega)

/-! ### CONFIG and the rate fields of STATUS (R25, R155, R156) -/

theorem unlessBusy_of_busy {f : State → State} {s : State} (h : s.busy = true) : unlessBusy f s = .next s := by
  rw [unlessBusy, if_pos h]

theorem unlessBusy_of_not_busy {f : State → State} {s : State} (h : s.busy = false) : unlessBusy f s = .next (f s) := by
  rw [unlessBusy, h, if_neg Bool.false_ne_true]

/-- RATE_CODE stands at [23:16] of STATUS. -/
theorem statusWord_rateCode (s : State) : (statusWord s).extractLsb' 16 8 = rateCode s.rateSel := by
  unfold statusWord
  simp only [BitVec.extractLsb'_append_eq_of_le, Nat.reduceLeDiff, Nat.reduceSub, BitVec.extractLsb'_append_eq_right]

/-- RATE_OK stands at bit 24 of STATUS. -/
theorem statusWord_rateOk (s : State) : (statusWord s).getLsbD 24 = rateOk s.rateSel := by
  unfold statusWord
  simp only [BitVec.getLsbD_append, Nat.reduceLT, Nat.reduceSub, if_false, if_true, BitVec.getLsbD_ofBool, decide_true, Bool.true_and]

theorem configWord_eq (s : State) : configWord s = BitVec.ofNat 32 s.rateSel.toNat := by
  have happend := BitVec.toNat_append 0#28 s.rateSel
  rw [BitVec.toNat_ofNat, Nat.zero_mod, Nat.zero_shiftLeft, Nat.zero_or] at happend
  exact BitVec.eq_of_toNat_eq (happend.trans (Nat.mod_eq_of_lt (by omega)).symm)

/-- The selector that a CONFIG write names, DATA[3:0], is DATA mod 16 (R23). -/
theorem acceptConfig_eq (data : Word) (s : State) :
    acceptConfig data s = { s with rateSel := BitVec.ofNat 4 (data.toNat % 16), ready := false } := by
  have hsel : data.extractLsb' 0 4 = BitVec.ofNat 4 (data.toNat % 16) := BitVec.eq_of_toNat_eq (by simp)
  rw [acceptConfig, hsel]

/-- Settles O15: an accepted write is `acceptConfig`, and STATUS computes its two rate fields from the RATE_SEL it finds. -/
theorem configWriteAccepted : Obligations.ConfigWriteAccepted := by
  refine fun data s => ⟨decodeAccess_write rfl rfl, unlessBusy_of_busy, fun hb => ?_⟩
  refine ⟨acceptConfig data s, unlessBusy_of_not_busy hb, acceptConfig_eq data s, statusWord_rateCode _, ?_⟩
  exact (Bool.eq_iff_iff.mp (statusWord_rateOk _)).trans (rateSupported_iff _)

/-- Settles O16: reading CONFIG answers the zero-extended selector and touches nothing but the HOST's port. -/
theorem configReadReturnsSelector : Obligations.ConfigReadReturnsSelector :=
  ⟨decodeAccess_read rfl rfl, fun s => by rw [← configWord_eq]; rfl⟩

/-! ### An unsupported selector (R152) -/

theorem engineStep_unsupported {s : State} (hp : s.phase = .initRate) (hsel : rateByte s.rateSel = none) :
    engineStep s = .next (initFail .unsupportedRate s) := by
  simp only [engineStep, issued, engineSilent, hp, hsel, Option.map_none]

/-- Settles O29: no rate byte, so nothing is issued, and the silent step of INIT_RATE fails the INIT. -/
theorem unsupportedRateEndsInit : Obligations.UnsupportedRateEndsInit := fun _ _ hs hp hsel =>
  ⟨_, _, (step_of_engine_turn hs).trans (engineStep_unsupported hp (rateByte_eq_none_iff.mpr hsel))⟩

/-! ### Who changes RATE_SEL (R161) -/

/-- A host instruction writes RATE_SEL by an accepted CONFIG write only, and BUSY = 1 accepts none. -/
theorem HostEffect.rateSel_of_busy {s t : State} (h : HostEffect s t) (hb : s.busy = true) : t.rateSel = s.rateSel := by
  cases h with
  | config _ hidle => exact absurd (hb.symm.trans hidle) (by decide)
  | nothing | readWord _ | initAccepted _ | readAccepted _ _ | readRefused _ _ | illegalCommand _ => rfl

theorem HostTurn.rateSel_of_busy {s t : State} (h : HostTurn s t) (hb : s.busy = true) : t.rateSel = s.rateSel := by
  cases h with
  | ended _ => rfl
  | ran u line he => exact he.rateSel_of_busy (s := nextLine s) hb

/-- ENGINE reads RATE_SEL and never writes it. -/
theorem EngineEffect.rateSel {s t : State} (h : EngineEffect s t) : t.rateSel = s.rateSel := by
  cases h with
  | idle _ | waits _ _ | unsupported _ _ | computed _ => rfl
  | configFailed _ _ _ _ ha | configured _ _ _ _ _ ha | chunkFailed _ _ _ ha | chunkWrongLength _ _ _ _ _ ha | chunkStored _ _ _ _ _ _ ha
  | initCompleted _ _ _ _ _ _ ha | frameFailed _ _ _ _ ha | frameStored _ _ _ _ ha =>
    obtain ⟨_, _, rfl⟩ := ha.block
    rfl

/-- Settles O57: by the agent whose turn it is; taking the turn changes neither BUSY nor RATE_SEL. -/
theorem selectorFixedWhileBusy : Obligations.SelectorFixedWhileBusy := by
  refine ⟨fun _ _ => unlessBusy_of_busy, fun s t h hb hturn => ?_⟩
  rcases step_next_cases h with ⟨_, ht⟩ | ⟨_, ht⟩ | ⟨hreset, _⟩
  · exact (ht.rateSel_of_busy ((afterTurn_busy s).trans hb)).trans (afterTurn_rateSel s)
  · exact ht.rateSel.trans (afterTurn_rateSel s)
  · exact absurd hreset hturn

end Sys2Proof.Machine
end

section
/-! PROOFS. Initialisation (spec/43_initialization.md R171 to R177): how INIT begins, where an answered and a failed configuration write take it, and
how its last chunk completes it. -/

namespace Sys2Proof.Machine

/-! ### The last chunk (R176) -/

/-- A buffer that ends with chunk `j` keeps nothing behind it. -/
theorem stageWith_of_last_chunk {p : Params} {j : Nat} {stage : List Byte} (bytes : List Byte)
    (h : stage.length = j * p.calChunk + p.calChunk) : stageWith p j bytes stage = stage.take (j * p.calChunk) ++ bytes := by
  rw [stageWith, ← h, List.drop_length, List.append_nil]

theorem afterEeRead_of_last_chunk {s : State} {j : Nat} {bytes : List Byte} (hp : s.phase = .initCal j)
    (hj : s.params.nChunk ≤ j + 1) (hlen : bytes.length = s.params.calChunk) :
    afterEeRead (.ok bytes) s = initDone { s with calStage := stageWith s.params j bytes s.calStage } := by
  simp only [afterEeRead, chunkIndex_of_phase hp, calChunk_stored hlen, if_neg hj.not_gt]

/-- Settles O31: the last chunk ends the staging buffer, which becomes the image. -/
theorem lastChunkCompletesInit : Obligations.LastChunkCompletesInit := by
  intro s j bytes rest hp hj ha hlen hstage hwf
  have hend : s.calStage.length = j * s.params.calChunk + s.params.calChunk := hstage.trans (Params.last_chunk_end hwf hj).symm
  rw [← stageWith_of_last_chunk bytes hend]
  exact ⟨_, _, (exec_eeRead_scripted hp ha).trans (congrArg _ (afterEeRead_of_last_chunk hp hj.ge hlen))⟩

/-! ### Acceptance (R171) -/

/-- INIT, as a command or as the CMD write of its word, begins unless a command is running. -/
theorem exec_init_or_initWrite {i : Instr} (h : i = .init ∨ i = .wrCmd 0x00000001#32) (s : State) :
    exec i s = unlessBusy initAccept s := by
  rcases h with rfl | rfl
  · rfl
  · rfl

/-- Settles O22: INIT begins whatever READY and RATE_SEL are; only BUSY holds it back. -/
theorem initAcceptance : Obligations.InitAcceptance := by
  refine ⟨rfl, fun s i hi => ?_⟩
  rw [exec_init_or_initWrite hi]
  exact ⟨unlessBusy_of_not_busy, unlessBusy_of_busy⟩

/-! ### The configuration write (R173, R174) -/

theorem exec_cfgWrite_scripted {s : State} {low : Byte} {a : DevAnswer} {rest : List DevScript} (hp : s.phase = .initRate)
    (hl : rateByte s.rateSel = some low) (ha : s.answers = .answer a :: rest) :
    exec (.cfgWrite low s.params.cfgMsb) s = .next (afterCfgWrite a
      { s with answers := rest, trace := ⟨cfgWriteFrame s.params low s.params.cfgMsb, a⟩ :: s.trace }) :=
  engineTransaction_scripted (issued_initRate hp hl) ha

/-- Settles O27: an answer Ok takes INIT_RATE to the first chunk, whatever bytes come with it. -/
theorem configurationWriteGoesOn : Obligations.ConfigurationWriteGoesOn := fun _ _ _ _ hp hl ha =>
  exec_cfgWrite_scripted hp hl ha

/-- Settles O28: an answer Fail is `init_fail(TRANSPORT)`. -/
theorem configurationWriteFails : Obligations.ConfigurationWriteFails := fun _ _ _ hp hl ha =>
  ⟨_, _, exec_cfgWrite_scripted hp hl ha⟩

end Sys2Proof.Machine
end

section
/-! PROOFS. The frame reader (spec/44_frame_reader.md R191 to R194): the words of a frame reply, and where an accepted and a failed frame read take
READ. -/

namespace Sys2Proof.Machine

/-! ### The frame reply (R192, R193) -/

/-- Word `t` is made of bytes `2t` and `2t + 1`, the low one first. -/
theorem frameWordsOf_getElem_toNat {n t : Nat} {bytes : List Byte} (h : t < (frameWordsOf n bytes).length) (h0 : 2 * t < bytes.length)
    (h1 : 2 * t + 1 < bytes.length) : (frameWordsOf n bytes)[t].toNat = bytes[2 * t].toNat + 256 * bytes[2 * t + 1].toNat := by
  simp only [frameWordsOf, List.getElem_map, List.getElem_range, le16_toNat, List.getD_eq_getElem _ _ h0, List.getD_eq_getElem _ _ h1]

theorem readFrame_right_length {p : Params} {bytes : List Byte} (h : bytes.length = 2 * p.frameWords) :
    readFrame p (.ok bytes) = .ok (frameWordsOf p.frameWords bytes) :=
  if_neg (not_not.mpr h)

theorem readFrame_wrong_length {p : Params} {bytes : List Byte} (h : bytes.length ≠ 2 * p.frameWords) :
    readFrame p (.ok bytes) = .error .transport :=
  if_pos h

/-! ### The step of READ_FRAME (R191, R264) -/

theorem afterRamReadFrame_of_words {s : State} {a : DevAnswer} {words : List HalfWord} (h : readFrame s.params a = .ok words) :
    afterRamReadFrame a s = { s with raw := words, phase := .readComp } := by
  simp only [afterRamReadFrame, h]

theorem afterRamReadFrame_of_error {s : State} {a : DevAnswer} {e : Err} (h : readFrame s.params a = .error e) :
    afterRamReadFrame a s = readFail s := by
  simp only [afterRamReadFrame, h]

theorem exec_ramReadFrame_scripted {s : State} {a : DevAnswer} {rest : List DevScript} (hp : s.phase = .readFrame)
    (ha : s.answers = .answer a :: rest) :
    exec .ramReadFrame s = .next (afterRamReadFrame a
      { s with answers := rest, trace := ⟨ramReadFrameFrame s.params, a⟩ :: s.trace }) :=
  engineTransaction_scripted (issued_readFrame hp) ha

/-- Settles O33: a reply of the right length is accepted, and its words go to `st.RAW`. -/
theorem frameReadDecodesWords : Obligations.FrameReadDecodesWords := by
  intro s bytes rest hp ha hlen
  refine ⟨frameWordsOf s.params.frameWords bytes, ?_, frameWordsOf_length _ _, fun _ => frameWordsOf_getElem_toNat⟩
  exact (exec_ramReadFrame_scripted hp ha).trans (congrArg _ (afterRamReadFrame_of_words (readFrame_right_length hlen)))

/-- Settles O34: both answers make `read_frame` return TRANSPORT, with which READ fails. -/
theorem frameReadFails : Obligations.FrameReadFails := by
  intro s a rest hp ha hfail
  have herr : readFrame s.params a = .error .transport := by
    rcases hfail with rfl | ⟨bytes, rfl, hlen⟩
    · rfl
    · exact readFrame_wrong_length hlen
  exact ⟨_, _, (exec_ramReadFrame_scripted hp ha).trans (congrArg _ (afterRamReadFrame_of_error herr))⟩

end Sys2Proof.Machine
end

section
/-! PROOFS. Compensation (spec/45_compensation.md R210 to R259): the layout of the grids, what a lane reads, the nearest integer that an element of the
integer grid is, the range of a compensated value, and the domain errors. -/

namespace Sys2Proof.Machine

/-! ### Layout and lanes (R211, R214, R250, R256) -/

theorem devicePixel_of_index {p k : Pixel} (h : k.val = p.val % 4 * 16 + p.val / 4) : devicePixel k = p := by
  apply Fin.ext
  simp only [devicePixel]
  omega

/-- Settles O38: the index of the statement is the one whose device pixel is `p`. -/
theorem gridLayout : Obligations.GridLayout := by
  intro id w image p k hk
  refine ⟨?_, compensate_int _ w image k⟩
  rw [compensate_flt, devicePixel_of_index hk]

theorem toFixed_tMin : (toFixed Config.tMin).toInt = -2732 := by
  decide +kernel

/-- Without an ambient temperature no lane looks at its pixel (R214). -/
theorem compensate_flt_of_ambient_none {P : Profile} {w : List HalfWord} {image : List Byte}
    (h : P.ambient (ptatRaw w) (P.decodeCal image) = none) (k : Pixel) : (compensate P w image).2[k] = Config.tMin := by
  rw [compensate_flt, h, lane]

/-- Settles O39: every lane is T_MIN, whose rounded tenfold is -2732. -/
theorem ambientDomainClampsAll : Obligations.AmbientDomainClampsAll := by
  intro id w image h k
  have hflt := compensate_flt_of_ambient_none h k
  refine ⟨hflt, ?_⟩
  rw [compensate_int, hflt, toFixed_tMin]

/-- The constants with the same three values for every pixel. -/
def CalConsts.withPixels (k : CalConsts) (a b alpha : F64) : CalConsts :=
  { k with a := fun _ => a, b := fun _ => b, alpha := fun _ => alpha }

/-- The constants with those of every pixel replaced by those of pixel `p`: all that lane `p` may read (R256). -/
def CalConsts.onlyPixel (k : CalConsts) (p : Pixel) : CalConsts := k.withPixels (k.a p) (k.b p) (k.alpha p)

theorem ambient_onlyPixel (ptat : F64) (k : CalConsts) (p : Pixel) : ambient ptat (k.onlyPixel p) = ambient ptat k := rfl

theorem object_onlyPixel (p : Pixel) (vir vcp ta : F64) (k : CalConsts) :
    object p vir vcp ta (k.onlyPixel p) = object p vir vcp ta k := rfl

/-- Constants that agree in the scalars and at `p` are the same constants to lane `p`. -/
theorem onlyPixel_congr {k k' : CalConsts} {p : Pixel} (ha : k.a p = k'.a p) (hb : k.b p = k'.b p) (halpha : k.alpha p = k'.alpha p)
    (hscalars : k.withPixels 0#64 0#64 0#64 = k'.withPixels 0#64 0#64 0#64) : k.onlyPixel p = k'.onlyPixel p :=
  calc k.onlyPixel p = k'.withPixels (k.a p) (k.b p) (k.alpha p) :=
        congrArg (fun c => c.withPixels (k.a p) (k.b p) (k.alpha p)) hscalars
    _ = k'.onlyPixel p := by rw [ha, hb, halpha, CalConsts.onlyPixel]

/-- Of a frame, the element of device pixel `p` reads word `p` and the two words common to all lanes. -/
theorem compensate_flt_congr_frame {P : Profile} {w w' : List HalfWord} {image : List Byte} {p k : Pixel} (hk : devicePixel k = p)
    (hp : w.getD p.val 0#16 = w'.getD p.val 0#16) (hptat : w.getD 64 0#16 = w'.getD 64 0#16) (hvcp : w.getD 65 0#16 = w'.getD 65 0#16) :
    (compensate P w image).2[k] = (compensate P w' image).2[k] := by
  simp only [compensate_flt, hk, lane, ptatRaw, vcpRaw, virRaw, rawWord, hp, hptat, hvcp]

/-- Of the constants, it reads the scalars and those of `p`. -/
theorem compensate_flt_congr_image {w : List HalfWord} {image image' : List Byte} {p k : Pixel} (hk : devicePixel k = p)
    (h : (decodeCal image).onlyPixel p = (decodeCal image').onlyPixel p) :
    (compensate Profile.mlx90621 w image).2[k] = (compensate Profile.mlx90621 w image').2[k] := by
  have hta : ambient (ptatRaw w) (decodeCal image) = ambient (ptatRaw w) (decodeCal image') := by
    rw [← ambient_onlyPixel _ _ p, h, ambient_onlyPixel]
  have hobj (ta : F64) : object p (virRaw w p) (vcpRaw w) ta (decodeCal image) = object p (virRaw w p) (vcpRaw w) ta (decodeCal image') := by
    rw [← object_onlyPixel, h, object_onlyPixel]
  simp only [compensate_flt, hk, lane, Profile.mlx90621, hta, hobj]

/-- Settles O43: the integer element follows the float element, and the float element is one lane's value. -/
theorem lanesIndependent : Obligations.LanesIndependent := by
  refine ⟨fun id w w' image p k hk hp hptat hvcp => ?_, fun w image image' p k hk ha hb halpha hscalars => ?_⟩
  · have hflt := compensate_flt_congr_frame (P := profileOf id) (image := image) (devicePixel_of_index hk) hp hptat hvcp
    exact ⟨by rw [compensate_int, hflt, compensate_int], hflt⟩
  · exact compensate_flt_congr_image (devicePixel_of_index hk) (onlyPixel_congr ha hb halpha hscalars)

/-! ### The nearest integer (R252) -/

/-- `round_ties_even` is at most a half away, and even when it is exactly a half away. -/
theorem Fp.roundTiesEven_spec {v : F64} (h : Fp.isFinite v = true) :
    |(Fp.toRat v : ℝ) - Fp.roundTiesEven v| ≤ 1 / 2 ∧
    (|(Fp.toRat v : ℝ) - Fp.roundTiesEven v| = 1 / 2 → Fp.roundTiesEven v % 2 = 0) := by
  obtain ⟨m, e, hu, -⟩ := Fp.unpack_of_finite h
  have hdist (n : Nat) : |(Fp.toRat v : ℝ) - Fp.signed (Fp.signBit v) n| = |(m : ℝ) * 2 ^ e - n| := by
    rw [Fp.toReal_of_unpack hu, Fp.cast_signed, ← mul_sub, Fp.abs_sign_mul]
  simp only [Fp.roundTiesEven, hu, hdist]
  split_ifs with he
  · obtain ⟨j, rfl⟩ := Int.eq_ofNat_of_zero_le he
    simp
  · obtain ⟨k, rfl⟩ : ∃ k : Nat, e = -k := ⟨(-e).toNat, by omega⟩
    rw [neg_neg, Int.toNat_natCast, zpow_neg, zpow_natCast, ← div_eq_mul_inv]
    obtain ⟨hlo, hhi, heven⟩ := Fp.halfEven_spec m k
    generalize Fp.halfEven m k = n at *
    have hpos : (0 : ℝ) < 2 ^ k := by positivity
    have hlo' : 2 * ((n : ℝ) * 2 ^ k) ≤ 2 * m + 2 ^ k := by exact_mod_cast hlo
    have hhi' : 2 * (m : ℝ) ≤ 2 * (n * 2 ^ k) + 2 ^ k := by exact_mod_cast hhi
    have hunits : |(m : ℝ) / 2 ^ k - n| = |(m : ℝ) - n * 2 ^ k| / 2 ^ k := by
      rw [div_sub' hpos.ne', abs_div, abs_of_pos hpos, mul_comm (n : ℝ)]
    rw [hunits, div_le_iff₀ hpos, div_eq_iff hpos.ne']
    refine ⟨abs_le.mpr ⟨by linarith, by linarith⟩, fun htie => ?_⟩
    have hn : n % 2 = 0 := by
      refine heven ((eq_or_eq_neg_of_abs_eq htie).symm.imp (fun h => ?_) fun h => ?_)
      · have : 2 * ((n : ℝ) * 2 ^ k) = 2 * m + 2 ^ k := by linarith
        exact_mod_cast this
      · have : 2 * (m : ℝ) = 2 * (n * 2 ^ k) + 2 ^ k := by linarith
        exact_mod_cast this
    unfold Fp.signed
    split_ifs <;> omega

/-- Settles O49: an integer within a half is a nearest one, and a second nearest one is possible at a half only. -/
theorem roundTiesEvenIsNearest : Obligations.RoundTiesEvenIsNearest := by
  intro v hv n
  obtain ⟨hhalf, htie⟩ := Fp.roundTiesEven_spec hv
  obtain ⟨hle, heq⟩ := Fp.nearest_integer hhalf n
  exact ⟨by exact_mod_cast hle, fun hne he => htie (heq hne (by exact_mod_cast he))⟩

/-! ### The range of an element (R246, R252, R254, R255) -/

theorem tMin_error : |(-(2732 / 10) : ℝ) - Fp.toRat Config.tMin| ≤ 2 ^ (-41 : Int) / 2 :=
  nearestEven_error decimalConstantsNearest.1 (by norm_num) (by norm_num) (by norm_num)

theorem tMax_error : |(32767 / 10 : ℝ) - Fp.toRat Config.tMax| ≤ 2 ^ (-41 : Int) / 2 :=
  nearestEven_error decimalConstantsNearest.2.1 (by norm_num) (by norm_num) (by norm_num)

theorem kelvin_error : |(27315 / 100 : ℝ) - Fp.toRat Fp.kelvin| ≤ 2 ^ (-41 : Int) / 2 :=
  nearestEven_error decimalConstantsNearest.2.2 (by norm_num) (by norm_num) (by norm_num)

/-- In range as numbers. -/
theorem inRange.bounds {v : F64} (h : inRange v) : Fp.toRat Config.tMin ≤ Fp.toRat v ∧ Fp.toRat v ≤ Fp.toRat Config.tMax := by
  obtain ⟨hf, hmin, hmax⟩ := h
  exact ⟨(Fp.lt_eq_false_iff hf inRange_tMin.1).mp hmin, (Fp.lt_eq_false_iff inRange_tMax.1 hf).mp hmax⟩

/-- In range to within the rounding of the two decimal constants. -/
theorem inRange.decimal_bounds {v : F64} (h : inRange v) :
    (-(2732 / 10) : ℝ) - 2 ^ (-41 : Int) / 2 ≤ Fp.toRat v ∧ (Fp.toRat v : ℝ) ≤ 32767 / 10 + 2 ^ (-41 : Int) / 2 := by
  obtain ⟨hmin, hmax⟩ := h.bounds
  have hmin' : (Fp.toRat Config.tMin : ℝ) ≤ Fp.toRat v := by exact_mod_cast hmin
  have hmax' : (Fp.toRat v : ℝ) ≤ Fp.toRat Config.tMax := by exact_mod_cast hmax
  obtain ⟨-, h1⟩ := abs_le.mp tMin_error
  obtain ⟨h2, -⟩ := abs_le.mp tMax_error
  exact ⟨by linarith, by linarith⟩

/-- The tenfold of a value in range is below `2^15`, so its rounding moves it by at most `2^-39`. -/
theorem inRange.tenfold_error {v : F64} (h : inRange v) :
    Fp.isFinite (Fp.mul v (Fp.ofInt 10)) = true ∧ |(Fp.toRat v : ℝ) * 10 - Fp.toRat (Fp.mul v (Fp.ofInt 10))| ≤ 2 ^ (-38 : Int) / 2 := by
  obtain ⟨hf10, hv10⟩ := Fp.ofInt_exact (z := 10) (by norm_num)
  have hmul := Fp.mul_nearest h.1 hf10
  rw [hv10] at hmul
  push_cast at hmul
  obtain ⟨hlo, hhi⟩ := h.decimal_bounds
  norm_num at hlo hhi
  have hbound : |(Fp.toRat v : ℝ) * 10| ≤ 2 ^ 15 := abs_le.mpr ⟨by linarith, by linarith⟩
  have hover : |(Fp.toRat v : ℝ) * 10| < Fp.overflow := (hbound.trans (by norm_num)).trans_lt two_pow_17_lt_overflow
  exact ⟨(hmul.1 hover).1, nearestEven_error hmul (hbound.trans (by norm_num)) (by norm_num) (by norm_num)⟩

/-- The integer that an element in range becomes: within a half and the rounding of the tenfold, so within the range of R255. -/
theorem inRange.roundTiesEven_tenfold {v : F64} (h : inRange v) :
    |(Fp.toRat v : ℝ) * 10 - Fp.roundTiesEven (Fp.mul v (Fp.ofInt 10))| ≤ 1 / 2 + 2 ^ (-38 : Int) / 2 ∧
    -2732 ≤ Fp.roundTiesEven (Fp.mul v (Fp.ofInt 10)) ∧ Fp.roundTiesEven (Fp.mul v (Fp.ofInt 10)) ≤ 32767 := by
  obtain ⟨hf, herr⟩ := h.tenfold_error
  have hhalf := (Fp.roundTiesEven_spec hf).1
  generalize Fp.roundTiesEven (Fp.mul v (Fp.ofInt 10)) = n at *
  have hn : |(Fp.toRat v : ℝ) * 10 - n| ≤ 1 / 2 + 2 ^ (-38 : Int) / 2 :=
    (abs_sub_le _ _ _).trans ((add_le_add herr hhalf).trans_eq (add_comm _ _))
  obtain ⟨hlo, hhi⟩ := h.decimal_bounds
  obtain ⟨h1, h2⟩ := abs_le.mp hn
  norm_num at hlo hhi h1 h2
  have hmin : ((-2733 : Int) : ℝ) < n := by push_cast; linarith
  have hmax : (n : ℝ) < ((32768 : Int) : ℝ) := by push_cast; linarith
  have hmin' := Int.cast_lt.mp hmin
  have hmax' := Int.cast_lt.mp hmax
  exact ⟨hn, by omega, by omega⟩

/-- The narrowing to s16 loses nothing of an element in range. -/
theorem inRange.toFixed_toInt {v : F64} (h : inRange v) : (toFixed v).toInt = Fp.roundTiesEven (Fp.mul v (Fp.ofInt 10)) := by
  obtain ⟨-, hmin, hmax⟩ := h.roundTiesEven_tenfold
  exact BitVec.toInt_ofInt_eq_self (by norm_num) (by norm_num; omega) (by norm_num; omega)

theorem compensate_inRange (id : ProfileId) (w : List HalfWord) (image : List Byte) (k : Pixel) :
    inRange (compensate (profileOf id) w image).2[k] := by
  rw [compensate_flt]
  exact lane_inRange _ _ _ _ _

/-- Settles O40: a tenth of the distance between the tenfold and the integer it is rounded to. -/
theorem gridsConsistent : Obligations.GridsConsistent := by
  intro id w image k
  have h := compensate_inRange id w image k
  rw [compensate_int, h.toFixed_toInt]
  refine ⟨rfl, ?_⟩
  have hdist := h.roundTiesEven_tenfold.1
  generalize (compensate (profileOf id) w image).2[k] = v at *
  generalize Fp.roundTiesEven (Fp.mul v (Fp.ofInt 10)) = n at *
  have htenth : |(Fp.toRat v : ℝ) - n / 10| = |(Fp.toRat v : ℝ) * 10 - n| / 10 := by
    rw [sub_div' (by norm_num), abs_div, abs_of_pos (by norm_num : (0 : ℝ) < 10)]
  rw [← Rat.cast_le (K := ℝ)]
  push_cast
  rw [htenth]
  norm_num at hdist ⊢
  linarith

/-- Settles O41: the clamp keeps the float element in range, and there the integer element has no room to leave its own. -/
theorem compensationNeverFails : Obligations.CompensationNeverFails := by
  intro id w image k
  have h := compensate_inRange id w image k
  obtain ⟨hmin, hmax⟩ := h.bounds
  obtain ⟨-, himin, himax⟩ := h.roundTiesEven_tenfold
  rw [compensate_int, h.toFixed_toInt]
  exact ⟨h.1, hmin, hmax, himin, himax⟩

/-! ### Object temperatures are above T_MIN (R247) -/

/-- A root that R238 takes is of a finite value not below zero. -/
theorem nonneg_of_not_badRadicand {x : F64} (h : Fp.badRadicand x = false) : Fp.isFinite x = true ∧ 0 ≤ Fp.toRat x := by
  simp only [Fp.badRadicand, Bool.or_eq_false_iff] at h
  obtain ⟨⟨hnan, hlt⟩, hinf⟩ := h
  have hf := isFinite_of_not hnan hinf
  have h0 := (Fp.lt_eq_false_iff hf (Fp.isFinite_zero false)).mp hlt
  rw [Fp.toRat_zero] at h0
  exact ⟨hf, h0⟩

theorem sqrt_lt_overflow {x : ℝ} (h : x < Fp.overflow) : √x < Fp.overflow := by
  rcases le_total x 1 with h1 | h1
  · have hone : (1 : ℝ) < 2 ^ 17 := by norm_num
    exact ((Real.sqrt_le_one.mpr h1).trans_lt hone).trans two_pow_17_lt_overflow
  · exact (Real.sqrt_le_self_iff.mpr (.inr h1)).trans_lt h

theorem Fp.sqrt_nonneg {x : F64} (hx : Fp.isFinite x = true) (h0 : 0 ≤ Fp.toRat x) :
    Fp.isFinite (Fp.sqrt x) = true ∧ 0 ≤ Fp.toRat (Fp.sqrt x) := by
  have hroot := Fp.sqrt_nearest hx h0
  have hover : |√(Fp.toRat x : ℝ)| < Fp.overflow := by
    rw [abs_of_nonneg (Real.sqrt_nonneg _)]
    exact sqrt_lt_overflow ((le_abs_self _).trans_lt (Fp.finite_lt_overflow hx))
  have hge := nearestEven_ge hroot hover (Fp.isFinite_zero false) (by simp)
  rw [Fp.toRat_zero] at hge
  exact ⟨(hroot.1 hover).1, hge⟩

theorem Fp.root4_nonneg {x : F64} (hx : Fp.isFinite x = true) (h0 : 0 ≤ Fp.toRat x) :
    Fp.isFinite (Fp.root4 x) = true ∧ 0 ≤ Fp.toRat (Fp.root4 x) := by
  obtain ⟨hf, h⟩ := Fp.sqrt_nonneg hx h0
  exact Fp.sqrt_nonneg hf h

theorem isFinite_kelvin : Fp.isFinite Fp.kelvin = true := by
  decide

theorem kelvin_pos : (0 : ℝ) < Fp.toRat Fp.kelvin := by
  obtain ⟨-, h⟩ := abs_le.mp kelvin_error
  norm_num at h
  linarith

theorem tMin_lt_neg_kelvin : Fp.toRat Config.tMin < -Fp.toRat Fp.kelvin := by
  obtain ⟨h1, -⟩ := abs_le.mp tMin_error
  obtain ⟨h2, -⟩ := abs_le.mp kelvin_error
  norm_num at h1 h2
  have hlt : (Fp.toRat Config.tMin : ℝ) < -Fp.toRat Fp.kelvin := by linarith
  exact_mod_cast hlt

/-- Subtracting the kelvin offset from a value not below zero does not round past `-273.15`, which is above T_MIN. -/
theorem tMin_lt_sub_kelvin {r : F64} (hr : Fp.isFinite r = true) (h0 : 0 ≤ Fp.toRat r) :
    Fp.toRat Config.tMin < Fp.toRat (Fp.sub r Fp.kelvin) := by
  have h0' : (0 : ℝ) ≤ Fp.toRat r := by exact_mod_cast h0
  have hpos := kelvin_pos
  obtain ⟨-, hrov⟩ := abs_lt.mp (Fp.finite_lt_overflow hr)
  obtain ⟨-, hkov⟩ := abs_lt.mp (Fp.finite_lt_overflow isFinite_kelvin)
  have hover : |(Fp.toRat r : ℝ) - Fp.toRat Fp.kelvin| < Fp.overflow := abs_lt.mpr ⟨by linarith, by linarith⟩
  have hge := nearestEven_ge (Fp.sub_nearest hr isFinite_kelvin) hover ((Fp.isFinite_neg _).trans isFinite_kelvin)
    (by rw [Fp.toRat_neg isFinite_kelvin]; push_cast; linarith)
  rw [Fp.toRat_neg isFinite_kelvin] at hge
  exact tMin_lt_neg_kelvin.trans_le hge

/-- What R238 answers is a fourth root less the kelvin offset. -/
theorem objectFrom_some {virComp denom ta4 v : F64} (h : objectFrom virComp denom ta4 = some v) :
    ∃ rad, Fp.badRadicand rad = false ∧ v = Fp.sub (Fp.root4 rad) Fp.kelvin := by
  unfold objectFrom at h
  simp only at h
  split_ifs at h with hbad hfin
  exact ⟨_, Bool.eq_false_of_not_eq_true hbad, (Option.some.inj h).symm⟩

/-- An object temperature is what R238 answers to some ingredients. -/
theorem object_some {p : Pixel} {vir vcp ta v : F64} {k : CalConsts} (h : object p vir vcp ta k = some v) :
    ∃ virComp denom, objectFrom virComp denom (taK4 ta) = some v := by
  unfold object at h
  simp only at h
  split_ifs at h
  split at h
  · cases h
  · split at h
    · cases h
    · exact ⟨_, _, h⟩

theorem tMin_lt_object {p : Pixel} {vir vcp ta v : F64} {k : CalConsts} (h : object p vir vcp ta k = some v) :
    Fp.toRat Config.tMin < Fp.toRat v := by
  obtain ⟨_, _, hfrom⟩ := object_some h
  obtain ⟨rad, hrad, rfl⟩ := objectFrom_some hfrom
  obtain ⟨hf, h0⟩ := nonneg_of_not_badRadicand hrad
  obtain ⟨hf4, h4⟩ := Fp.root4_nonneg hf h0
  exact tMin_lt_sub_kelvin hf4 h4

/-- A value above T_MIN is not clamped to it. -/
theorem clamp_some_ne_tMin {v : F64} (hf : Fp.isFinite v = true) (h : Fp.toRat Config.tMin < Fp.toRat v) : clamp (some v) ≠ Config.tMin := by
  have hlow := (Fp.lt_eq_false_iff hf inRange_tMin.1).mpr h.le
  simp only [clamp, hlow, Bool.false_eq_true, if_false]
  split_ifs
  · decide
  · rintro rfl
    exact lt_irrefl _ h

/-- Settles O42: a pixel temperature is at least `-273.15`, so only a domain error gives T_MIN. -/
theorem lowerClampNeverFires : Obligations.LowerClampNeverFires := by
  intro p vir vcp ta k
  have hlow {v : F64} (h : object p vir vcp ta k = some v) : Fp.lt v Config.tMin = false :=
    (Fp.lt_eq_false_iff (object_finite h) inRange_tMin.1).mpr (tMin_lt_object h).le
  refine ⟨fun v h => ⟨hlow h, fun hmax => ?_⟩, fun hclamp => ?_, fun h => ?_⟩
  · simp only [clamp, hlow h, hmax, Bool.false_eq_true, if_false, if_true]
  · cases h : object p vir vcp ta k with
    | none => rfl
    | some v =>
      rw [h] at hclamp
      exact absurd hclamp (clamp_some_ne_tMin (object_finite h) (tMin_lt_object h))
  · rw [h, clamp]

/-! ### Zero divisors (R245) -/

theorem Fp.StandsFor.eq_posZero {x : F64} (h : Fp.StandsFor x 0) : Fp.eq x Fp.posZero = true :=
  (Fp.eq_iff h.1 (Fp.isFinite_zero false)).mpr (h.2.trans (Fp.toRat_zero false).symm)

theorem calBytes_zero_calS16 {image : List Byte} {a : Nat} (h0 : image.getD a 0#8 = 0#8) (h1 : image.getD (a + 1) 0#8 = 0#8) :
    calS16 image a = 0 := by
  rw [calS16, calByte, calByte, h0, h1]
  rfl

theorem calBytes_zero_calU16 {image : List Byte} {a : Nat} (h0 : image.getD a 0#8 = 0#8) (h1 : image.getD (a + 1) 0#8 = 0#8) :
    calU16 image a = 0 := by
  rw [calU16, calByte, calByte, h0, h1]
  rfl

/-- Case 1 of R245: a KT2 of zero is a domain error of the ambient temperature (R213). -/
theorem ambient_of_kt2_zero {image : List Byte} (h : calS16 image 0xDE = 0) (ptat : F64) : ambient ptat (decodeCal image) = none := by
  have hk : calLow4 image 0xD2 + 10 ≤ 971 := by
    have := calLow4_lt image 0xD2
    omega
  have hkt2 : Fp.StandsFor (decodeCal image).kt2 0 := by
    simpa [decodeCal, h] using (standsFor_scaled (n := 0) (by norm_num) hk).div_resDiv
  rw [ambient, if_pos hkt2.eq_posZero]

/-- Case 4 of R245: an emissivity of zero is a domain error of every pixel (R220). -/
theorem object_of_eps_zero {image : List Byte} (h : calU16 image 0xE4 = 0) (p : Pixel) (vir vcp ta : F64) :
    object p vir vcp ta (decodeCal image) = none := by
  have hzero : Fp.StandsFor (Fp.ofInt 0) 0 := Fp.standsFor_ofInt (n := 0) (by norm_num)
  have hscale : Fp.StandsFor (Fp.ofInt 32768) (32768 : Int) := Fp.standsFor_ofInt (by norm_num)
  have heps : Fp.StandsFor (decodeCal image).eps 0 := by
    simpa only [decodeCal, h] using hzero.div hscale hzero (by norm_num) (zero_div _).symm
  simp only [object, heps.eq_posZero, if_true]

/-- Settles O44: either word makes ambient or every pixel a domain error. -/
theorem zeroDivisorsClampAll : Obligations.ZeroDivisorsClampAll := by
  rintro w image k (⟨h0, h1⟩ | ⟨h0, h1⟩)
  · exact compensate_flt_of_ambient_none (ambient_of_kt2_zero (calBytes_zero_calS16 h0 h1) _) k
  · rw [compensate_flt]
    unfold lane
    split
    · rfl
    · exact congrArg clamp (object_of_eps_zero (calBytes_zero_calU16 h0 h1) _ _ _ _)

end Sys2Proof.Machine
end

section
/-! PROOFS. The sensor instance as the HOST sees it (spec/46_sensor_instance.md R260 to R275): the command words and the CMD write that carries them,
the reads of STATUS and of the grids, the writes that are ignored, and the step that commits a READ. -/

namespace Sys2Proof.Machine

/-! ### A CMD write is its command (R260) -/

/-- A word that is not legal has RSV set or a reserved OPCODE, so the dispatch on its fields ends at ILLEGAL_CMD too. -/
theorem commandEffect_illegal {w : Word} (h : legalCommand w = false) : commandEffect w = illegal := by
  funext s
  unfold commandEffect
  by_cases hrsv : w.extractLsb' 8 24 = 0#24
  · have hne (c : BitVec 8) (hc : legalCommand (commandWord 0#24 c) = true) : w.extractLsb' 0 8 ≠ c := by
      rintro rfl
      rw [← hrsv, commandWord_fields, h] at hc
      exact Bool.false_ne_true hc
    rw [if_neg (not_not.mpr hrsv), if_neg (hne _ rfl), if_neg (hne _ rfl), if_neg (hne _ rfl)]
  · rw [if_pos hrsv]

/-- What a command does is what the CMD write of its word does, and BUSY holds back both (R260, R261). -/
theorem exec_decodeCommand (w : Word) (s : State) : exec (decodeCommand w) s = unlessBusy (commandEffect w) s := by
  cases hl : legalCommand w with
  | false =>
    rw [decodeCommand_illegal hl, commandEffect_illegal hl]
    rfl
  | true =>
    simp only [legalCommand, Bool.or_eq_true, beq_iff_eq] at hl
    rcases hl with (rfl | rfl) | rfl <;> rfl

theorem exec_wrCmd (w : Word) (s : State) : exec (.wrCmd w) s = exec (decodeCommand w) s :=
  (exec_decodeCommand w s).symm

/-- The two forms of a command: the command itself, or the CMD write of its word. -/
theorem exec_command_or_write {w : Word} {c i : Instr} (hd : decodeCommand w = c) (hi : i = c ∨ i = .wrCmd w) (s : State) :
    exec i s = exec c s := by
  rcases hi with rfl | rfl
  · rfl
  · rw [exec_wrCmd, hd]

/-! ### What each command does (R262, R267, R268) -/

theorem exec_nop (s : State) : exec .nop s = .next s :=
  congrArg Host.Outcome.next (ite_self s)

theorem exec_init_of_not_busy {s : State} (hb : s.busy = false) :
    exec .init s = .next { s with active := .init, phase := .initRate, busy := true, ready := false } :=
  unlessBusy_of_not_busy hb

theorem readAccept_of_ready {s : State} (hr : s.ready = true) :
    readAccept s = { s with active := .read, phase := .readFrame, busy := true } := if_pos hr

theorem readAccept_of_not_ready {s : State} (hr : s.ready = false) : readAccept s = { s with err := .notInitialized } :=
  if_neg (by simp [hr])

theorem exec_read_of_ready {s : State} (hb : s.busy = false) (hr : s.ready = true) :
    exec .read s = .next { s with active := .read, phase := .readFrame, busy := true } :=
  (unlessBusy_of_not_busy hb).trans (congrArg _ (readAccept_of_ready hr))

theorem exec_read_of_not_ready {s : State} (hb : s.busy = false) (hr : s.ready = false) :
    exec .read s = .next { s with err := .notInitialized } :=
  (unlessBusy_of_not_busy hb).trans (congrArg _ (readAccept_of_not_ready hr))

theorem exec_illegalCmd_of_not_busy {s : State} (rsv : BitVec 24) (opcode : BitVec 8) (hb : s.busy = false) :
    exec (.illegalCmd rsv opcode) s = .next { s with err := .illegalCmd } :=
  unlessBusy_of_not_busy hb

/-- Settles O21: the effect of NOP is the identity, so BUSY makes no difference. -/
theorem nopChangesNothing : Obligations.NopChangesNothing :=
  ⟨rfl, fun s => ⟨exec_nop s, (exec_wrCmd _ s).trans (exec_nop s)⟩⟩

/-- Settles O23: READ, in either form, is `READ_accept`. -/
theorem readAcceptance : Obligations.ReadAcceptance := by
  refine ⟨rfl, fun s i hi hb => ?_⟩
  rw [exec_command_or_write (c := .read) rfl hi]
  exact ⟨exec_read_of_ready hb, exec_read_of_not_ready hb⟩

/-- Settles O24: such a word is none of the legal ones, and its CMD write is the illegal command of its fields. -/
theorem illegalCommandSetsErr : Obligations.IllegalCommandSetsErr := by
  intro rsv opcode s hb h
  have hd : decodeCommand (rsv ++ opcode) = .illegalCmd rsv opcode := decodeCommand_commandWord (legalCommand_commandWord h)
  have he := exec_illegalCmd_of_not_busy rsv opcode hb
  exact ⟨hd, he, (exec_command_or_write hd (.inr rfl) s).trans he⟩

/-- Settles O25: the dispatch on RSV and OPCODE agrees with the decoder, so each clause is that of the command the word decodes to. -/
theorem commandWriteDispatch : Obligations.CommandWriteDispatch := by
  intro data s
  refine ⟨decodeAccess_write rfl rfl, exec_wrCmd data s, unlessBusy_of_busy, fun hb h3 => ?_, ?_, ?_, ?_, ?_⟩
  · have hl : legalCommand data = false := Bool.eq_false_iff.mpr (mt (legalCommand_iff data).mp (not_lt.mpr h3))
    rw [exec_wrCmd, decodeCommand_illegal hl]
    exact exec_illegalCmd_of_not_busy _ _ hb
  · rintro _ rfl
    exact (exec_wrCmd _ s).trans (exec_nop s)
  · rintro hb rfl
    exact (exec_wrCmd _ s).trans (exec_init_of_not_busy hb)
  · rintro hb rfl hr
    exact (exec_wrCmd _ s).trans (exec_read_of_ready hb hr)
  · rintro hb rfl hr
    exact (exec_wrCmd _ s).trans (exec_read_of_not_ready hb hr)

/-- Settles O26: each of these instructions has its effect by `unlessBusy` only. -/
theorem busyIgnoresWrites : Obligations.BusyIgnoresWrites := fun s _ _ _ hb =>
  ⟨exec_nop s, unlessBusy_of_busy hb, unlessBusy_of_busy hb, unlessBusy_of_busy hb, unlessBusy_of_busy hb, unlessBusy_of_busy hb⟩

/-! ### The STATUS word (R25, R274) -/

theorem memRead_cmd (s : State) : memRead s addrCmd = 0x00000000#32 := rfl

theorem memRead_status (s : State) : memRead s addrStatus = statusWord s := rfl

/-- BUSY, READY and GRID_VALID stand at bits 0, 1 and 2 of STATUS. -/
theorem statusWord_flags (s : State) :
    (statusWord s).getLsbD 0 = s.busy ∧ (statusWord s).getLsbD 1 = s.ready ∧ (statusWord s).getLsbD 2 = s.gridValid := by
  unfold statusWord
  simp only [BitVec.getLsbD_append, Nat.reduceLT, Nat.reduceSub, if_false, if_true, BitVec.getLsbD_ofBool, decide_true, Bool.true_and, and_self]

/-- ERR stands at [11:8] of STATUS. -/
theorem statusWord_err (s : State) : (statusWord s).extractLsb' 8 4 = errCode s.err := by
  unfold statusWord
  simp only [BitVec.extractLsb'_append_eq_of_le, Nat.reduceLeDiff, Nat.reduceSub, BitVec.extractLsb'_append_eq_right]

/-- The bits of STATUS between its fields and above them are 0. -/
theorem statusWord_reserved (s : State) :
    (statusWord s).extractLsb' 3 5 = 0#5 ∧ (statusWord s).extractLsb' 12 4 = 0#4 ∧ (statusWord s).extractLsb' 25 7 = 0#7 := by
  unfold statusWord
  simp only [BitVec.extractLsb'_append_eq_of_le, Nat.reduceLeDiff, Nat.reduceSub, BitVec.extractLsb'_append_eq_right,
    BitVec.extractLsb'_eq_self, and_self]

/-- Settles O17: field by field of the STATUS word. -/
theorem statusReadFields : Obligations.StatusReadFields := by
  refine ⟨decodeAccess_read rfl rfl, fun s => ⟨statusWord s, rfl, (memRead_status s).symm, ?_⟩⟩
  obtain ⟨hbusy, hready, hvalid⟩ := statusWord_flags s
  obtain ⟨hlow, hmid, hhigh⟩ := statusWord_reserved s
  have hok : (statusWord s).getLsbD 24 = true ↔ s.rateSel.toNat ≤ 10 :=
    (Bool.eq_iff_iff.mp (statusWord_rateOk s)).trans (rateSupported_iff _)
  exact ⟨hbusy, hready, hvalid, hlow, statusWord_err s, hmid, statusWord_rateCode s, hok, hhigh⟩

/-! ### Offsets of the grid words and of the reserved words (R22) -/

theorem addrInt_eq_ofNat (k : BitVec 6) : BitVec.ofNat 10 (0x100 + 4 * k.toNat) = addrInt k := by
  apply BitVec.eq_of_toNat_eq
  rw [addrInt_toNat, BitVec.toNat_ofNat]
  omega

theorem addrFlt_low_eq_ofNat (k : BitVec 6) : BitVec.ofNat 10 (0x200 + 8 * k.toNat) = addrFlt k false := by
  apply BitVec.eq_of_toNat_eq
  rw [addrFlt_toNat, BitVec.toNat_ofNat, if_neg Bool.false_ne_true]
  omega

theorem addrFlt_high_eq_ofNat (k : BitVec 6) : BitVec.ofNat 10 (0x204 + 8 * k.toNat) = addrFlt k true := by
  apply BitVec.eq_of_toNat_eq
  rw [addrFlt_toNat, BitVec.toNat_ofNat, if_pos rfl]
  omega

theorem reservedOffset_of_range {a : HostAddr} (h4 : a.toNat % 4 = 0) (hlo : 0x00C ≤ a.toNat) (hhi : a.toNat ≤ 0x0FC) :
    reservedOffset a = true := by
  simp only [reservedOffset, Bool.and_eq_true, decide_eq_true_eq]
  exact ⟨⟨(aligned_iff a).mpr h4, hlo⟩, hhi⟩

/-! ### Reads of the grids, of CMD and of reserved words, and writes to read-only words (R272, R273, R275) -/

theorem hostRead_of_memRead {s : State} {a : HostAddr} {w : Word} (h : memRead s a = w) : hostRead a s = .next { s with readData := w } := by
  rw [hostRead, h]

/-- Settles O18: a reserved word and CMD read 0, and a write to a word that is neither CONFIG nor CMD is ignored. -/
theorem readOnlyAndReservedAccesses : Obligations.ReadOnlyAndReservedAccesses := by
  intro s data k a
  refine ⟨⟨decodeAccess_read rfl rfl, hostRead_of_memRead (memRead_cmd s)⟩, fun h4 hlo hhi => ?_,
    ⟨decodeAccess_write rfl rfl, rfl⟩, ?_, ?_, ?_⟩
  · have hr := reservedOffset_of_range h4 hlo hhi
    have ha := aligned_of_reservedOffset hr
    exact ⟨decodeAccess_read ha (decodeRead_reserved hr), hostRead_of_memRead (memRead_reserved s hr),
      decodeAccess_write ha (decodeWrite_reserved data hr), rfl⟩
  · rw [addrInt_eq_ofNat]
    exact ⟨decodeAccess_write (aligned_addrInt k) (decodeWrite_addrInt k data), rfl⟩
  · rw [addrFlt_low_eq_ofNat]
    exact ⟨decodeAccess_write (aligned_addrFlt k false) (decodeWrite_addrFlt k false data), rfl⟩
  · rw [addrFlt_high_eq_ofNat]
    exact ⟨decodeAccess_write (aligned_addrFlt k true) (decodeWrite_addrFlt k true data), rfl⟩

/-- Settles O19: the word is the element sign-extended, which keeps its signed value. -/
theorem intReadSignExtends : Obligations.IntReadSignExtends := by
  intro k s
  rw [addrInt_eq_ofNat]
  exact ⟨decodeAccess_read (aligned_addrInt k) (decodeRead_addrInt k), _, hostRead_of_memRead (memRead_int s k),
    BitVec.toInt_signExtend_of_le (by decide)⟩

/-- Settles O20: the two words are the upper and the lower 32 bits of the pattern. -/
theorem floatReadsAreHalves : Obligations.FloatReadsAreHalves := by
  intro k s
  rw [addrFlt_low_eq_ofNat, addrFlt_high_eq_ofNat]
  exact ⟨decodeAccess_read (aligned_addrFlt k false) (decodeRead_addrFlt k false),
    decodeAccess_read (aligned_addrFlt k true) (decodeRead_addrFlt k true), _, _,
    hostRead_of_memRead (memRead_flt s k false), hostRead_of_memRead (memRead_flt s k true), BitVec.extractLsb'_append_extractLsb'⟩

/-! ### The commit (R265, R266) -/

/-- READ_COMP issues nothing; its silent step commits what it computes of the image. -/
theorem engineStep_readComp {s : State} {image : List Byte} (hp : s.phase = .readComp) (hc : s.cal = some image) :
    engineStep s = .next (commit (compensate (profileOf s.params.profile) s.raw image) s) := by
  simp only [engineStep, issued, engineSilent, readComp, hp, hc, Option.getD_some]

/-- Settles O35: the commit writes both grids and ends the command in one step. -/
theorem readCompCommits : Obligations.ReadCompCommits := fun _ _ _ hs hp hc =>
  (step_of_engine_turn hs).trans (engineStep_readComp hp hc)

end Sys2Proof.Machine
end

section
/-! PROOFS. Errors (spec/60_exceptions.md R301): from every idle state an INIT with a supported selector succeeds when the DEVICE answers correctly.
Its run is the HOST's command, the configuration write, and one calibration read per chunk. -/

namespace Sys2Proof.Machine

/-! ### Where INIT stands, and where it ends -/

/-- `t` is a state in which an INIT that brought `image` has just succeeded (R176, R178); what INIT never touches is as in `s`. -/
def InitSucceeded (image : List Byte) (s t : State) : Prop :=
  t.ready = true ∧ t.err = .ok ∧ t.busy = false ∧ t.cal = some image ∧ GridsKept s t ∧ t.rateSel = s.rateSel

theorem InitSucceeded.of_kept {image : List Byte} {s u t : State} (h : InitSucceeded image u t) (hk : GridsKept s u)
    (hr : u.rateSel = s.rateSel) : InitSucceeded image s t := by
  obtain ⟨hgi, hgf, hvalid⟩ := hk
  simpa only [InitSucceeded, GridsKept, hgi, hgf, hvalid, hr] using h

/-- INIT is due to read chunk `j` in `s`, and every ENGINE turn and every answer it still needs is scripted: `chunks` are those that are missing. -/
structure AwaitsChunks (s : State) (j : Nat) (chunks : List (List Byte)) : Prop where
  paramsWf : s.params.wf = true
  stageLength : s.calStage.length = s.params.calBytes
  phaseIs : s.phase = .initCal j
  count : j + chunks.length = s.params.nChunk
  turns : List.replicate chunks.length Turn.engine <+: s.schedule
  scripted : chunks.map (fun c => DevScript.answer (.ok c)) <+: s.answers
  rightLength : ∀ c ∈ chunks, c.length = s.params.calChunk

/-! ### The calibration reads (R175, R176) -/

theorem step_eeRead_scripted {s : State} {j : Nat} {a : DevAnswer} {rest : List Turn} {more : List DevScript} (hp : s.phase = .initCal j)
    (hs : s.schedule = .engine :: rest) (ha : s.answers = .answer a :: more) :
    step s = .next (afterEeRead a { s with
      schedule := rest, answers := more, trace := ⟨eeReadFrame s.params (eeOffset s.params j), a⟩ :: s.trace }) :=
  (step_of_issued hs (issued_initCal hp)).trans (exec_eeRead_scripted (s := { s with schedule := rest }) hp ha)

/-- Each chunk but the last goes behind those before it, and INIT awaits the others. -/
theorem AwaitsChunks.step_more {s : State} {j : Nat} {c : List Byte} {cs : List (List Byte)} (h : AwaitsChunks s j (c :: cs)) (hcs : cs ≠ []) :
    ∃ t, step s = .next t ∧ AwaitsChunks t (j + 1) cs ∧
      t.calStage.take ((j + 1) * t.params.calChunk) = s.calStage.take (j * s.params.calChunk) ++ c ∧
      GridsKept s t ∧ t.rateSel = s.rateSel := by
  obtain ⟨hwf, hstage, hp, hcount, hturns, hscript, hlen⟩ := h
  obtain ⟨rest, hs, hturns⟩ := List.cons_prefix_iff.mp hturns
  obtain ⟨more, ha, hscript⟩ := List.cons_prefix_iff.mp hscript
  obtain ⟨hc, hlen⟩ := List.forall_mem_cons.mp hlen
  have hpos := List.length_pos_of_ne_nil hcs
  rw [List.length_cons] at hcount
  have hend : j * s.params.calChunk + s.params.calChunk ≤ s.calStage.length := hstage ▸ Params.chunk_end hwf (by omega)
  refine ⟨_, (step_eeRead_scripted hp hs ha).trans (congrArg _ (afterEeRead_of_more_chunks hp (by dsimp only; omega) hc)),
    ⟨hwf, (stageWith_length hc hend).trans hstage, rfl, (by dsimp only; omega), hturns, hscript, hlen⟩, ?_, ⟨rfl, rfl, rfl⟩, rfl⟩
  rw [Nat.succ_mul]
  exact stageWith_take hc hend

/-- The last chunk makes the staging buffer the image. -/
theorem AwaitsChunks.step_last {s : State} {j : Nat} {c : List Byte} (h : AwaitsChunks s j [c]) :
    ∃ t, step s = .next t ∧ InitSucceeded (s.calStage.take (j * s.params.calChunk) ++ c) s t := by
  obtain ⟨hwf, hstage, hp, hcount, hturns, hscript, hlen⟩ := h
  obtain ⟨rest, hs, -⟩ := List.cons_prefix_iff.mp hturns
  obtain ⟨more, ha, -⟩ := List.cons_prefix_iff.mp hscript
  have hc : c.length = s.params.calChunk := hlen c List.mem_cons_self
  have hend : s.calStage.length = j * s.params.calChunk + s.params.calChunk := hstage.trans (Params.last_chunk_end hwf hcount).symm
  rw [← stageWith_of_last_chunk c hend]
  exact ⟨_, (step_eeRead_scripted hp hs ha).trans (congrArg _ (afterEeRead_of_last_chunk hp hcount.ge hc)),
    rfl, rfl, rfl, rfl, ⟨rfl, rfl, rfl⟩, rfl⟩

/-- ENGINE reads the missing chunks one turn each, and the image is what the staging buffer already held with them behind it. -/
theorem AwaitsChunks.run {chunks : List (List Byte)} (hne : chunks ≠ []) : ∀ {s : State} {j : Nat}, AwaitsChunks s j chunks →
    ∃ t, Sys2Proof.core.run chunks.length s = .next t ∧ InitSucceeded (s.calStage.take (j * s.params.calChunk) ++ chunks.flatten) s t := by
  induction chunks with
  | nil => exact absurd rfl hne
  | cons c cs ih =>
    intro s j h
    by_cases hcs : cs = []
    · subst hcs
      obtain ⟨t, ht, hdone⟩ := h.step_last
      rw [List.flatten_singleton]
      exact ⟨t, run_step ht, hdone⟩
    · obtain ⟨u, hu, hawaits, htake, hgrids, hrate⟩ := h.step_more hcs
      obtain ⟨t, ht, hdone⟩ := ih hcs hawaits
      rw [htake, List.append_assoc] at hdone
      exact ⟨t, (run_step hu).trans ht, hdone.of_kept hgrids hrate⟩

/-! ### The command and the configuration write (R171, R174) -/

theorem step_initCommand {s : State} {rest : List Turn} (hb : s.busy = false) (hs : s.schedule = .host :: rest)
    (hl : s.program[s.line]? = some (.command 0x00000001#32)) : step s = .next (initAccept (nextLine { s with schedule := rest })) :=
  (step_of_host_line hs hl).trans (exec_init_of_not_busy (s := nextLine { s with schedule := rest }) hb)

theorem step_cfgWrite_ok {s : State} {low : Byte} {bytes : List Byte} {rest : List Turn} {more : List DevScript} (hp : s.phase = .initRate)
    (hl : rateByte s.rateSel = some low) (hs : s.schedule = .engine :: rest) (ha : s.answers = .answer (.ok bytes) :: more) :
    step s = .next { s with
      phase := .initCal 0, schedule := rest, answers := more, trace := ⟨cfgWriteFrame s.params low s.params.cfgMsb, .ok bytes⟩ :: s.trace } :=
  (step_of_issued hs (issued_initRate hp hl)).trans (exec_cfgWrite_scripted (s := { s with schedule := rest }) hp hl ha)

/-- After the command and the configuration write INIT awaits all chunks. -/
theorem run_to_awaitsChunks {s : State} {rest : List Turn} {more : List DevScript} {ack : List Byte} {chunks : List (List Byte)} (hi : s.Inv)
    (hb : s.busy = false) (hsel : s.rateSel.toNat ≤ 10) (hl : s.program[s.line]? = some (.command 0x00000001#32))
    (hs : s.schedule = .host :: .engine :: (List.replicate chunks.length .engine ++ rest))
    (ha : s.answers = .answer (.ok ack) :: (chunks.map (fun c => DevScript.answer (.ok c)) ++ more))
    (hcount : chunks.length = s.params.nChunk) (hlen : ∀ c ∈ chunks, c.length = s.params.calChunk) :
    ∃ u, Sys2Proof.core.run 2 s = .next u ∧ AwaitsChunks u 0 chunks ∧ GridsKept s u ∧ u.rateSel = s.rateSel := by
  obtain ⟨low, hlow⟩ := Option.ne_none_iff_exists'.mp (mt rateByte_eq_none_iff.mp (by omega : ¬ 11 ≤ s.rateSel.toNat))
  have hcommand := step_initCommand hb hs hl
  have hconfig := step_cfgWrite_ok (s := initAccept (nextLine { s with schedule := .engine :: (List.replicate chunks.length .engine ++ rest) }))
    rfl hlow rfl ha
  exact ⟨_, (run_step hcommand).trans (run_step hconfig),
    ⟨hi.paramsWf, hi.stageLength, rfl, (Nat.zero_add _).trans hcount, List.prefix_append _ rest, List.prefix_append _ more, hlen⟩,
    ⟨rfl, rfl, rfl⟩, rfl⟩

/-! ### INIT as a whole (R178, R301) -/

/-- Settles O60: the two steps before the first chunk, then the calibration reads, which begin with nothing of the staging buffer to keep. -/
theorem initSucceedsFromEveryIdleState : Obligations.InitSucceedsFromEveryIdleState := by
  intro s rest more ack chunks hi hb hsel hl hs ha hcount hlen
  rw [Nat.add_comm, List.replicate_succ, ← hcount] at hs
  obtain ⟨u, hu, hawaits, hgrids, hrate⟩ := run_to_awaitsChunks hi hb hsel hl hs ha hcount hlen
  obtain ⟨_, _, _, hpos⟩ := Params.wf_chunks hi.paramsWf
  obtain ⟨t, ht, hdone⟩ := hawaits.run (List.ne_nil_of_length_pos (hcount ▸ hpos))
  rw [Nat.zero_mul, List.take_zero, List.nil_append] at hdone
  obtain ⟨hready, herr, hbusy, hcal, ⟨hgi, hgf, hvalid⟩, hrate⟩ := hdone.of_kept hgrids hrate
  exact ⟨t, hcount ▸ (run_add chunks.length hu).trans ht, hready, herr, hbusy, hcal, hgi, hgf, hvalid, hrate⟩

end Sys2Proof.Machine
end

section
/-! PROOFS. Reset and hazards (spec/70_reset_and_hazards.md R320 to R341): the reset event restores the block and leaves the HOST; an ENGINE whose
answer is withheld waits; and a DEVICE that answers lets every command end, because each ENGINE step takes one off the number a command still needs. -/

namespace Sys2Proof.Machine

/-! ### The reset event (R320) -/

theorem step_of_reset_turn {s : State} {rest : List Turn} (hs : s.schedule = .reset :: rest) :
    step s = .next (resetStep { s with schedule := rest }) := by
  simp only [step, turn, afterTurn, hs, runTurn]

/-- A register read sees the block only, and the reset event leaves nothing of the block as it was. -/
theorem memRead_resetStep (s : State) (a : HostAddr) : memRead (resetStep s) a = memRead State.reset a := rfl

/-- Settles O12: the block is that of the state after reset, whose registers are known. -/
theorem resetEventRestoresBlock : Obligations.ResetEventRestoresBlock := by
  intro s rest hs
  obtain ⟨hconfig, hcmd, hstatus, hgrids, -⟩ := resetValues
  exact ⟨_, step_of_reset_turn hs, rfl, rfl, rfl, rfl, rfl, rfl, rfl, rfl, hgrids, (memRead_resetStep _ _).trans hconfig,
    (memRead_resetStep _ _).trans hcmd, (memRead_resetStep _ _).trans hstatus⟩

/-- Settles O13: only the script of the DEVICE can lose an entry, and what is due does not depend on the schedule. -/
theorem resetEventKeepsHost : Obligations.ResetEventKeepsHost := by
  intro s rest hs
  refine ⟨_, step_of_reset_turn hs, ?_⟩
  simp only [resetStep, State.resetBlock_params, State.resetBlock_readData, State.resetBlock_program, State.resetBlock_line,
    State.resetBlock_schedule, State.resetBlock_trace, State.resetBlock_draws, State.resetBlock_answers, dropWithheld_params,
    dropWithheld_readData, dropWithheld_program, dropWithheld_line, dropWithheld_schedule, dropWithheld_trace, dropWithheld_draws, true_and]
  exact dropWithheld_answers { s with schedule := rest }

/-! ### A withheld answer (I13) -/

theorem engineTransaction_withheld {i : Instr} {f : BusFrame} {k : DevAnswer → State → State} {s : State} {rest : List DevScript}
    (hi : issued s = some i) (ha : s.answers = .withhold :: rest) : engineTransaction i f k s = .next s := by
  simp only [engineTransaction, if_pos hi, transact, ha]

theorem exec_issued_withheld {i : Instr} {s : State} {rest : List DevScript} (hi : issued s = some i) (ha : s.answers = .withhold :: rest) :
    exec i s = .next s := by
  rcases issued_cases hi with ⟨-, low, -, rfl⟩ | ⟨j, -, rfl⟩ | ⟨-, rfl⟩
  · exact engineTransaction_withheld hi ha
  · exact engineTransaction_withheld hi ha
  · exact engineTransaction_withheld hi ha

/-- Settles O37: whichever transaction is due, it waits. -/
theorem withheldAnswerWaits : Obligations.WithheldAnswerWaits := fun s rest _ _ hs ha hi =>
  (step_of_issued hs hi).trans (exec_issued_withheld (s := { s with schedule := rest }) hi ha)

/-! ### What a turn leaves of the schedule and of the DEVICE's script -/

theorem EngineEffect.schedule {s t : State} (h : EngineEffect s t) : t.schedule = s.schedule := by
  cases h with
  | idle _ | waits _ _ | unsupported _ _ | computed _ => rfl
  | configFailed _ _ _ _ ha | configured _ _ _ _ _ ha | chunkFailed _ _ _ ha | chunkWrongLength _ _ _ _ _ ha | chunkStored _ _ _ _ _ _ ha
  | initCompleted _ _ _ _ _ _ ha | frameFailed _ _ _ _ ha | frameStored _ _ _ _ ha =>
    obtain ⟨_, _, rfl⟩ := ha.block
    rfl

theorem Answered.answers_suffix {f : BusFrame} {a : DevAnswer} {s s1 : State} (h : Answered f a s s1) : s1.answers <:+ s.answers := by
  rcases h with ⟨rest, hs, rfl⟩ | ⟨_, _, rfl⟩
  · exact hs ▸ List.suffix_cons _ rest
  · exact List.suffix_rfl

theorem HostTurn.answers {s t : State} (h : HostTurn s t) : t.answers = s.answers := by
  cases h with
  | ended _ => rfl
  | ran u line he => cases he <;> rfl

theorem EngineEffect.answers_suffix {s t : State} (h : EngineEffect s t) : t.answers <:+ s.answers := by
  cases h with
  | idle _ | waits _ _ | unsupported _ _ | computed _ => exact List.suffix_rfl
  | configFailed _ _ _ _ ha | configured _ _ _ _ _ ha | chunkFailed _ _ _ ha | chunkWrongLength _ _ _ _ _ ha | chunkStored _ _ _ _ _ _ ha
  | initCompleted _ _ _ _ _ _ ha | frameFailed _ _ _ _ ha | frameStored _ _ _ _ ha => exact ha.answers_suffix

theorem resetStep_answers_suffix (s : State) : (resetStep s).answers <:+ s.answers := by
  rw [resetStep, State.resetBlock_answers, dropWithheld_answers]
  split
  · exact List.tail_suffix _
  · exact List.suffix_rfl

theorem step_answers_suffix {s t : State} (h : step s = .next t) : t.answers <:+ s.answers := by
  rw [← afterTurn_answers s]
  rcases step_next_cases h with ⟨_, ht⟩ | ⟨_, ht⟩ | ⟨_, rfl⟩
  · exact ht.answers ▸ List.suffix_rfl
  · exact ht.answers_suffix
  · exact resetStep_answers_suffix _

/-! ### States from which commands end -/

/-- What every step keeps and a command needs to end: the invariants, and a DEVICE that withholds no answer. -/
structure State.Live (s : State) : Prop where
  inv : s.Inv
  answered : s.deviceAnswers

theorem State.Live.afterTurn {s : State} (h : s.Live) : (afterTurn s).Live :=
  ⟨h.inv.afterTurn, by simpa only [State.deviceAnswers, afterTurn_answers] using h.answered⟩

theorem State.Live.step {s t : State} (h : s.Live) (hst : step s = .next t) : t.Live :=
  ⟨stepKeepsInvariant s t h.inv hst, fun hw => h.answered ((step_answers_suffix hst).subset hw)⟩

/-- The ENGINE steps that a command in this phase can still take (R334): one per transaction to come, and one for READ_COMP. -/
def phaseTurns (p : Params) : Phase → Nat
  | .idle => 0
  | .initRate => 1 + p.nChunk
  | .initCal j => p.nChunk - j
  | .readFrame => 2
  | .readComp => 1

/-- The ENGINE steps that the running command can still take. -/
def State.turnsLeft (s : State) : Nat := phaseTurns s.params s.phase

theorem afterTurn_turnsLeft (s : State) : (afterTurn s).turnsLeft = s.turnsLeft := by
  simp only [State.turnsLeft, afterTurn_params, afterTurn_phase]

theorem turnsLeft_of_idle {s : State} (hp : s.phase = .idle) : s.turnsLeft = 0 := by
  rw [State.turnsLeft, hp, phaseTurns]

theorem State.Inv.turnsLeft_pos {s : State} (h : s.Inv) (hp : s.phase ≠ .idle) : 0 < s.turnsLeft := by
  unfold State.turnsLeft
  cases hq : s.phase with
  | idle => exact absurd hq hp
  | initRate => exact Nat.add_pos_left Nat.one_pos _
  | initCal j => exact Nat.sub_pos_of_lt (h.chunkInRange j hq)
  | readFrame => exact Nat.two_pos
  | readComp => exact Nat.one_pos

theorem State.Inv.idle_of_turnsLeft {s : State} (h : s.Inv) (h0 : s.turnsLeft = 0) : s.busy = false ∧ s.phase = .idle := by
  have hp : s.phase = .idle := not_not.mp (mt h.turnsLeft_pos h0.not_gt)
  exact ⟨Bool.eq_false_iff.mpr fun hb => h.busyIff.mp hb hp, hp⟩

/-! ### Every ENGINE step takes one off -/

/-- An ENGINE step ends the command or goes on to a phase with fewer steps to come; it does not wait when the DEVICE answers. -/
theorem EngineEffect.turnsLeft_lt {s t : State} (h : EngineEffect s t) (hl : s.Live) (hp : s.phase ≠ .idle) : t.turnsLeft < s.turnsLeft := by
  cases h with
  | idle hidle => exact absurd hidle hp
  | waits rest hw => exact absurd (hw ▸ List.mem_cons_self) hl.answered
  | unsupported _ _ | configFailed _ _ _ _ _ | chunkFailed _ _ _ _ | chunkWrongLength _ _ _ _ _ _ | initCompleted _ _ _ _ _ _ _
  | frameFailed _ _ _ _ _ | computed _ => exact (turnsLeft_of_idle rfl).trans_lt (hl.inv.turnsLeft_pos hp)
  | configured _ _ _ hq _ ha =>
    obtain ⟨_, _, rfl⟩ := ha.block
    simp only [State.turnsLeft, hq, phaseTurns]
    omega
  | chunkStored j _ _ hq _ hj ha =>
    obtain ⟨_, _, rfl⟩ := ha.block
    simp only [State.turnsLeft, hq, phaseTurns]
    omega
  | frameStored _ _ hq _ ha =>
    obtain ⟨_, _, rfl⟩ := ha.block
    simp only [State.turnsLeft, hq, phaseTurns]
    omega

/-- While BUSY = 1 the HOST starts no command and ends none (R261). -/
theorem HostTurn.phase_of_busy {s t : State} (h : HostTurn s t) (hb : s.busy = true) : t.phase = s.phase := by
  have not_idle : s.busy ≠ false := by simp [hb]
  cases h with
  | ended _ => rfl
  | ran u line he =>
    cases he with
    | initAccepted hidle | readAccepted hidle _ => exact absurd hidle not_idle
    | nothing | readWord _ | config _ _ | readRefused _ _ | illegalCommand _ => rfl

theorem HostTurn.turnsLeft_of_busy {s t : State} (h : HostTurn s t) (hb : s.busy = true) : t.turnsLeft = s.turnsLeft := by
  obtain ⟨_, hparams, _⟩ := h.keeps
  rw [State.turnsLeft, hparams, h.phase_of_busy hb, State.turnsLeft]

/-- While a command runs, an ENGINE turn takes one off the turns that are left, and no other turn adds any. -/
theorem step_turnsLeft {s t : State} (hl : s.Live) (hb : s.busy = true) (h : step s = .next t) :
    (if turn s = .engine then 1 else 0) + t.turnsLeft ≤ s.turnsLeft := by
  rw [← afterTurn_turnsLeft s]
  rcases step_next_cases h with ⟨hturn, ht⟩ | ⟨hturn, ht⟩ | ⟨hturn, rfl⟩
  · simp [hturn, ht.turnsLeft_of_busy ((afterTurn_busy s).trans hb)]
  · have hlt := ht.turnsLeft_lt hl.afterTurn (by simpa only [afterTurn_phase] using hl.inv.busyIff.mp hb)
    rw [if_pos hturn]
    omega
  · simp [hturn, turnsLeft_of_idle (s := resetStep (afterTurn s)) rfl]

/-! ### Runs -/

theorem run_one {s t : State} (h : step s = .next t) : Sys2Proof.core.run 1 s = .next t := run_step (k := 0) h

theorem run_refused {k : Nat} {s : State} {r : Refusal} (h : step s = .refused r) : Sys2Proof.core.run (k + 1) s = .refused r := by
  simp only [Host.Core.run, show Sys2Proof.core.step s = .refused r from h]

/-- A run of one step or more begins with a step that has a next state. -/
theorem step_of_run_next {k : Nat} {s t : State} (h : Sys2Proof.core.run (k + 1) s = .next t) : ∃ u, step s = .next u := by
  cases hs : step s with
  | next u => exact ⟨u, rfl⟩
  | fault r => cases r
  | refused r => cases (run_refused hs).symm.trans h

theorem State.Live.run {n : Nat} : ∀ {s t : State}, s.Live → Sys2Proof.core.run n s = .next t → t.Live := by
  induction n with
  | zero =>
    intro s t hl h
    cases h
    exact hl
  | succ n ih =>
    intro s t hl h
    obtain ⟨u, hu⟩ := step_of_run_next h
    exact ih (hl.step hu) ((run_step hu).symm.trans h)

/-! ### In every interleaving (R334) -/

theorem engineTurns_succ {s u : State} (h : step s = .next u) (n : Nat) :
    s.engineTurns (n + 1) = (if turn s = .engine then 1 else 0) + u.engineTurns n := by
  simp only [State.engineTurns, h]

/-- The ENGINE steps that a command has taken, as long as it runs, are fewer than those it could take. -/
theorem engineTurns_lt_turnsLeft {n : Nat} : ∀ {s : State}, s.Live → (∀ m ≤ n, ∃ t, Sys2Proof.core.run m s = .next t ∧ t.busy = true) →
    s.engineTurns n < s.turnsLeft := by
  induction n with
  | zero =>
    intro s hl hbusy
    obtain ⟨t, ht, hb⟩ := hbusy 0 le_rfl
    cases ht
    exact hl.inv.turnsLeft_pos (hl.inv.busyIff.mp hb)
  | succ n ih =>
    intro s hl hbusy
    obtain ⟨s', hs', hb⟩ := hbusy 0 (Nat.zero_le _)
    cases hs'
    obtain ⟨t, ht, _⟩ := hbusy (n + 1) le_rfl
    obtain ⟨u, hu⟩ := step_of_run_next ht
    have hlt := ih (hl.step hu) fun m hm => by
      simpa only [run_step hu] using hbusy (m + 1) (Nat.succ_le_succ hm)
    have hle := step_turnsLeft hl hb hu
    rw [engineTurns_succ hu]
    omega

theorem State.Inv.turnsLeft_le_of_init {s : State} (h : s.Inv) (ha : s.active = .init) : s.turnsLeft ≤ 1 + s.params.nChunk := by
  have hp := h.activeIs.symm.trans ha
  unfold State.turnsLeft
  cases hq : s.phase with
  | initRate => exact le_rfl
  | initCal j => exact (Nat.sub_le _ _).trans (Nat.le_add_left _ _)
  | idle | readFrame | readComp => rw [hq] at hp; cases hp

theorem State.Inv.turnsLeft_le_of_read {s : State} (h : s.Inv) (ha : s.active = .read) : s.turnsLeft ≤ 2 := by
  have hp := h.activeIs.symm.trans ha
  unfold State.turnsLeft
  cases hq : s.phase with
  | readFrame => exact le_rfl
  | readComp => exact Nat.le_succ 1
  | idle | initRate | initCal j => rw [hq] at hp; cases hp

/-! ### Under a fair scheduler (R341) -/

/-- The run from `s` comes to a state with no command running, or the HOST meets an access that is not admitted. -/
def State.Ends (s : State) : Prop :=
  ∃ n, (∃ t, Sys2Proof.core.run n s = .next t ∧ t.busy = false ∧ t.phase = .idle) ∨ ∃ r, Sys2Proof.core.run n s = .refused r

theorem ends_of_not_busy {s : State} (hi : s.Inv) (hb : s.busy = false) : s.Ends := ⟨0, .inl ⟨s, rfl, hb, hi.idle_of_not_busy hb⟩⟩

theorem ends_of_refused {s : State} {r : Refusal} (h : step s = .refused r) : s.Ends := ⟨1, .inr ⟨r, run_refused h⟩⟩

theorem State.Ends.of_run {k : Nat} {s t : State} (h : t.Ends) (hk : Sys2Proof.core.run k s = .next t) : s.Ends := by
  obtain ⟨n, hn⟩ := h
  exact ⟨k + n, by simpa only [run_add n hk] using hn⟩

theorem State.fairToEngine.of_run {k : Nat} {s t : State} (h : s.fairToEngine) (hk : Sys2Proof.core.run k s = .next t) : t.fairToEngine :=
  fun n u hu => h (k + n) u ((run_add n hk).trans hu)

/-- A step of a running command ends the run, or the command goes on: then it was a turn of the HOST, or ENGINE's, and one fewer is left. -/
theorem ends_or_step_goes_on {s : State} (hl : s.Live) (hb : s.busy = true) :
    s.Ends ∨ ∃ t, step s = .next t ∧ t.busy = true ∧ t.turnsLeft ≤ s.turnsLeft ∧ (turn s = .host ∨ t.turnsLeft < s.turnsLeft) := by
  cases hs : step s with
  | fault r => cases r
  | refused r => exact .inl (ends_of_refused hs)
  | next t =>
    cases hbt : t.busy with
    | false => exact .inl ((ends_of_not_busy (hl.step hs).inv hbt).of_run (run_one hs))
    | true =>
      have hle := step_turnsLeft hl hb hs
      refine .inr ⟨t, rfl, hbt, by omega, ?_⟩
      rcases step_next_cases hs with ⟨hturn, _⟩ | ⟨hturn, _⟩ | ⟨_, rfl⟩
      · exact .inl hturn
      · rw [if_pos hturn] at hle
        exact .inr (by omega)
      · cases hbt

/-- Where HOST turns do not come for ever, the command ends or ENGINE makes a step of it. -/
theorem ends_or_fewer_turnsLeft {m : Nat} : ∀ {s : State}, s.Live → s.busy = true →
    (¬ ∃ u, Sys2Proof.core.run m s = .next u ∧ u.busy = true ∧ turn u = .host) →
    s.Ends ∨ ∃ k t, Sys2Proof.core.run k s = .next t ∧ t.busy = true ∧ t.turnsLeft < s.turnsLeft := by
  induction m with
  | zero =>
    intro s hl hb hm
    rcases ends_or_step_goes_on hl hb with hends | ⟨t, hs, hbt, -, hturn | hlt⟩
    · exact .inl hends
    · exact absurd ⟨s, rfl, hb, hturn⟩ hm
    · exact .inr ⟨1, t, run_one hs, hbt, hlt⟩
  | succ m ih =>
    intro s hl hb hm
    rcases ends_or_step_goes_on hl hb with hends | ⟨t, hs, hbt, hle, -⟩
    · exact .inl hends
    · rw [run_step hs] at hm
      rcases ih (hl.step hs) hbt hm with hends | ⟨k, u, hk, hbu, hlt⟩
      · exact .inl (hends.of_run (run_one hs))
      · exact .inr ⟨k + 1, u, (run_step hs).trans hk, hbu, hlt.trans_le hle⟩

/-- A fair scheduler makes the turns that are left fewer until none is. -/
theorem ends_of_fair (n : Nat) : ∀ {s : State}, s.turnsLeft = n → s.Live → s.fairToEngine → s.busy = true → s.Ends := by
  induction n using Nat.strong_induction_on with
  | h n ih =>
    rintro s rfl hl hf hb
    obtain ⟨m, hm⟩ := hf 0 s rfl
    rcases ends_or_fewer_turnsLeft hl hb hm with hends | ⟨k, t, hk, hbt, hlt⟩
    · exact hends
    · exact (ih _ hlt rfl (hl.run hk) (hf.of_run hk) hbt).of_run hk

/-! ### ENGINE alone (R334) -/

/-- An ENGINE turn leaves fewer turns to come, or there were none. -/
theorem step_engine_alone {s : State} {rest : List Turn} {n : Nat} (hl : s.Live) (hs : s.schedule = .engine :: rest)
    (hn : s.turnsLeft ≤ n + 1) : ∃ t, step s = .next t ∧ t.schedule = rest ∧ t.turnsLeft ≤ n := by
  obtain ⟨t, ht⟩ := engineStep_total { s with schedule := rest }
  have hst : step s = .next t := (step_of_engine_turn hs).trans ht
  have hturn : turn s = .engine := by simp only [turn, hs]
  refine ⟨t, hst, (engineStep_next ht).schedule, ?_⟩
  cases hb : s.busy with
  | false =>
    have hp := hl.inv.idle_of_not_busy hb
    cases (engineStep_idle (s := { s with schedule := rest }) hp).symm.trans ht
    exact (turnsLeft_of_idle hp).trans_le (Nat.zero_le n)
  | true =>
    have hle := step_turnsLeft hl hb hst
    rw [if_pos hturn] at hle
    omega

/-- As many ENGINE turns as are left end the command; further ones change nothing. -/
theorem run_engine_alone {rest : List Turn} (n : Nat) : ∀ {s : State}, s.Live → s.turnsLeft ≤ n →
    s.schedule = List.replicate n Turn.engine ++ rest → ∃ t, Sys2Proof.core.run n s = .next t ∧ t.busy = false ∧ t.phase = .idle := by
  induction n with
  | zero =>
    intro s hl hn _
    exact ⟨s, rfl, hl.inv.idle_of_turnsLeft (Nat.le_zero.mp hn)⟩
  | succ n ih =>
    intro s hl hn hs
    obtain ⟨u, hu, hsched, hleft⟩ := step_engine_alone hl hs hn
    obtain ⟨t, ht, hend⟩ := ih (hl.step hu) hleft hsched
    exact ⟨t, (run_step hu).trans ht, hend⟩

/-! ### Every command ends (R334, R341) -/

/-- Settles O59: an INIT has at most `1 + NCHUNK` ENGINE turns left and a READ at most 2, and each ENGINE turn takes one off. -/
theorem commandsEnd : Obligations.CommandsEnd := by
  intro s rest hi hd
  have hl : s.Live := ⟨hi, hd⟩
  refine ⟨fun n hbusy => ⟨fun ha => ?_, fun ha => ?_⟩, fun hf hb => ends_of_fair _ rfl hl hf hb, fun hp hs => ?_, fun hp hs => ?_⟩
  · exact (engineTurns_lt_turnsLeft hl hbusy).trans_le (hi.turnsLeft_le_of_init ha)
  · exact (engineTurns_lt_turnsLeft hl hbusy).trans_le (hi.turnsLeft_le_of_read ha)
  · exact run_engine_alone _ hl (hi.turnsLeft_le_of_init (by rw [hi.activeIs, hp]; rfl)) hs
  · exact run_engine_alone 2 hl (hi.turnsLeft_le_of_read (by rw [hi.activeIs, hp]; rfl)) hs

end Sys2Proof.Machine
end
